-- ==== Sys2Proof/Word.lean ====
section
/-! DEFINITION. The words of feeflash CORE: the byte, the 16-bit value of the checksum and of a response, and
the 32-bit tick count. All values of the block are unsigned (R11). -/

namespace Sys2Proof

/-- The addressable unit everywhere (R61). -/
abbrev Byte := BitVec 8

/-- The accumulator's and the response value's width (R24, R90). -/
abbrev Half := BitVec 16

/-- A duration in ticks, `TIME_WIDTH` = 32 bits (R10, R38). -/
abbrev Ticks := BitVec 32

end Sys2Proof
end

