-- ==== Sys2Proof/Config.lean ====
section
/-! DEFINITION. The one configuration record: every literal of the document under its name (R9, R308), the
parameters the spec adds (R10), and, with no body, the values the environment supplies under no law (U5, U13,
U18): nothing can evaluate one or prove what it is (log 2). -/

namespace Sys2Proof

/-- What `StreamWrite`, `StreamFlush` and `StreamSetTimeout` may answer (R67, R68, R70). -/
inductive Answer where
  | done
  | ioError
  deriving DecidableEq, Repr, Inhabited

/-- What `StreamRead` may answer (R69). -/
inductive ReadAnswer where
  | bytes (l : List Byte)
  | timeout
  | ioError
  deriving DecidableEq, Repr, Inhabited

/-- The table of R9 and the decided parameters of R10, one field a row. -/
structure Config where
  /-- `CRC_WIDTH`, the accumulator's width: `Half` is the bit vector of this width (`half_is_crcWidth`). -/
  crcWidth : Nat := 16
  crcWindow : Nat := 64
  crcInit : Half := 0x0000
  crcPoly : Half := 0x1021
  frameLen : Nat := 70
  payloadLen : Nat := 64
  stopLast : Byte := 0x04
  stopMore : Byte := 0x06
  ack : Byte := 0x06
  nak : Byte := 0x15
  pktLead : Byte := 0xFF
  insPing : Byte := 0x01
  insReboot : Byte := 0x08
  addrUnicastMax : Nat := 253
  addrBroadcast : Nat := 254
  /-- "1fBVA"; the byte values come from the ASCII table (R106, G1). PRESUMED (log 21). -/
  magicSeq : List Byte := [0x31, 0x66, 0x42, 0x56, 0x41]
  initByte : Byte := 0x01
  fillByte : Byte := 0xFF
  retryBound : Byte := 5
  scanFirst : Nat := 0
  scanLast : Nat := 253
  dinCap : Nat := 255
  outCap : Nat := 259
  paramMax : Nat := 253
  deriving DecidableEq, Repr

/-- The record with the document's values. -/
def cfg : Config := {}

/-- `RXCAP` - 2, open (R10, D14): `RXCAP` is at least 2 (log 16). -/
opaque Config.rxcapMore : Nat

/-- The `n`-th free answer of a write, a flush or a timeout setting (U5). -/
opaque Config.freeAnswer : Nat → Answer

/-- The `n`-th free answer of a read, before `RXCAP` bounds its length (U5). -/
opaque Config.freeRead : Nat → ReadAnswer

/-- The `n`-th free advance of the clock before a reading (U13). -/
opaque Config.freeTicks : Nat → Nat

/-- The `n`-th free count of bytes that left although the primitive answered `IoError` (R67). -/
opaque Config.freeCount : Nat → Nat

end Sys2Proof
end

