-- ==== Sys2Proof/Machine/Codec.lean ====
section
/-! DEFINITION. The pure functions of the encoders: the CRC update and its window (R121, R122, R126), the frame
layout (R96, R141) and the packet layout (R100, R101, R156). No state. -/

namespace Sys2Proof.Machine

/-- One round: test the top bit, shift the 15 low bits left by one, XOR the constant if the bit was set (R121). -/
def crcRound (x : Half) : Half :=
  if x.getLsbD (cfg.crcWidth - 1) then (x <<< 1) ^^^ cfg.crcPoly else x <<< 1

/-- `n` rounds. -/
def crcRounds : Nat → Half → Half
  | 0, x => x
  | n + 1, x => crcRounds n (crcRound x)

/-- `crc_step(acc, b)`: the byte XORed into the high half, then eight rounds (R121). -/
def crcStep (acc : Half) (b : Byte) : Half :=
  crcRounds 8 (acc ^^^ (b ++ (0 : BitVec 8)))

/-- `crc_absorb(acc, cnt, b)`: nothing is absorbed when the window is full (R122). -/
def crcAbsorb (acc : Half) (cnt : BitVec 7) (b : Byte) : Half × BitVec 7 :=
  if cnt.toNat < cfg.crcWindow then (crcStep acc b, cnt + 1) else (acc, cnt)

/-- `crc16_64(l)`; no value on a list shorter than the window (R126, R128). -/
def crc16_64 (l : List Byte) : Option Half :=
  if cfg.crcWindow ≤ l.length then some ((l.take cfg.crcWindow).foldl crcStep cfg.crcInit) else none

/-- `k[15:8]` (R64). -/
def hiByte (k : Half) : Byte := k.extractLsb' 8 8

/-- `k[7:0]` (R64). -/
def loByte (k : Half) : Byte := k.extractLsb' 0 8

/-- 0x04 if the frame is the last, else 0x06 (R98). -/
def stopMarker (last : Bool) : Byte := if last then cfg.stopLast else cfg.stopMore

/-- Offsets 0 to 66 of a frame: index, inverse index, reserved byte, payload (R96). -/
def frameHead (idx rsv : Byte) (payload : List Byte) : List Byte := idx :: ~~~idx :: rsv :: payload

/-- The checksum and the 70 bytes of a frame; none unless the payload is exactly 64 bytes (R141, R142). The
checksum is over the first 64 encoded bytes (R97). -/
def encodeFrame (idx rsv : Byte) (payload : List Byte) (last : Bool) : Option (Half × List Byte) :=
  if payload.length = cfg.payloadLen then
    match crc16_64 (frameHead idx rsv payload) with
    | some k => some (k, frameHead idx rsv payload ++ [hiByte k, loByte k, stopMarker last])
    | none => none
  else none

/-- The byte sum, modulo 256 (R158). -/
def byteSum (l : List Byte) : Byte := l.sum

/-- Offsets 2 to 4 + N of a packet: address, length, instruction, parameters (R100). -/
def packetBody (addr ins : Byte) (params : List Byte) : List Byte :=
  addr :: BitVec.ofNat 8 (params.length + 2) :: ins :: params

/-- The N + 6 bytes of a packet; none when N exceeds 253 (R156, R157). -/
def encodePacket (addr ins : Byte) (params : List Byte) : Option (List Byte) :=
  if params.length ≤ cfg.paramMax then
    some (cfg.pktLead :: cfg.pktLead ::
      (packetBody addr ins params ++ [~~~byteSum (packetBody addr ins params)]))
  else none

end Sys2Proof.Machine
end

