-- ==== Sys2Proof/Syntax.lean ====
section
/-! DEFINITION. The operations and wire encodings of feeflash CORE, one constructor for each of the 24 rows of
`spec/opcode_table.json`, and the four shapes of what crosses the block's ports (R90, R109, R110). -/

namespace Sys2Proof

/-- The rows of the opcode table: twelve operations (R92), two pseudo-operations (R109), ten wire encodings
(R96 to R107). -/
inductive Instr where
  /-- CRCCLR (R123) -/
  | crcclr
  /-- CRCPUSH b (R124) -/
  | crcpush (b : Byte)
  /-- CRC16 (R125) -/
  | crc16
  /-- DCLR (R221) -/
  | dclr
  /-- DPUSH b (R222) -/
  | dpush (b : Byte)
  /-- OCPY (R223) -/
  | ocpy
  /-- ORD i, a 9-bit index (R224, R93) -/
  | ord (i : BitVec 9)
  /-- RDREG r (R228) -/
  | rdreg (r : Byte)
  /-- FENC index, reserved_byte, is_last (R141) -/
  | fenc (idx rsv : Byte) (last : Bool)
  /-- PENC address, instruction (R156) -/
  | penc (addr ins : Byte)
  /-- SEND max_retries (R171) -/
  | send (maxr : Byte)
  /-- MAGIC interval [, max_wait] (R196); the option is the pair (BND, MAXW) of R36 -/
  | magic (ivl : Ticks) (maxWait : Option Ticks)
  /-- PING addr = DCLR; PENC addr, 0x01 (R109) -/
  | ping (addr : Byte)
  /-- REBOOT addr = DCLR; PENC addr, 0x08 (R109) -/
  | reboot (addr : Byte)
  /-- FRAME, the 70-byte wire frame by its free fields i, r, p, m (R96, R99) -/
  | frame (idx rsv : Byte) (payload : List Byte) (more : Bool)
  /-- CMDPKT, a command packet by its free fields a, k, q (R100) -/
  | cmdpkt (addr ins : Byte) (params : List Byte)
  /-- PINGPKT (R160, R161) -/
  | pingpkt (addr : Byte)
  /-- REBOOTPKT (R160, R161) -/
  | rebootpkt (addr : Byte)
  /-- ACK, 0x06 from the peer (R105) -/
  | ack
  /-- NAK, 0x15 from the peer (R105) -/
  | nak
  /-- STOP_LAST, 0x04, offset 69 of a final frame (R98) -/
  | stopLast
  /-- STOP_MORE, 0x06, offset 69 of any other frame (R98) -/
  | stopMore
  /-- MAGICSEQ, the five bytes of the handshake (R106) -/
  | magicseq
  /-- INITBYTE, 0x01 from the host (R107) -/
  | initbyte
  deriving DecidableEq, Repr

/-- A request on the operation port: six parallel fields (R90). -/
structure Request where
  op : Byte
  a : Byte := 0
  b : Byte := 0
  c : Byte := 0
  t0 : Ticks := 0
  t1 : Ticks := 0
  deriving DecidableEq, Repr

/-- What crosses the block's ports. -/
inductive PortWord where
  /-- one request bundle on the operation port (R90) -/
  | request (r : Request)
  /-- two request bundles in a row, as a pseudo-operation expands to (R109) -/
  | pair (r1 r2 : Request)
  /-- bytes on the stream towards the peer (R60 (3)) -/
  | outbound (l : List Byte)
  /-- bytes on the stream from the peer (R60 (4)) -/
  | inbound (l : List Byte)
  deriving DecidableEq, Repr

end Sys2Proof
end

