-- ==== Sys2Proof/WellFormed.lean ====
section
/-! DEFINITION. Which terms of `Instr` stand for an encoding of the spec. Every term of the twelve operations and
the two pseudo-operations does: their operands are refused by the block, not by the encoding (R94, R95). Three
checks are on wire rows. -/

namespace Sys2Proof

/-- The checks: a frame's payload is exactly 64 bytes (R96); a packet has at most 253 parameters (R102); and a
packet without parameters whose instruction is ping or reboot is written PINGPKT or REBOOTPKT (R103, R160), so
that one word has one reading. -/
def Instr.wellFormed : Instr → Bool
  | .frame _ _ payload _ => payload.length == cfg.payloadLen
  | .cmdpkt _ ins params =>
      decide (params.length ≤ cfg.paramMax) &&
        !(params.isEmpty && (ins == cfg.insPing || ins == cfg.insReboot))
  | .crcclr | .crcpush _ | .crc16 | .dclr | .dpush _ | .ocpy | .ord _ | .rdreg _ | .fenc _ _ _
  | .penc _ _ | .send _ | .magic _ _ | .ping _ | .reboot _ | .pingpkt _ | .rebootpkt _ | .ack
  | .nak | .stopLast | .stopMore | .magicseq | .initbyte => true

end Sys2Proof
end

