-- ==== Sys2Proof/Decode.lean ====
section
/-! DEFINITION. Decoding, total on whatever crosses a port and rejecting by name, and after it the encoder, both
written from `30_encoding.md` (R90 to R107). The readers of wire words say which row of the table the bytes are;
CORE itself decodes no frame and no packet (R6, R43; log 29). -/

namespace Sys2Proof

open Machine (encodeFrame encodePacket)

/-- Why a port word is no row of the table. -/
inductive DecodeError where
  /-- an `op` outside the twelve codes (R94) -/
  | unassignedOp (op : Byte)
  /-- two requests that are no pseudo-operation (R109) -/
  | notPseudo
  /-- bytes towards the peer that are no wire row -/
  | notOutbound
  /-- bytes from the peer that are no wire row -/
  | notInbound
  deriving DecidableEq, Repr

/-- ORD's index `{b[0], a[7:0]}` (R93). -/
def Request.index9 (r : Request) : BitVec 9 := r.b.extractLsb' 0 1 ++ r.a

/-- `c[0]`: FENC's is_last, MAGIC's deadline-given (R91). -/
def Request.flag (r : Request) : Bool := r.c.getLsbD 0

/-- MAGIC's optional max_wait; `t1` is ignored when `c[0] = 0` (R91, R36). -/
def Request.maxWait (r : Request) : Option Ticks := if r.flag then some r.t1 else none

/-- The table of R92; a field a format does not list is not looked at (R91, R95). -/
def decodeRequest (r : Request) : Except DecodeError Instr :=
  match r.op.toNat with
  | 0x01 => .ok .crcclr
  | 0x02 => .ok (.crcpush r.a)
  | 0x03 => .ok .crc16
  | 0x10 => .ok .dclr
  | 0x11 => .ok (.dpush r.a)
  | 0x12 => .ok .ocpy
  | 0x13 => .ok (.ord r.index9)
  | 0x14 => .ok (.rdreg r.a)
  | 0x20 => .ok (.fenc r.a r.b r.flag)
  | 0x30 => .ok (.penc r.a r.b)
  | 0x40 => .ok (.send r.a)
  | 0x50 => .ok (.magic r.t0 r.maxWait)
  | _ => .error (.unassignedOp r.op)

/-- PING and REBOOT: DCLR, then PENC with instruction 0x01 or 0x08 (R109). -/
def decodePair (r1 r2 : Request) : Except DecodeError Instr :=
  match decodeRequest r1, decodeRequest r2 with
  | .ok .dclr, .ok (.penc a k) =>
      if k = cfg.insPing then .ok (.ping a)
      else if k = cfg.insReboot then .ok (.reboot a)
      else .error .notPseudo
  | _, _ => .error .notPseudo

/-- A packet's row: the ping and reboot packets have their own (R103, R160). -/
def packetRow (addr ins : Byte) (params : List Byte) : Instr :=
  if params.isEmpty && ins == cfg.insPing then .pingpkt addr
  else if params.isEmpty && ins == cfg.insReboot then .rebootpkt addr
  else .cmdpkt addr ins params

/-- Bytes laid out as a packet: the derived bytes (lead, length, checksum) must be the ones R100 gives. -/
def readPacket (l : List Byte) : Except DecodeError Instr :=
  match l with
  | _ :: _ :: addr :: _ :: ins :: rest =>
      if encodePacket addr ins rest.dropLast = some l then .ok (packetRow addr ins rest.dropLast)
      else .error .notOutbound
  | _ => .error .notOutbound

/-- Bytes laid out as a frame: inverse index, checksum and stop marker must be the ones R96 gives. -/
def readFrame (l : List Byte) : Option Instr :=
  match l with
  | idx :: _ :: rsv :: rest =>
      let payload := rest.take cfg.payloadLen
      let last := l.getLast? == some cfg.stopLast
      if (encodeFrame idx rsv payload last).map Prod.snd = some l then
        some (.frame idx rsv payload !last)
      else none
  | _ => none

/-- Rows towards the peer (R96, R98, R100, R106, R107). -/
def decodeOutbound (l : List Byte) : Except DecodeError Instr :=
  if l = [cfg.initByte] then .ok .initbyte
  else if l = [cfg.stopLast] then .ok .stopLast
  else if l = [cfg.stopMore] then .ok .stopMore
  else if l = cfg.magicSeq then .ok .magicseq
  else match readFrame l with
    | some i => .ok i
    | none => readPacket l

/-- Rows from the peer (R105). -/
def decodeInbound (l : List Byte) : Except DecodeError Instr :=
  if l = [cfg.ack] then .ok .ack
  else if l = [cfg.nak] then .ok .nak
  else .error .notInbound

/-- The decoder. -/
def decode : PortWord → Except DecodeError Instr
  | .request r => decodeRequest r
  | .pair r1 r2 => decodePair r1 r2
  | .outbound l => decodeOutbound l
  | .inbound l => decodeInbound l

/-- The bit 0 a flag is carried in; the other bits are driven to 0 (R95). -/
def flagByte (f : Bool) : Byte := if f then 1 else 0

/-- The DCLR request, first half of a pseudo-operation. -/
def dclrRequest : Request := { op := 0x10 }

/-- The PENC request. -/
def pencRequest (addr ins : Byte) : Request := { op := 0x30, a := addr, b := ins }

/-- The words of an instruction, unused fields 0 (R95); none for an ill-formed term. -/
def encode (i : Instr) : Option PortWord :=
  match i with
  | .crcclr => some (.request { op := 0x01 })
  | .crcpush b => some (.request { op := 0x02, a := b })
  | .crc16 => some (.request { op := 0x03 })
  | .dclr => some (.request dclrRequest)
  | .dpush b => some (.request { op := 0x11, a := b })
  | .ocpy => some (.request { op := 0x12 })
  | .ord i => some (.request { op := 0x13, a := i.extractLsb' 0 8, b := flagByte (i.getLsbD 8) })
  | .rdreg r => some (.request { op := 0x14, a := r })
  | .fenc idx rsv last => some (.request { op := 0x20, a := idx, b := rsv, c := flagByte last })
  | .penc addr ins => some (.request (pencRequest addr ins))
  | .send maxr => some (.request { op := 0x40, a := maxr })
  | .magic ivl maxWait =>
      some (.request { op := 0x50, c := flagByte maxWait.isSome, t0 := ivl, t1 := maxWait.getD 0 })
  | .ping addr => some (.pair dclrRequest (pencRequest addr cfg.insPing))
  | .reboot addr => some (.pair dclrRequest (pencRequest addr cfg.insReboot))
  | .frame idx rsv payload more =>
      (encodeFrame idx rsv payload !more).map fun f => .outbound f.2
  | .cmdpkt addr ins params =>
      if (Instr.cmdpkt addr ins params).wellFormed then (encodePacket addr ins params).map .outbound
      else none
  | .pingpkt addr => (encodePacket addr cfg.insPing []).map .outbound
  | .rebootpkt addr => (encodePacket addr cfg.insReboot []).map .outbound
  | .ack => some (.inbound [cfg.ack])
  | .nak => some (.inbound [cfg.nak])
  | .stopLast => some (.outbound [cfg.stopLast])
  | .stopMore => some (.outbound [cfg.stopMore])
  | .magicseq => some (.outbound cfg.magicSeq)
  | .initbyte => some (.outbound [cfg.initByte])

/-- The `n` bytes of a number, most significant first: the order in which the table writes a row of several
bytes (R110, log 10). -/
def bytesOfWord : Nat → Nat → List Byte
  | 0, _ => []
  | n + 1, w => BitVec.ofNat 8 (w >>> (8 * n)) :: bytesOfWord n w

/-- The port word a row of `nbits` bits stands for. 8 bits: an assigned `op` with every operand field 0 (the table
counts only `op`, R110), else a byte from the peer, else a byte towards the peer, else an unassigned `op` (log 9).
32 bits: the two requests of a pseudo-operation (R110). Otherwise: bytes towards the peer. -/
def portWordOf (nbits w : Nat) : PortWord :=
  let request : PortWord := .request { op := BitVec.ofNat 8 w }
  if nbits = 8 then
    if (decode request).isOk then request
    else if (decode (.inbound (bytesOfWord 1 w))).isOk then .inbound (bytesOfWord 1 w)
    else if (decode (.outbound (bytesOfWord 1 w))).isOk then .outbound (bytesOfWord 1 w)
    else request
  else if nbits = 32 then
    .pair { op := BitVec.ofNat 8 (w >>> 24) }
      { op := BitVec.ofNat 8 (w >>> 16), a := BitVec.ofNat 8 (w >>> 8), b := BitVec.ofNat 8 w }
  else .outbound (bytesOfWord (nbits / 8) w)

/-- The instruction the decoder reads from a word numbered as `spec/opcode_table.json` numbers it. -/
def decodeTableWord (nbits w : Nat) : Option Instr := (decode (portWordOf nbits w)).toOption

end Sys2Proof
end

