-- ==== Sys2Proof/Machine/State.lean ====
section
/-! DEFINITION. The state of feeflash CORE and of the environment its rules read or write, as plain data
(`10_state.md`), and the state right after reset (R45). -/

namespace Sys2Proof.Machine

/-- The phase register `PH` (R30). -/
inductive Phase where
  | idle
  | sWrite | sFlush | sRead
  | mSetup | mWrite | mFlush | mRead | mCheck
  deriving DecidableEq, Repr

/-- The eight status kinds of R261; their codes are `Status.code`. -/
inductive Status where
  | ok | timeout | unexpectedResponse | retryExhausted | framingError | invalidInput | streamError
  | operandError
  deriving DecidableEq, Repr

/-- Who owns the stream and performs an event on it (R77). -/
inductive Owner where
  | core | host
  deriving DecidableEq, Repr

/-- What is done to the stream, with its answer, and MGC's progress signal (R40, R72). -/
inductive Deed where
  | write (l : List Byte) (r : Answer)
  | flush (r : Answer)
  | read (r : ReadAnswer)
  | setTimeout (t : Ticks) (r : Answer)
  | progress
  deriving DecidableEq, Repr

/-- One entry of the event history (R40). -/
structure Event where
  who : Owner
  deed : Deed
  deriving DecidableEq, Repr

/-- A response on the operation port (R90). -/
structure Response where
  status : Status
  val : Half
  deriving DecidableEq, Repr

/-- The coming answers of the environment, then free values numbered by `draws` (log 2). `reads` is also the
stream's receive side: what the peer has sent and nobody has read (R39). -/
structure Oracle where
  writes : List Answer
  flushes : List Answer
  sets : List Answer
  reads : List ReadAnswer
  ticks : List Nat
  draws : Nat
  deriving DecidableEq, Repr

/-- What the host can do; it is held while `PH ≠ IDLE` (R76). -/
inductive HostOp where
  /-- issue one request (R90) -/
  | request (r : Request)
  /-- issue the two requests of a pseudo-operation (R109) -/
  | pair (r1 r2 : Request)
  /-- write bytes to the stream and flush, by the host's own path (R77, R244) -/
  | transmit (l : List Byte)
  /-- begin the copy of a packet that is read out of `OUT` (R243) -/
  | clearPacket
  /-- append the byte the last response carries to that copy (R224, R243) -/
  | collect
  /-- HOSTTX's write and flush of the bytes read out of `OUT` (R109, R243) -/
  | transmitPacket
  /-- HOSTRX: read the stream (R109) -/
  | receive
  /-- set the stream's read timeout (R38, R247, R251, R304) -/
  | setTimeout (t : Ticks)
  /-- stop the session unless the awaited response has come and is `OK` (R240, log 31) -/
  | expectOk
  /-- stop the session if the host's last write, flush or timeout setting failed (R251, log 33) -/
  | expectDone
  /-- stop the session unless the host's last read was exactly ACK (R244) -/
  | expectAck
  /-- begin a scan with an empty result (R246) -/
  | beginScan
  /-- record `addr` if the host's last read returned at least one byte (R247, log 34) -/
  | noteReply (addr : Byte)
  /-- close the scan: its result is returned and changes no more (R246, R250) -/
  | endScan
  /-- REBOOT of the `k`-th address, from 0, of the last scan's result (R242) -/
  | rebootFound (k : Nat)
  /-- begin a Transfer Session of `n` chunks (R236) -/
  | openSession (n : Nat)
  /-- FENC with the session's index, reserved byte 0, and the last flag on its final chunk (R238) -/
  | fencChunk
  /-- step the session: a chunk was sent; after the last the session is destroyed (R236) -/
  | chunkSent
  /-- report the end of a transfer (R237, R240) -/
  | report (k : Status)
  /-- report a failure with the `EIDX` that the last response carries (R240) -/
  | reportIndex (k : Status)
  deriving DecidableEq, Repr

/-- What the outside world does in a step (log 1). -/
inductive Input where
  /-- nothing arrives: CORE goes on with its phase -/
  | quiet
  /-- the reset input (R46) -/
  | reset
  /-- the primitive CORE awaits does not answer yet (R66, N5, log 32); of a write under way at most `n` further
  bytes leave meanwhile (R71); where CORE awaits none, it goes on as in a quiet step -/
  | wait (n : Nat)
  /-- bytes arrive from the peer (R39) -/
  | peer (l : List Byte)
  /-- the stream's next read finds the first `n` unread bytes together, from however many arrivals (R69, R302, log 8) -/
  | group (n : Nat)
  /-- the host's next action; it waits while the host is held -/
  | host (h : HostOp)
  deriving DecidableEq, Repr

/-- What the host's orchestrator reports: a status, and after a failure the frame index it read (R237, R240). -/
structure Report where
  status : Status
  index : Option Byte
  deriving DecidableEq, Repr

/-- The Transfer Session (R236): `total_chunks`, the 8-bit `next_index`, and how many chunks were sent, which is
R238's `i` - 1. -/
structure Session where
  total : Nat
  nextIndex : Byte
  sent : Nat
  deriving DecidableEq, Repr

/-- The host software's own state (R42). -/
structure HostAgent where
  /-- the answer of its last read (R244, R247) -/
  lastRead : Option ReadAnswer
  /-- the answer of its last write, flush or timeout setting (R251) -/
  lastAnswer : Option Answer
  /-- the bytes of a packet read out of `OUT` (R243) -/
  packet : List Byte
  /-- the addresses found so far by a scan under way (R246) -/
  scanning : Option (List Byte)
  /-- the results of the scans completed, oldest first: only appended to (R246, R250) -/
  discoveries : List (List Byte)
  /-- the Transfer Session, while one exists (R236) -/
  session : Option Session
  /-- what was reported last (R237, R240) -/
  report : Option Report
  deriving DecidableEq, Repr

/-- The whole state. -/
structure State where
  /-- r0 `STATUS` (R23) -/
  status : Status
  /-- r1 `ACC` (R24) -/
  acc : Half
  /-- r2 `CNT` (R25) -/
  cnt : BitVec 7
  /-- `DIN[0..DLEN-1]`; r3 `DLEN` is its length (R31, R33) -/
  din : List Byte
  /-- `OUT[0..OLEN-1]`; r4 `OLEN` is its length (R32, R33) -/
  out : List Byte
  /-- r5 `ATT` (R28) -/
  att : BitVec 9
  /-- r6 `RXB` (R29) -/
  rxb : Byte
  /-- r7 `RXN` (R29) -/
  rxn : Byte
  /-- r8 `EIDX` (R29) -/
  eidx : Byte
  /-- `PH` (R30) -/
  ph : Phase
  /-- `MAXR` (R35) -/
  maxr : Byte
  /-- `IVL` (R35) -/
  ivl : Ticks
  /-- `BND` (R36) -/
  bnd : Bool
  /-- `MAXW` (R36) -/
  maxw : Ticks
  /-- `T0` (R35) -/
  t0 : Nat
  /-- `STREAM.RTO` (R38) -/
  rto : Ticks
  /-- the earliest value the next `Now()` may answer (R41) -/
  clock : Nat
  /-- the stream's transmit direction: the bytes that have left (R60, R67) -/
  tx : List Byte
  /-- of a write CORE has begun and the stream has not answered: how many of its bytes have left (R66, R71) -/
  writing : Option Nat
  /-- how many of them a flush has handed to the link (R68); whether bytes are on the link before a flush is open, and
  this counts none of those (log 37) -/
  handed : Nat
  /-- the event history (R40) -/
  history : List Event
  /-- the responses delivered (R90) -/
  responses : List Response
  /-- the response to the last request accepted: none while it is awaited, and none for good when reset abandoned
  the operation (R46, R90, log 31) -/
  reply : Option Response
  /-- the environment's coming answers -/
  oracle : Oracle
  /-- what the outside world does next -/
  inputs : List Input
  /-- the host software's state -/
  host : HostAgent
  deriving DecidableEq, Repr

/-- Why the machine stops. `step` raises none of them (every state has a next state). -/
inductive Fault where
  /-- Raised by a meaning of the host's (an operation, a host-sent wire row) given to `exec` while `PH ≠ IDLE`:
  the host is held and has no step (R76). Safe. -/
  | hostHeld
  /-- Raised by a wire row towards the peer given to `exec` while CORE owns the stream and its phase does not
  write those bytes (R77, R171, R196). Safe. -/
  | notEmitted
  deriving DecidableEq, Repr

/-- Why an instruction has no meaning. -/
inductive Refusal where
  /-- Raised by an arm of `exec` whose instruction has no meaning yet. Safe. -/
  | notModelled (mnemonic : String)
  /-- Raised by FRAME and CMDPKT on a term that is no encoding (payload not 64 bytes, more than 253 parameters);
  no word decodes to one. Safe. -/
  | illFormed
  deriving DecidableEq, Repr

/-- No answer scripted: every answer is a free value. -/
def Oracle.empty : Oracle :=
  { writes := [], flushes := [], sets := [], reads := [], ticks := [], draws := 0 }

/-- After reset (R45). The latched operands, which R45 leaves unspecified, are 0 (log 3); the environment's
fields, which CORE's reset does not touch, start empty or 0 (log 4). -/
def State.reset : State :=
  { status := .ok, acc := 0, cnt := 0, din := [], out := [], att := 0, rxb := 0, rxn := 0, eidx := 0,
    ph := .idle, maxr := 0, ivl := 0, bnd := false, maxw := 0, t0 := 0,
    rto := 0, clock := 0, tx := [], writing := none, handed := 0, history := [], responses := [], reply := none,
    oracle := Oracle.empty, inputs := [],
    host := { lastRead := none, lastAnswer := none, packet := [], scanning := none, discoveries := [],
              session := none, report := none } }

end Sys2Proof.Machine
end

