-- ==== Sys2Proof/Machine/Flags.lean ====
section
/-! DEFINITION. The status codes (R261) and the tests of the two sequencers: attempts remaining (R177), the
saturated byte count (R22) and the deadline (R205). The block has no condition flags (R23). -/

namespace Sys2Proof.Machine

/-- The codes of R261. -/
def Status.code : Status → Byte
  | .ok => 0x00
  | .timeout => 0x01
  | .unexpectedResponse => 0x02
  | .retryExhausted => 0x03
  | .framingError => 0x04
  | .invalidInput => 0x05
  | .streamError => 0x06
  | .operandError => 0x07

/-- "attempts remain": `ATT ≤ MAXR` (R177). -/
def attemptsRemain (s : State) : Bool := decide (s.att.toNat ≤ s.maxr.toNat)

/-- The byte count of a read answer, saturated at 255 (R22, R171). -/
def rxCount (l : List Byte) : Byte := BitVec.ofNat 8 (min l.length 255)

/-- `BND = 1` and `Now() - T0 ≥ MAXW`, for the reading `now` (R205). -/
def deadlineMet (now : Nat) (s : State) : Bool := s.bnd && decide (s.maxw.toNat ≤ now - s.t0)

end Sys2Proof.Machine
end

