-- ==== Sys2Proof/Machine/Ops.lean ====
section
/-! DEFINITION. The shared operations: bytes of the two buffers (R13, R60), the end of an operation with success
or error (R266), the four stream primitives and the clock (R66 to R72, R207), reset (R45, R46), and the host's own
path to the stream (R77). -/

namespace Sys2Proof.Machine

/-! ### The buffers -/

/-- The two buffers (R60). -/
inductive Space where
  | din | out
  deriving DecidableEq, Repr

/-- The valid bytes of a buffer. -/
def bufferOf (sp : Space) (s : State) : List Byte :=
  match sp with
  | .din => s.din
  | .out => s.out

/-- One byte; an index at or past the valid length reaches nothing (R33, R61). -/
def readByte (sp : Space) (i : Nat) (s : State) : Option Byte := (bufferOf sp s)[i]?

/-- `MemRead(space, i, n)` (R13): the valid bytes among the `n` from index `i`. -/
def memRead (sp : Space) (i n : Nat) (s : State) : List Byte := ((bufferOf sp s).drop i).take n

/-- The buffers hold at most `DIN_CAP` and `OUT_CAP` bytes (R31, R32). A buffer is the list of its valid bytes,
so equal buffers are equal lists and there is no entry for a valueless byte (R33). -/
abbrev Memory.wf (s : State) : Prop := s.din.length ≤ cfg.dinCap ∧ s.out.length ≤ cfg.outCap

/-- `DIN[DLEN] <- b; DLEN <- DLEN + 1` (R222). -/
def appendDin (b : Byte) (s : State) : State := { s with din := s.din ++ [b] }

/-- `DLEN <- 0` (R221). -/
def clearDin (s : State) : State := { s with din := [] }

/-- `OUT` overwritten from index 0, `OLEN` the new length; what lay past it is valueless (R34, R300). -/
def writeOut (l : List Byte) (s : State) : State := { s with out := l }

/-- The CRC engine's registers (R26). -/
def setCrc (k : Half) (n : BitVec 7) (s : State) : State := { s with acc := k, cnt := n }

/-! ### The end of an operation -/

/-- `STATUS <- K; PH <- IDLE`; the response `(K, val)` is delivered. -/
def respond (k : Status) (val : Half) (s : State) : State :=
  { s with
    status := k, ph := .idle
    responses := s.responses ++ [{ status := k, val := val }]
    reply := some { status := k, val := val } }

/-- `complete OK` with a value (R13). -/
def completeOk (val : Half) (s : State) : State := respond .ok val s

/-- `raise K` (R266): taking an error. There is nothing to return from (R272). -/
def raise (k : Status) (val : Half) (s : State) : State := respond k val s

/-- A refused request: `OperandError`, `val = 0`, no other change (R269). -/
def refuse (s : State) : State := raise .operandError 0 s

/-- `val = ATT` of SEND's responses (R171, R266). -/
def attVal (s : State) : Half := s.att.zeroExtend 16

/-- A request is accepted at `PH = IDLE`; while an operation runs the host is held (R76). -/
def whenIdle (s : State) (f : State → Host.Outcome State Fault Refusal) : Host.Outcome State Fault Refusal :=
  if s.ph = .idle then f s else .fault .hostHeld

/-! ### The environment's answers -/

/-- The next answer of a write. -/
def Oracle.nextWrite (o : Oracle) : Answer × Oracle :=
  match o.writes with
  | a :: rest => (a, { o with writes := rest })
  | [] => (Config.freeAnswer o.draws, { o with draws := o.draws + 1 })

/-- The next answer of a flush. -/
def Oracle.nextFlush (o : Oracle) : Answer × Oracle :=
  match o.flushes with
  | a :: rest => (a, { o with flushes := rest })
  | [] => (Config.freeAnswer o.draws, { o with draws := o.draws + 1 })

/-- The next answer of a timeout setting. -/
def Oracle.nextSet (o : Oracle) : Answer × Oracle :=
  match o.sets with
  | a :: rest => (a, { o with sets := rest })
  | [] => (Config.freeAnswer o.draws, { o with draws := o.draws + 1 })

/-- The next advance of the clock. -/
def Oracle.nextTicks (o : Oracle) : Nat × Oracle :=
  match o.ticks with
  | n :: rest => (n, { o with ticks := rest })
  | [] => (Config.freeTicks o.draws, { o with draws := o.draws + 1 })

/-- A free count of bytes (R67). -/
def Oracle.nextCount (o : Oracle) : Nat × Oracle :=
  (Config.freeCount o.draws, { o with draws := o.draws + 1 })

/-- The first `RXCAP` bytes of an arrival, and what is left of it for the next read (R69, R39; log 16). -/
def cutRead (l : List Byte) : List Byte × List Byte :=
  match l with
  | a :: b :: c :: rest =>
      (a :: b :: (c :: rest).take Config.rxcapMore, (c :: rest).drop Config.rxcapMore)
  | short => (short, [])

/-- The answer drawn as `r`, with at most `RXCAP` bytes; the bytes past them stay in the stream. -/
def Oracle.boundRead (r : ReadAnswer) (o : Oracle) : ReadAnswer × Oracle :=
  match r with
  | .bytes l =>
      (.bytes (cutRead l).1,
        { o with reads := if (cutRead l).2 = [] then o.reads else .bytes (cutRead l).2 :: o.reads })
  | .timeout => (.timeout, o)
  | .ioError => (.ioError, o)

/-- The bytes of the answers, in order: what the peer has sent and nobody has read (R39). -/
def unreadBytes (reads : List ReadAnswer) : List Byte :=
  reads.flatMap fun r => match r with
    | .bytes l => l
    | .timeout | .ioError => []

/-- The first `n` unread bytes, in order and across arrivals, and the answers that stay after them. A scripted answer
without a byte ends them. -/
def takeUnread : Nat → List ReadAnswer → List Byte × List ReadAnswer
  | n, .bytes (a :: l) :: rest =>
      if n ≤ l.length then ((a :: l).take n, .bytes ((a :: l).drop n) :: rest)
      else (a :: l ++ (takeUnread (n - (l.length + 1)) rest).1, (takeUnread (n - (l.length + 1)) rest).2)
  | _, reads => ([], reads)

/-- The first `n` unread bytes become one answer: how many bytes a read returns is the environment's free choice (R69),
and stale bytes of several arrivals can be one answer (R302). Bytes keep their order and none is lost (R39); where none
waits, or `n` is 0, nothing changes (log 8). -/
def Oracle.group (n : Nat) (o : Oracle) : Oracle :=
  match takeUnread n o.reads with
  | ([], _) => o
  | (a :: l, rest) => { o with reads := .bytes (a :: l) :: rest }

/-- The next answer of a read (R69). -/
def Oracle.nextRead (o : Oracle) : ReadAnswer × Oracle :=
  match o.reads with
  | r :: rest => Oracle.boundRead r { o with reads := rest }
  | [] => Oracle.boundRead (Config.freeRead o.draws) { o with draws := o.draws + 1 }

/-! ### The stream primitives and the clock -/

/-- Append to the event history (R72). -/
def addEvent (who : Owner) (d : Deed) (s : State) : State :=
  { s with history := s.history ++ [{ who := who, deed := d }] }

/-- The answer of `StreamWrite(l)` (R67), of which the first `k` bytes have left before it: the others leave now, or
after `IoError` a free number of them (log 13). A write that is not answered yet is `writeUnderWay`; that this one is
answered in this step is the outside world's doing (R66, R180, log 32). A write hands nothing to the link: that only a
flush does is the model's choice (R68, log 37). -/
def streamWrite (who : Owner) (l : List Byte) (k : Nat) (s : State) : Answer × State :=
  match s.oracle.nextWrite with
  | (.done, o) => (.done, addEvent who (.write l .done) { s with tx := s.tx ++ l.drop k, oracle := o })
  | (.ioError, o) =>
      match o.nextCount with
      | (n, o') =>
          (.ioError, addEvent who (.write l .ioError) { s with tx := s.tx ++ (l.drop k).take n, oracle := o' })

/-- `StreamWrite(l)` begun by CORE and not answered (R66): at most `n` further bytes of `l` leave, so the peer can see
a prefix of the write before the rest (R71, log 35). The bytes join `tx`, and `handed` waits for the flush (log 37). -/
def writeUnderWay (l : List Byte) (n : Nat) (s : State) : State :=
  let k := s.writing.getD 0
  { s with tx := s.tx ++ (l.drop k).take n, writing := some (min (k + n) l.length) }

/-- `StreamFlush()` (R68), answered in this step (log 32). After `IoError` a free number of the waiting bytes are
handed over (log 13). Only here bytes are counted as handed to the link (log 37). -/
def streamFlush (who : Owner) (s : State) : Answer × State :=
  match s.oracle.nextFlush with
  | (.done, o) => (.done, addEvent who (.flush .done) { s with handed := s.tx.length, oracle := o })
  | (.ioError, o) =>
      match o.nextCount with
      | (n, o') =>
          (.ioError, addEvent who (.flush .ioError)
            { s with handed := s.handed + min n (s.tx.length - s.handed), oracle := o' })

/-- The time a read takes at least: `STREAM.RTO` when it timed out (R207). -/
def readTime (r : ReadAnswer) (s : State) : Nat := if r = .timeout then s.rto.toNat else 0

/-- `StreamRead()` (R69). -/
def streamRead (who : Owner) (s : State) : ReadAnswer × State :=
  match s.oracle.nextRead with
  | (r, o) => (r, addEvent who (.read r) { s with clock := s.clock + readTime r s, oracle := o })

/-- `StreamSetTimeout(t)`: `STREAM.RTO <- t`, and an answer (R70). `STREAM.RTO` takes the value whatever
the answer is (log 14), in the step of the answer: before it the old value stays, the model's choice (log 38). -/
def streamSetTimeout (who : Owner) (t : Ticks) (s : State) : Answer × State :=
  match s.oracle.nextSet with
  | (a, o) => (a, addEvent who (.setTimeout t a) { s with rto := t, oracle := o })

/-- `Now()`: never less than the reading before it, nor than the time its reads took (R41, R207; log 15). -/
def now (s : State) : Nat × State :=
  match s.oracle.nextTicks with
  | (n, o) => (s.clock + n, { s with clock := s.clock + n, oracle := o })

/-! ### Reset and the host's path -/

/-- The reset input: CORE's state as R45 says, the operation abandoned without a response; the stream, the clock,
the history and the host are untouched, and of a write under way the bytes that have left stay sent, a partial frame
(R46, R291). The awaited response never comes: `reply` is none while an operation runs and stays so (log 31). -/
def resetInput (s : State) : State :=
  { State.reset with
    rto := s.rto, clock := s.clock, tx := s.tx, handed := s.handed, history := s.history,
    responses := s.responses, reply := s.reply, oracle := s.oracle, inputs := s.inputs, host := s.host }

/-- The host keeps the answer of its own write, flush or timeout setting (R251). -/
def noteAnswer (a : Option Answer) (s : State) : State := { s with host := { s.host with lastAnswer := a } }

/-- The host writes bytes and flushes by its own path (R77, R243), and keeps the answer. It flushes only what was
written, and an empty list is no write (log 17). -/
def hostTransmit (l : List Byte) (s : State) : State :=
  if l = [] then noteAnswer none s
  else
    match streamWrite .host l 0 s with
    | (.done, t) =>
        match streamFlush .host t with
        | (a, u) => noteAnswer (some a) u
    | (.ioError, t) => noteAnswer (some .ioError) t

/-- The host sets the stream's read timeout by its own path (R38, R251), and keeps the answer. -/
def hostSetTimeout (t : Ticks) (s : State) : State :=
  match streamSetTimeout .host t s with
  | (a, u) => noteAnswer (some a) u

/-- The host reads by its own path and keeps the answer (R244, R247). -/
def hostReceive (s : State) : State :=
  match streamRead .host s with
  | (r, t) => { t with host := { t.host with lastRead := some r } }

end Sys2Proof.Machine
end

