-- ==== Sys2Proof/Machine/Operands.lean ====
section
/-! DEFINITION. The operands of operations: the lengths as registers, the nine host-readable registers (R22), and
the operand checks (R269). The encoding's operand fields are assembled in `Decode.lean` (R93). -/

namespace Sys2Proof.Machine

/-- r3 `DLEN`, 8 bits (R22). -/
def State.dlen (s : State) : Byte := BitVec.ofNat 8 s.din.length

/-- r4 `OLEN`, 9 bits (R22). -/
def State.olen (s : State) : BitVec 9 := BitVec.ofNat 9 s.out.length

/-- `zext_16(REG_r)`; none for r above 8 (R22, R228). -/
def regRead (r : Byte) (s : State) : Option Half :=
  match r.toNat with
  | 0 => some (s.status.code.zeroExtend 16)
  | 1 => some s.acc
  | 2 => some (s.cnt.zeroExtend 16)
  | 3 => some (s.dlen.zeroExtend 16)
  | 4 => some (s.olen.zeroExtend 16)
  | 5 => some (s.att.zeroExtend 16)
  | 6 => some (s.rxb.zeroExtend 16)
  | 7 => some (s.rxn.zeroExtend 16)
  | 8 => some (s.eidx.zeroExtend 16)
  | _ => none

/-- An operand check made before any effect: a failed check is a refusal (R269). -/
def checked (ok : Bool) (s : State) (f : State → State) : Host.Outcome State Fault Refusal :=
  if ok then .next (f s) else .next (refuse s)

end Sys2Proof.Machine
end

