-- ==== Sys2Proof/Machine/Buffer.lean ====
section
/-! DEFINITION. Buffer and register access: DCLR, DPUSH, OCPY, ORD, RDREG (`45_buffer_access.md`). -/

namespace Sys2Proof.Machine

/-- DCLR (R221). -/
def execDclr (s : State) : Host.Outcome State Fault Refusal :=
  whenIdle s fun s => .next (completeOk 0 (clearDin s))

/-- DPUSH b (R222). -/
def execDpush (b : Byte) (s : State) : Host.Outcome State Fault Refusal :=
  whenIdle s fun s =>
    checked (decide (s.din.length < cfg.dinCap)) s fun s => completeOk 0 (appendDin b s)

/-- OCPY (R223). -/
def execOcpy (s : State) : Host.Outcome State Fault Refusal :=
  whenIdle s fun s => .next (completeOk 0 (writeOut s.din s))

/-- ORD i (R224). -/
def execOrd (i : BitVec 9) (s : State) : Host.Outcome State Fault Refusal :=
  whenIdle s fun s =>
    match readByte .out i.toNat s with
    | some b => .next (completeOk (b.zeroExtend 16) s)
    | none => .next (refuse s)

/-- RDREG r; the value is read before `STATUS` is overwritten (R228). -/
def execRdreg (r : Byte) (s : State) : Host.Outcome State Fault Refusal :=
  whenIdle s fun s =>
    match regRead r s with
    | some v => .next (completeOk v s)
    | none => .next (refuse s)

end Sys2Proof.Machine
end

