-- ==== Sys2Proof/Machine/Crc.lean ====
section
/-! DEFINITION. The CRC unit: CRCCLR, CRCPUSH, CRC16 (`40_crc.md`). -/

namespace Sys2Proof.Machine

/-- CRCCLR (R123). -/
def execCrcclr (s : State) : Host.Outcome State Fault Refusal :=
  whenIdle s fun s => .next (completeOk 0 (setCrc cfg.crcInit 0 s))

/-- CRCPUSH b (R124). -/
def execCrcpush (b : Byte) (s : State) : Host.Outcome State Fault Refusal :=
  whenIdle s fun s =>
    let r := crcAbsorb s.acc s.cnt b
    .next (completeOk 0 (setCrc r.1 r.2 s))

/-- CRC16 over `DIN` (R125); refused when `DLEN < 64`, where the checksum has no value (R128). -/
def execCrc16 (s : State) : Host.Outcome State Fault Refusal :=
  whenIdle s fun s =>
    match crc16_64 s.din with
    | some k => .next (completeOk k (setCrc k (BitVec.ofNat 7 cfg.crcWindow) s))
    | none => .next (refuse s)

end Sys2Proof.Machine
end

