-- ==== Sys2Proof/Machine/Encoders.lean ====
section
/-! DEFINITION. The two encoders: FENC (`41_frame.md`) and PENC (`42_command.md`), and the pseudo-operations PING
and REBOOT (R109, R161). -/

namespace Sys2Proof.Machine

/-- FENC index, reserved_byte, is_last; the payload is `DIN` (R141), refused unless `DLEN = 64` (R142). -/
def execFenc (idx rsv : Byte) (last : Bool) (s : State) : Host.Outcome State Fault Refusal :=
  whenIdle s fun s =>
    match encodeFrame idx rsv s.din last with
    | some (k, l) =>
        .next (completeOk k (setCrc k (BitVec.ofNat 7 cfg.crcWindow) (writeOut l s)))
    | none => .next (refuse s)

/-- PENC address, instruction; the parameters are `DIN` (R156), refused when `DLEN > 253` (R157). -/
def execPenc (addr ins : Byte) (s : State) : Host.Outcome State Fault Refusal :=
  whenIdle s fun s =>
    match encodePacket addr ins s.din with
    | some l => .next (completeOk 0 (writeOut l s))
    | none => .next (refuse s)

/-- DCLR then PENC addr, ins: the two operations one after the other, each with its response (R109, log 12). -/
def dclrThenPenc (addr ins : Byte) (s : State) : Host.Outcome State Fault Refusal :=
  whenIdle s fun s => execPenc addr ins (completeOk 0 (clearDin s))

/-- PING addr (R109). -/
def execPing (addr : Byte) (s : State) : Host.Outcome State Fault Refusal :=
  dclrThenPenc addr cfg.insPing s

/-- REBOOT addr (R109). -/
def execReboot (addr : Byte) (s : State) : Host.Outcome State Fault Refusal :=
  dclrThenPenc addr cfg.insReboot s

end Sys2Proof.Machine
end

