-- ==== Sys2Proof/Machine/Handshake.lean ====
section
/-! DEFINITION. The handshake sequencer: MAGIC's acceptance and its five phases (`44_handshake.md`). -/

namespace Sys2Proof.Machine

/-- MAGIC interval [, max_wait], accepted: the operands are latched and `PH <- M_SETUP` (R35, R196, R211). An absent
max_wait clears `BND` and is not stored (R36, R95; log 11). No write has begun and its response is awaited; the
operation goes on in the phases below. -/
def execMagic (ivl : Ticks) (maxWait : Option Ticks) (s : State) : Host.Outcome State Fault Refusal :=
  whenIdle s fun s =>
    .next { s with
      ivl := ivl, bnd := maxWait.isSome, maxw := maxWait.getD s.maxw, ph := .mSetup
      writing := none, reply := none }

/-- Phase `M_SETUP`: the read timeout is set, then the clock is read (R197). Until the setting is answered
`STREAM.RTO` keeps its old value (log 38). -/
def mSetup (s : State) : State :=
  match streamSetTimeout .core s.ivl s with
  | (.done, t) =>
      match now t with
      | (n, u) => { u with t0 := n, ph := .mWrite }
  | (.ioError, t) => raise .streamError 0 t

/-- Phase `M_WRITE`: the five bytes in one write (R198). -/
def mWrite (s : State) : State :=
  match streamWrite .core cfg.magicSeq (s.writing.getD 0) { s with writing := none } with
  | (.done, t) => { t with ph := .mFlush }
  | (.ioError, t) => raise .streamError 0 t

/-- Phase `M_FLUSH` (R199). -/
def mFlush (s : State) : State :=
  match streamFlush .core s with
  | (.done, t) => { t with ph := .mRead }
  | (.ioError, t) => raise .streamError 0 t

/-- The read's five outcomes (R200 to R204). -/
def mClassify (r : ReadAnswer) (s : State) : State :=
  match r with
  | .timeout => { addEvent .core .progress { s with rxn := 0 } with ph := .mCheck }
  | .ioError => raise .streamError 0 { s with rxn := 0 }
  | .bytes [] => { s with rxn := 0, ph := .mCheck }
  | .bytes [x] =>
      if x = cfg.ack then completeOk 0 { s with rxn := 1, rxb := x }
      else { s with rxn := 1, rxb := x, ph := .mCheck }
  | .bytes (x :: y :: l) => { s with rxn := rxCount (x :: y :: l), rxb := x, ph := .mCheck }

/-- Phase `M_READ`: one read with the configured timeout (R200). -/
def mRead (s : State) : State :=
  match streamRead .core s with
  | (r, t) => mClassify r t

/-- Phase `M_CHECK`: the deadline, once an iteration (R205). The clock is read only when a deadline was given. -/
def mCheck (s : State) : State :=
  if s.bnd then
    match now s with
    | (n, t) => if deadlineMet n t then raise .timeout 0 t else { t with ph := .mWrite }
  else { s with ph := .mWrite }

end Sys2Proof.Machine
end

