-- ==== Sys2Proof/Machine/Transport.lean ====
section
/-! DEFINITION. The retry controller: SEND's acceptance and its three phases (`43_transport.md`). -/

namespace Sys2Proof.Machine

/-- SEND max_retries, accepted: the start check, then the latches and `PH <- S_WRITE` (R172); no write has begun
and its response is awaited. The operation goes on in the phases below, one a step. -/
def execSend (maxr : Byte) (s : State) : Host.Outcome State Fault Refusal :=
  whenIdle s fun s =>
    checked (decide (s.out.length = cfg.frameLen)) s fun s =>
      match readByte .out 0 s with
      | some b => { s with maxr := maxr, att := 0, eidx := b, ph := .sWrite, writing := none, reply := none }
      | none => refuse s

/-- The attempt is counted once, as its write begins (R173). -/
def countAttempt (s : State) : BitVec 9 := if s.writing = none then s.att + 1 else s.att

/-- Phase `S_WRITE`: the attempt is counted, then all 70 bytes in one write (R173). -/
def sWrite (s : State) : State :=
  match streamWrite .core (memRead .out 0 cfg.frameLen s) (s.writing.getD 0)
      { s with att := countAttempt s, writing := none } with
  | (.done, t) => { t with ph := .sFlush }
  | (.ioError, t) => raise .streamError (attVal t) t

/-- Phase `S_WRITE` while the stream does not answer the write (R66, R71). -/
def sWriteWaits (n : Nat) (s : State) : State :=
  writeUnderWay (memRead .out 0 cfg.frameLen s) n { s with att := countAttempt s }

/-- Phase `S_FLUSH` (R174). -/
def sFlush (s : State) : State :=
  match streamFlush .core s with
  | (.done, t) => { t with ph := .sRead }
  | (.ioError, t) => raise .streamError (attVal t) t

/-- The read's answer classified: kind, then count, then value (R175 to R179). -/
def sClassify (r : ReadAnswer) (s : State) : State :=
  match r with
  | .timeout => raise .timeout (attVal s) { s with rxn := 0 }
  | .ioError => raise .streamError (attVal s) { s with rxn := 0 }
  | .bytes [] => raise .framingError (attVal s) { s with rxn := 0 }
  | .bytes [x] =>
      let s1 := { s with rxn := 1, rxb := x }
      if x = cfg.ack then completeOk (attVal s1) s1
      else if x = cfg.nak then
        if attemptsRemain s1 then { s1 with ph := .sWrite }
        else raise .retryExhausted (attVal s1) s1
      else raise .unexpectedResponse (attVal s1) s1
  | .bytes (x :: y :: l) =>
      raise .framingError (attVal s) { s with rxn := rxCount (x :: y :: l), rxb := x }

/-- Phase `S_READ`: one read under the stream's current timeout (R175). -/
def sRead (s : State) : State :=
  match streamRead .core s with
  | (r, t) => sClassify r t

end Sys2Proof.Machine
end

