-- ==== Sys2Proof/Machine/Wire.lean ====
section
/-! DEFINITION. The wire rows of the table: what crosses the stream port (R96 to R107). A row towards the peer is
the transfer of its bytes by the stream's owner: the host while `PH = IDLE`, CORE otherwise, and then in the phase
that writes those bytes (R77, R276). A row from the peer is the arrival of its byte (R39). See log 7. -/

namespace Sys2Proof.Machine

/-- Bytes arrive from the peer: they wait behind the earlier ones (R39), one answer of their own unless `groupBytes`
puts them with others (R69, R302, log 8); a `StreamRead()` that is waiting is answered now (R66). -/
def peerSends (l : List Byte) (s : State) : State :=
  let s1 := { s with oracle := { s.oracle with reads := s.oracle.reads ++ [ReadAnswer.bytes l] } }
  match s1.ph with
  | .sRead => sRead s1
  | .mRead => mRead s1
  | .idle | .sWrite | .sFlush | .mSetup | .mWrite | .mFlush | .mCheck => s1

/-- The stream puts its first `n` unread bytes together for the next read (R69, R302, log 8). -/
def groupBytes (n : Nat) (s : State) : State := { s with oracle := s.oracle.group n }

/-- Bytes leave towards the peer: by the host's path at `PH = IDLE`, else by CORE's phase if it writes them. -/
def transferOut (l : List Byte) (coreWrites : Bool) (phase : State → State) (s : State) :
    Host.Outcome State Fault Refusal :=
  if s.ph = .idle then .next (hostTransmit l s)
  else if coreWrites then .next (phase s)
  else .fault .notEmitted

/-- A command packet: CORE encodes it, the host transmits it while CORE is idle (R155, R243). -/
def sendPacket (p : Option (List Byte)) (s : State) : Host.Outcome State Fault Refusal :=
  match p with
  | some l => whenIdle s fun s => .next (hostTransmit l s)
  | none => .refused .illFormed

/-- FRAME (R96 to R99): in `S_WRITE` it leaves when `OUT[0..69]` is this frame (R173). -/
def execFrame (idx rsv : Byte) (payload : List Byte) (more : Bool) (s : State) :
    Host.Outcome State Fault Refusal :=
  match encodeFrame idx rsv payload (!more) with
  | some f => transferOut f.2 (decide (s.ph = .sWrite ∧ memRead .out 0 cfg.frameLen s = f.2)) sWrite s
  | none => .refused .illFormed

/-- CMDPKT (R100 to R104, R243). -/
def execCmdpkt (addr ins : Byte) (params : List Byte) (s : State) : Host.Outcome State Fault Refusal :=
  sendPacket (encodePacket addr ins params) s

/-- PINGPKT (R160, R161, R243). -/
def execPingpkt (addr : Byte) (s : State) : Host.Outcome State Fault Refusal :=
  sendPacket (encodePacket addr cfg.insPing []) s

/-- REBOOTPKT (R160, R161, R243). -/
def execRebootpkt (addr : Byte) (s : State) : Host.Outcome State Fault Refusal :=
  sendPacket (encodePacket addr cfg.insReboot []) s

/-- ACK arrives: success for a waiting SEND or MAGIC (R176, R202), else kept for the next read (R39, R244). -/
def execAck (s : State) : Host.Outcome State Fault Refusal := .next (peerSends [cfg.ack] s)

/-- NAK arrives: a resend or `RetryExhausted` for a waiting SEND (R177, R178), passed over by a waiting MAGIC
(R201), else kept for the next read (R39). -/
def execNak (s : State) : Host.Outcome State Fault Refusal := .next (peerSends [cfg.nak] s)

/-- STOP_LAST (R98): in `S_WRITE` it leaves as the last byte of the 70 when `OUT[69]` is 0x04. -/
def execStopLast (s : State) : Host.Outcome State Fault Refusal :=
  transferOut [cfg.stopLast]
    (decide (s.ph = .sWrite ∧ readByte .out (cfg.frameLen - 1) s = some cfg.stopLast)) sWrite s

/-- STOP_MORE (R98): in `S_WRITE` it leaves as the last byte of the 70 when `OUT[69]` is 0x06. -/
def execStopMore (s : State) : Host.Outcome State Fault Refusal :=
  transferOut [cfg.stopMore]
    (decide (s.ph = .sWrite ∧ readByte .out (cfg.frameLen - 1) s = some cfg.stopMore)) sWrite s

/-- MAGICSEQ (R106): in `M_WRITE` it is what MAGIC writes (R198). -/
def execMagicseq (s : State) : Host.Outcome State Fault Refusal :=
  transferOut cfg.magicSeq (decide (s.ph = .mWrite)) mWrite s

/-- INITBYTE (R107): the host writes 0x01, flushes and reads one answer, which `expectAck` then requires to be
ACK (R244). A failed write or flush ends the exchange without a read (log 18). -/
def execInitbyte (s : State) : Host.Outcome State Fault Refusal :=
  whenIdle s fun s =>
    let t := hostTransmit [cfg.initByte] { s with host := { s.host with lastRead := none } }
    .next (if t.host.lastAnswer = some .done then hostReceive t else t)

end Sys2Proof.Machine
end

