-- ==== Sys2Proof/Machine/Dispatch.lean ====
section
/-! DEFINITION. One arm per row of the opcode table. -/

namespace Sys2Proof.Machine

def exec (i : Instr) (s : State) : Host.Outcome State Fault Refusal :=
  match i with
  -- the CRC unit
  | .crcclr => Sys2Proof.Machine.execCrcclr s
  | .crcpush b => Sys2Proof.Machine.execCrcpush b s
  | .crc16 => Sys2Proof.Machine.execCrc16 s
  -- buffers and registers
  | .dclr => Sys2Proof.Machine.execDclr s
  | .dpush b => Sys2Proof.Machine.execDpush b s
  | .ocpy => Sys2Proof.Machine.execOcpy s
  | .ord i9 => Sys2Proof.Machine.execOrd i9 s
  | .rdreg r => Sys2Proof.Machine.execRdreg r s
  -- the encoders
  | .fenc idx rsv last => Sys2Proof.Machine.execFenc idx rsv last s
  | .penc addr ins => Sys2Proof.Machine.execPenc addr ins s
  -- the sequencers
  | .send maxr => Sys2Proof.Machine.execSend maxr s
  | .magic ivl maxWait => Sys2Proof.Machine.execMagic ivl maxWait s
  -- the pseudo-operations
  | .ping addr => Sys2Proof.Machine.execPing addr s
  | .reboot addr => Sys2Proof.Machine.execReboot addr s
  -- the wire rows
  | .frame idx rsv payload more => Sys2Proof.Machine.execFrame idx rsv payload more s
  | .cmdpkt addr ins params => Sys2Proof.Machine.execCmdpkt addr ins params s
  | .pingpkt addr => Sys2Proof.Machine.execPingpkt addr s
  | .rebootpkt addr => Sys2Proof.Machine.execRebootpkt addr s
  | .ack => Sys2Proof.Machine.execAck s
  | .nak => Sys2Proof.Machine.execNak s
  | .stopLast => Sys2Proof.Machine.execStopLast s
  | .stopMore => Sys2Proof.Machine.execStopMore s
  | .magicseq => Sys2Proof.Machine.execMagicseq s
  | .initbyte => Sys2Proof.Machine.execInitbyte s

end Sys2Proof.Machine
end

