-- ==== Sys2Proof/Machine/Ports.lean ====
section
/-! DEFINITION. What one step does: the running phase (R171, R196), or an input of the outside world, decoded
where it crosses a port (R90, R94, R39), or the host's own reading and reacting (R240, R244, R247). -/

namespace Sys2Proof.Machine

/-- CORE goes on: one stream primitive of the running operation, answered in this step; at `IDLE` it waits (R30,
R45). Whether and when a primitive answers is open (R66, R180, N5): one that does not answer yet, or never, is a run
of `wait` inputs, and that the stream answers when no such input comes is the model's choice (log 32). -/
def runPhase (s : State) : State :=
  match s.ph with
  | .idle => s
  | .sWrite => sWrite s
  | .sFlush => sFlush s
  | .sRead => sRead s
  | .mSetup => mSetup s
  | .mWrite => mWrite s
  | .mFlush => mFlush s
  | .mRead => mRead s
  | .mCheck => mCheck s

/-- The stream does not answer yet: CORE stays in its phase, and of a write under way some bytes may leave (R66,
R71). In `M_CHECK` and at `IDLE` CORE awaits no primitive and the block has no wait states (R282): it goes on as in a
quiet step (log 32). In `M_SETUP` the timeout setting has no answer and `STREAM.RTO` keeps its old value until it has, so
a reset then leaves the old value: R70 does not say which value is there meanwhile, and this is the model's choice
(log 38). -/
def waitPhase (n : Nat) (s : State) : State :=
  match s.ph with
  | .sWrite => sWriteWaits n s
  | .mWrite => writeUnderWay cfg.magicSeq n s
  | .sFlush | .sRead | .mSetup | .mFlush | .mRead => s
  | .idle | .mCheck => runPhase s

/-- A request at the operation port: the operation it selects, or a refusal (R94). -/
def runRequest (r : Request) (s : State) : Host.Outcome State Fault Refusal :=
  match decode (.request r) with
  | .ok i => exec i s
  | .error _ => .next (refuse s)

/-- Two requests in a row: a pseudo-operation (R109), or else one request after the other. -/
def runPair (r1 r2 : Request) (s : State) : Host.Outcome State Fault Refusal :=
  match decode (.pair r1 r2) with
  | .ok i => exec i s
  | .error _ => runRequest r1 { s with inputs := .host (.request r2) :: s.inputs }

/-- Bytes the host writes: a wire row, or bytes the table does not know (R77). -/
def runTransmit (l : List Byte) (s : State) : Host.Outcome State Fault Refusal :=
  match decode (.outbound l) with
  | .ok i => exec i s
  | .error _ => .next (hostTransmit l s)

/-- Bytes from the peer: a wire row, or bytes the table does not know (R39). -/
def runArrival (l : List Byte) (s : State) : Host.Outcome State Fault Refusal :=
  match decode (.inbound l) with
  | .ok i => exec i s
  | .error _ => .next (peerSends l s)

/-- An input that is no action of the host. -/
def Input.fromHost : Input → Bool
  | .host _ => true
  | .quiet | .reset | .wait _ | .peer _ | .group _ => false

/-- The host stops its session: it issues nothing further (R240, log 20), and what the session held is gone
(R236, R290). -/
def haltSession (s : State) : State :=
  { s with
    inputs := s.inputs.filter fun i => !i.fromHost
    host := { s.host with packet := [], scanning := none, session := none } }

/-- The host reports a status (R237, R240). -/
def hostReport (k : Status) (index : Option Byte) (s : State) : State :=
  { s with host := { s.host with report := some { status := k, index := index } } }

/-- The request RDREG r, the only host path to a register (R22, R228). -/
def rdregRequest (r : Byte) : Request := { op := 0x14, a := r }

/-- The host's last two actions after a failure: it reads `EIDX` (r8) and reports the status with it (R240, R22). -/
def failureReport (k : Status) : List Input := [.host (.request (rdregRequest 8)), .host (.reportIndex k)]

/-- The response to the last request decides: `OK` goes on, any other ends the session and is reported with `EIDX`
(R240). No response, because reset abandoned the operation (R46) or none was requested, is no `OK`: the session ends,
and there is no status to report. That is the model's choice, where the spec is silent (log 31). -/
def expectOk (s : State) : State :=
  match s.reply with
  | some r =>
      if r.status = .ok then s
      else
        let t := haltSession s
        { t with inputs := failureReport r.status ++ t.inputs }
  | none => haltSession s

/-- A failed write, flush or timeout setting of the host's own ends the session, without a status of CORE to report
(R251); that it counts among R251's errors is the model's choice (log 33). -/
def expectDone (s : State) : State :=
  if s.host.lastAnswer = some .ioError then haltSession s else s

/-- Exactly one 0x06 is required (R244). -/
def expectAck (s : State) : State :=
  if s.host.lastRead = some (.bytes [cfg.ack]) then s else haltSession s

/-- A scan begins with an empty result (R246). -/
def beginScan (s : State) : State := { s with host := { s.host with scanning := some [] } }

/-- Any successful non-empty read counts as a reply and adds the address to the scan under way; a timeout, an empty
read and a read error do not (R247). That the scan goes on after a read error is the model's choice, which N11 leaves
to the host (log 34). -/
def noteReply (addr : Byte) (s : State) : State :=
  match s.host.scanning, s.host.lastRead with
  | some found, some (.bytes (_ :: _)) => { s with host := { s.host with scanning := some (found ++ [addr]) } }
  | some _, some (.bytes []) | some _, some .timeout | some _, some .ioError | some _, none | none, _ => s

/-- The scan is complete: its result is returned and changes no more (R246, R250). -/
def endScan (s : State) : State :=
  match s.host.scanning with
  | some found =>
      { s with host := { s.host with scanning := none, discoveries := s.host.discoveries ++ [found] } }
  | none => s

/-- The `k`-th address, from 0, of the last completed scan. -/
def foundAddress (k : Nat) (s : State) : Option Byte := s.host.discoveries.getLast?.bind fun l => l[k]?

/-- REBOOT of an address the scanner found (R242); without one the session ends (log 20). -/
def rebootFound (k : Nat) (s : State) : Host.Outcome State Fault Refusal :=
  match foundAddress k s with
  | some addr => runPair dclrRequest (pencRequest addr cfg.insReboot) s
  | none => .next (haltSession s)

/-- The Transfer Session begins, `next_index` at 1 (R236). -/
def openSession (n : Nat) (s : State) : State :=
  { s with host := { s.host with session := some { total := n, nextIndex := 1, sent := 0 } } }

/-- FENC of the session's next chunk: index `next_index`, reserved byte 0, last iff it is chunk `total_chunks`
(R238). Without a session there is no transfer to go on with (log 20). -/
def fencChunk (s : State) : Host.Outcome State Fault Refusal :=
  match s.host.session with
  | some c => runRequest { op := 0x20, a := c.nextIndex, b := 0, c := flagByte (c.sent + 1 == c.total) } s
  | none => .next (haltSession s)

/-- A chunk was sent: `next_index` steps and wraps, and the session is destroyed when the file is exhausted
(R236). -/
def chunkSent (s : State) : State :=
  { s with
    host := { s.host with
      session := s.host.session.bind fun c =>
        if c.sent + 1 < c.total then some { c with nextIndex := c.nextIndex + 1, sent := c.sent + 1 } else none } }

/-- The byte the last response carries, if it is `OK` (R224, R228). -/
def replyByte (s : State) : Option Byte :=
  match s.reply with
  | some r => if r.status = .ok then some (r.val.extractLsb' 0 8) else none
  | none => none

/-- The byte of an ORD joins the packet being read out of `OUT` (R243). -/
def collect (s : State) : State :=
  { s with host := { s.host with packet := s.host.packet ++ (replyByte s).toList } }

/-- A new packet is read out (R243). -/
def clearPacket (s : State) : State := { s with host := { s.host with packet := [] } }

/-- One action of the host, at `PH = IDLE`. -/
def runHost (h : HostOp) (s : State) : Host.Outcome State Fault Refusal :=
  match h with
  | .request r => runRequest r s
  | .pair r1 r2 => runPair r1 r2 s
  | .transmit l => runTransmit l s
  | .clearPacket => .next (clearPacket s)
  | .collect => .next (collect s)
  | .transmitPacket => .next (hostTransmit s.host.packet s)
  | .receive => .next (hostReceive s)
  | .setTimeout t => .next (hostSetTimeout t s)
  | .expectOk => .next (expectOk s)
  | .expectDone => .next (expectDone s)
  | .expectAck => .next (expectAck s)
  | .beginScan => .next (beginScan s)
  | .noteReply addr => .next (noteReply addr s)
  | .endScan => .next (endScan s)
  | .rebootFound k => rebootFound k s
  | .openSession n => .next (openSession n s)
  | .fencChunk => fencChunk s
  | .chunkSent => .next (chunkSent s)
  | .report k => .next (hostReport k none s)
  | .reportIndex k => .next (hostReport k (replyByte s) s)

/-- The next input taken. While `PH ≠ IDLE` the host's actions wait and CORE goes on (R76); reset, the peer's
bytes and their grouping come in any phase (R46, R39, R69). -/
def takeInput (i : Input) (rest : List Input) (s : State) : Host.Outcome State Fault Refusal :=
  match i with
  | .quiet => .next (runPhase { s with inputs := rest })
  | .reset => .next (resetInput { s with inputs := rest })
  | .wait n => .next (waitPhase n { s with inputs := rest })
  | .peer l => runArrival l { s with inputs := rest }
  | .group n => .next (groupBytes n { s with inputs := rest })
  | .host h => if s.ph = .idle then runHost h { s with inputs := rest } else .next (runPhase s)

/-- Where a port word comes in. -/
def inputOf : PortWord → Input
  | .request r => .host (.request r)
  | .pair r1 r2 => .host (.pair r1 r2)
  | .outbound l => .host (.transmit l)
  | .inbound l => .peer l

/-- The phase in which an input is taken at the next step: the host's actions need `IDLE` (R76). -/
def phaseFor (i : Input) (s : State) : Phase := if i.fromHost then .idle else s.ph

end Sys2Proof.Machine
end

