-- ==== Sys2Proof/Machine/Step.lean ====
section
/-! DEFINITION. One step, and the placing of one instruction before it. -/

namespace Sys2Proof.Machine

/-- The next input is taken; without one CORE goes on with its phase (log 1). -/
def step (s : State) : Host.Outcome State Fault Refusal :=
  match s.inputs with
  | [] => .next (runPhase s)
  | i :: rest => takeInput i rest s

/-- The instruction with these bits presented next at the port it crosses (log 1, log 9, log 10). -/
def State.withFetchWord (s : State) (nbits w : Nat) : State :=
  { s with
    ph := phaseFor (inputOf (portWordOf nbits w)) s
    inputs := inputOf (portWordOf nbits w) :: s.inputs }

end Sys2Proof.Machine
end

