-- ==== Sys2Proof/Machine/HostSeq.lean ====
section
/-! DEFINITION. The host sequences that use the block, as lists of inputs (`46_host_sequences.md`): the firmware
transfer, the scan, the boot entry and the whole control flow. They bind the host, not CORE (R235). -/

namespace Sys2Proof.Machine

/-- An instruction issued at its port; an ill-formed term has no word and issues nothing. -/
def issue (i : Instr) : List Input :=
  match encode i with
  | some p => [inputOf p]
  | none => []

/-- DLOAD: DCLR, then one DPUSH a byte (R109). -/
def dload (l : List Byte) : List Input := issue .dclr ++ l.flatMap fun b => issue (.dpush b)

/-- `total_chunks` = ceil(len / 64) (R236, R238). -/
def totalChunks (image : List Byte) : Nat := (image.length + (cfg.payloadLen - 1)) / cfg.payloadLen

/-- The `j`-th chunk from 0, the last padded with 0xFF to 64 bytes (R238, R298). -/
def chunk (image : List Byte) (j : Nat) : List Byte :=
  let c := (image.drop (cfg.payloadLen * j)).take cfg.payloadLen
  c ++ List.replicate (cfg.payloadLen - c.length) cfg.fillByte

/-- A read timeout set by the host, for the phase that follows (R251). -/
def setTimeout (t : Ticks) : List Input := [.host (.setTimeout t), .host .expectDone]

/-- One byte read out of `OUT` with ORD (R224, R243). -/
def readOut (i : Nat) : List Input :=
  issue (.ord (BitVec.ofNat 9 i)) ++ [.host .expectOk, .host .collect]

/-- A packet of `n` bytes transmitted: `OUT[0..n-1]` read with ORD, then written by the host's path and flushed
(R243). -/
def transmitOut (n : Nat) : List Input :=
  [.host .clearPacket] ++ (List.range n).flatMap readOut ++ [.host .transmitPacket, .host .expectDone]

/-- The length of a ping and of a reboot packet (R160). -/
def shortPacketLen : Nat := 6

/-! ### The firmware transfer -/

/-- One chunk's operations: the payload, its frame, its transmission; any status but `OK` ends the transfer (R238,
R240). -/
def sendChunk (c : List Byte) : List Input :=
  dload c ++ [.host .fencChunk, .host .expectOk] ++ issue (.send cfg.retryBound) ++
    [.host .expectOk, .host .chunkSent]

/-- The orchestrator: an empty image is `InvalidInput` and issues nothing; else the read timeout of this phase, the
session, the chunks in order, and success reported after the last (R237, R238, R240, R251). -/
def transferProgram (rto : Ticks) (image : List Byte) : List Input :=
  if image = [] then [.host (.report .invalidInput)]
  else setTimeout rto ++ [.host (.openSession (totalChunks image))] ++
    (List.range (totalChunks image)).flatMap (fun j => sendChunk (chunk image j)) ++ [.host (.report .ok)]

/-! ### The scan -/

/-- One probe of the scan: PING, its packet transmitted, one read, the reply noted (R247). -/
def probe (addr : Byte) : List Input :=
  issue (.ping addr) ++ [.host .expectOk] ++ transmitOut shortPacketLen ++ [.host .receive, .host (.noteReply addr)]

/-- The addresses scanned, 0 to 253 ascending (R247, R249). -/
def scanAddresses : List Byte :=
  (List.range (cfg.scanLast + 1 - cfg.scanFirst)).map fun i => BitVec.ofNat 8 (cfg.scanFirst + i)

/-- The scanner: a short timeout, an empty result, the probes, a longer timeout restored, the result returned (R246
to R248, R250). -/
def scanProgram (short long : Ticks) : List Input :=
  setTimeout short ++ [.host .beginScan] ++ scanAddresses.flatMap probe ++ setTimeout long ++ [.host .endScan]

/-! ### Boot entry, and the whole control flow -/

/-- Where the target's address comes from: "directly or via the Scanner" (R242). -/
inductive Target where
  | address (a : Byte)
  /-- the `k`-th, from 0, of the last scan's result: which one is the caller's policy (R250) -/
  | found (k : Nat)
  deriving DecidableEq, Repr

/-- The reboot command encoded for the target (R242). -/
def Target.reboot : Target → List Input
  | .address a => issue (.reboot a)
  | .found k => [.host (.rebootFound k)]

/-- Boot entry: reboot command transmitted, the baud rate changed outside (log 27), the handshake, which sets its own
timeout, then the init byte and its ACK under the timeout MAGIC left unless the host sets another (R242 to R244,
R251). -/
def bootProgram (target : Target) (ivl : Ticks) (maxWait : Option Ticks) (initRto : Option Ticks) : List Input :=
  target.reboot ++ [.host .expectOk] ++ transmitOut shortPacketLen ++
    issue (.magic ivl maxWait) ++ [.host .expectOk] ++ (initRto.map setTimeout).getD [] ++
    issue .initbyte ++ [.host .expectAck]

/-- The control flow of R242: boot entry, then the handoff to the orchestrator. -/
def uploadProgram (target : Target) (ivl : Ticks) (maxWait initRto : Option Ticks) (rto : Ticks)
    (image : List Byte) : List Input :=
  bootProgram target ivl maxWait initRto ++ transferProgram rto image

/-- The control flow of R242 with the address obtained from the scanner. -/
def scanAndUploadProgram (short long : Ticks) (k : Nat) (ivl : Ticks) (maxWait initRto : Option Ticks) (rto : Ticks)
    (image : List Byte) : List Input :=
  scanProgram short long ++ uploadProgram (.found k) ivl maxWait initRto rto image

end Sys2Proof.Machine
end

