-- ==== Sys2Proof/Safety.lean ====
section
/-! DEFINITION. What a safe run is, in the terms the statements use: no step stops, and the invariant of the
block holds. -/

namespace Sys2Proof.Machine

/-- The step has a next state. -/
def Runs (s : State) : Prop := ∃ t, step s = .next t

/-- The response `(k, v)` is delivered and `STATUS` holds `k`; nothing else changes. -/
def answered (k : Status) (v : Half) (s : State) : State :=
  { s with
    status := k
    responses := s.responses ++ [{ status := k, val := v }]
    reply := some { status := k, val := v } }

/-- Nothing but the stream's side, the history, the environment's answers and the answer the host keeps differ. -/
def OnlyStreamDiffers (s t : State) : Prop :=
  t = { s with
    tx := t.tx, handed := t.handed, history := t.history, oracle := t.oracle
    host := { s.host with lastAnswer := t.host.lastAnswer } }

/-- A read answer the stream can give: at most `RXCAP` bytes (R69). -/
def ReadAnswer.Admissible (r : ReadAnswer) : Prop :=
  ∀ l, r = .bytes l → l.length ≤ Config.rxcapMore + 2

/-- The phases of SEND (R171). -/
def Phase.sending : Phase → Bool
  | .sWrite | .sFlush | .sRead => true
  | .idle | .mSetup | .mWrite | .mFlush | .mRead | .mCheck => false

/-- The phases of MAGIC's loop, after the setup (R196). -/
def Phase.looping : Phase → Bool
  | .mWrite | .mFlush | .mRead | .mCheck => true
  | .idle | .sWrite | .sFlush | .sRead | .mSetup => false

/-- Attempts: before a write at most `MAXR` were begun, from its begin on at least one and at most `MAXR + 1` (R173,
R177, R180). -/
def AttemptsOk (s : State) : Prop :=
  (s.ph = .sWrite → s.writing = none → s.att.toNat ≤ s.maxr.toNat) ∧
  (s.ph = .sWrite → s.writing ≠ none → 1 ≤ s.att.toNat ∧ s.att.toNat ≤ s.maxr.toNat + 1) ∧
  (s.ph = .sFlush ∨ s.ph = .sRead → 1 ≤ s.att.toNat ∧ s.att.toNat ≤ s.maxr.toNat + 1)

/-- A write under way: only in the two writing phases, and the bytes that have left are the first ones of what the
phase writes and the last ones of what was sent (R71, R73). -/
def WritingOk (s : State) : Prop :=
  ∀ k, s.writing = some k →
    (s.ph = .sWrite ∧ k ≤ s.out.length ∧ s.out.take k <:+ s.tx) ∨
    (s.ph = .mWrite ∧ k ≤ cfg.magicSeq.length ∧ cfg.magicSeq.take k <:+ s.tx)

/-- The order of the primitives: a flush follows CORE's write, a read follows CORE's flush (R74). -/
def OrderOk (s : State) : Prop :=
  (s.ph = .sFlush → s.history.getLast? = some { who := .core, deed := .write s.out .done }) ∧
  (s.ph = .mFlush → s.history.getLast? = some { who := .core, deed := .write cfg.magicSeq .done }) ∧
  (s.ph = .sRead ∨ s.ph = .mRead → s.history.getLast? = some { who := .core, deed := .flush .done })

/-- The invariant of the block: buffers within capacity (R31, R32), the window counter within the window and the
accumulator 0 before the first byte (R25, R24), a status CORE writes (R23), the frame in place while it is sent
(R172, R37), the attempts in bounds, the loop's clock and timeout (R41, R197), the flushed bytes among the sent, a
write under way only where CORE writes, no response while one is awaited (R90, R46), and the order of the
primitives. -/
structure Inv (s : State) : Prop where
  buffers : Memory.wf s
  window : s.cnt.toNat ≤ cfg.crcWindow
  fresh : s.cnt = 0 → s.acc = cfg.crcInit
  status : s.status ≠ .invalidInput
  frame : s.ph.sending = true → s.out.length = cfg.frameLen ∧ s.out.head? = some s.eidx
  attempts : AttemptsOk s
  loop : s.ph.looping = true → s.t0 ≤ s.clock ∧ s.rto = s.ivl
  flushed : s.handed ≤ s.tx.length
  writing : WritingOk s
  awaited : s.ph ≠ .idle → s.reply = none
  order : OrderOk s

end Sys2Proof.Machine
end

