-- ==== Sys2Proof/Certificates/Slice0/Obligations.lean ====
section
/-! DEFINITION. The statements for the provers. Unless it says otherwise a statement about an operation holds for
every state with `PH = IDLE`, where a request is accepted (R76); a record update says the result and the frame at
once: every field it does not name is unchanged. -/

open Sys2Proof Sys2Proof.Machine

/-! ### The CRC unit -/

/-- R121: the update, written with the top bit tested on the value before the shift. -/
def Obligations.CrcStepIsEightShiftRounds : Prop :=
  ∀ (acc : Half) (b : Byte),
    crcStep acc b =
      (fun x : Half => if x.msb then (x <<< 1) ^^^ 0x1021 else x <<< 1)^[8]
        (acc ^^^ (b.setWidth 16 <<< 8))

/-- R123. -/
def Obligations.CrcclrClearsAccumulator : Prop :=
  (∀ r : Request, r.op = 0x01 → decode (.request r) = .ok .crcclr) ∧
  ∀ s : State, s.ph = .idle →
    exec .crcclr s = .next (answered .ok 0 { s with acc := 0, cnt := 0 })

/-- R122 as CRCPUSH applies it: one byte absorbed while the window is not full, nothing afterwards, `OK` always. -/
def Obligations.CrcpushAbsorbsUntilWindowFull : Prop :=
  (∀ r : Request, r.op = 0x02 → decode (.request r) = .ok (.crcpush r.a)) ∧
  ∀ (s : State) (b : Byte), s.ph = .idle →
    (s.cnt.toNat < 64 →
      exec (.crcpush b) s = .next (answered .ok 0 { s with acc := crcStep s.acc b, cnt := s.cnt + 1 })) ∧
    (64 ≤ s.cnt.toNat → exec (.crcpush b) s = .next (answered .ok 0 s))

/-- R125: over the first 64 bytes of `DIN`, or refused. -/
def Obligations.Crc16ChecksumsDinOrRefuses : Prop :=
  (∀ r : Request, r.op = 0x03 → decode (.request r) = .ok .crc16) ∧
  ∀ s : State, s.ph = .idle →
    (64 ≤ s.din.length →
      exec .crc16 s =
        .next (answered .ok ((s.din.take 64).foldl crcStep 0)
          { s with acc := (s.din.take 64).foldl crcStep 0, cnt := 64 })) ∧
    (s.din.length < 64 → exec .crc16 s = .next (answered .operandError 0 s))

/-- R127: a checksum exists from 64 bytes on and ignores every byte past the 64th; shorter data has none (R128). -/
def Obligations.ChecksumIgnoresBytesPastWindow : Prop :=
  ∀ l m : List Byte, 64 ≤ l.length →
    (∃ k, crc16_64 l = some k) ∧ crc16_64 (l ++ m) = crc16_64 (l.take 64) ∧
      ∀ n, n < 64 → crc16_64 (l.take n) = none

/-- R125's derived sentence: CRC16 equals CRCCLR and then one CRCPUSH for each byte of `DIN`, run step by step. -/
def Obligations.StreamedPushesEqualCrc16 : Prop :=
  ∀ s : State, s.ph = .idle → 64 ≤ s.din.length →
    ∃ t u : State,
      Sys2Proof.core.run (s.din.length + 1)
          { s with inputs := issue .crcclr ++ s.din.flatMap fun b => issue (.crcpush b) } = .next t ∧
      exec .crc16 s = .next u ∧ t.acc = u.acc ∧ t.cnt = u.cnt ∧ t.din = u.din ∧ t.inputs = []

/-! ### Buffers and registers -/

/-- R221. -/
def Obligations.DclrEmptiesDin : Prop :=
  (∀ r : Request, r.op = 0x10 → decode (.request r) = .ok .dclr) ∧
  ∀ s : State, s.ph = .idle → exec .dclr s = .next (answered .ok 0 { s with din := [] })

/-- R222. -/
def Obligations.DpushAppendsOrRefusesWhenFull : Prop :=
  (∀ r : Request, r.op = 0x11 → decode (.request r) = .ok (.dpush r.a)) ∧
  ∀ (s : State) (b : Byte), s.ph = .idle →
    (s.din.length < 255 → exec (.dpush b) s = .next (answered .ok 0 { s with din := s.din ++ [b] })) ∧
    (255 ≤ s.din.length → exec (.dpush b) s = .next (answered .operandError 0 s))

/-- R223. -/
def Obligations.OcpyCopiesDinToOut : Prop :=
  (∀ r : Request, r.op = 0x12 → decode (.request r) = .ok .ocpy) ∧
  ∀ s : State, s.ph = .idle → exec .ocpy s = .next (answered .ok 0 { s with out := s.din })

/-- R224, with R93's index `{b[0], a[7:0]}`: its value is `a` plus 256 when `b[0]` is set, the other bits of `b`
ignored. -/
def Obligations.OrdReadsOutOrRefuses : Prop :=
  (∀ r : Request, r.op = 0x13 →
    ∃ i : BitVec 9, decode (.request r) = .ok (.ord i) ∧
      i.toNat = r.a.toNat + 256 * (r.b.toNat % 2)) ∧
  ∀ (s : State) (i : BitVec 9), s.ph = .idle →
    (∀ b, s.out[i.toNat]? = some b → exec (.ord i) s = .next (answered .ok (b.setWidth 16) s)) ∧
    (s.out.length ≤ i.toNat → exec (.ord i) s = .next (answered .operandError 0 s))

/-- R228 with the table of R22: the nine registers, each zero-extended, `STATUS` as it was before; the lengths are
those of buffers within capacity. -/
def Obligations.RdregReadsNineRegisters : Prop :=
  (∀ r : Request, r.op = 0x14 → decode (.request r) = .ok (.rdreg r.a)) ∧
  ∀ s : State, s.ph = .idle → Memory.wf s →
    (∀ (r : Byte) (v : Half),
      (r, v) ∈ ([(0, s.status.code.setWidth 16), (1, s.acc), (2, s.cnt.setWidth 16),
        (3, BitVec.ofNat 16 s.din.length), (4, BitVec.ofNat 16 s.out.length), (5, s.att.setWidth 16),
        (6, s.rxb.setWidth 16), (7, s.rxn.setWidth 16), (8, s.eidx.setWidth 16)] : List (Byte × Half)) →
      exec (.rdreg r) s = .next (answered .ok v s)) ∧
    (∀ r : Byte, 8 < r.toNat → exec (.rdreg r) s = .next (answered .operandError 0 s))

/-! ### The encoders -/

/-- R141: the 70 bytes, the checksum over the first 64 of them, and nothing else changed but the CRC engine's
registers; R142: refused unless `DLEN = 64`. -/
def Obligations.FencEncodesFrameOrRefuses : Prop :=
  (∀ r : Request, r.op = 0x20 → decode (.request r) = .ok (.fenc r.a r.b (r.c.getLsbD 0))) ∧
  ∀ (s : State) (idx rsv : Byte) (last : Bool), s.ph = .idle →
    (s.din.length = 64 →
      ∃ (k : Half) (f : List Byte),
        f = [idx, ~~~idx, rsv] ++ s.din ++
          [k.extractLsb' 8 8, k.extractLsb' 0 8, if last then 0x04 else 0x06] ∧
        k = (f.take 64).foldl crcStep 0 ∧
        exec (.fenc idx rsv last) s = .next (answered .ok k { s with out := f, acc := k, cnt := 64 })) ∧
    (s.din.length ≠ 64 → exec (.fenc idx rsv last) s = .next (answered .operandError 0 s))

/-- R143, for every accepted FENC. -/
def Obligations.EncodedFrameInvariants : Prop :=
  ∀ (s : State) (idx rsv : Byte) (last : Bool), s.ph = .idle → s.din.length = 64 →
    ∃ t : State, exec (.fenc idx rsv last) s = .next t ∧ t.out.length = 70 ∧
      (∃ a b, t.out[0]? = some a ∧ t.out[1]? = some b ∧ b = ~~~a ∧ a ^^^ b = 0xFF) ∧
      (t.out[69]? = some 0x04 ↔ last = true) ∧ (t.out[69]? = some 0x06 ↔ last = false)

/-- R144: payloads that agree on their first 61 bytes get the same checksum, whatever the last three bytes and the
last flag. -/
def Obligations.ChecksumIgnoresLastThreePayloadBytes : Prop :=
  ∀ (s s' : State) (idx rsv : Byte) (last last' : Bool),
    s.ph = .idle → s'.ph = .idle → s.din.length = 64 → s'.din.length = 64 →
    s.din.take 61 = s'.din.take 61 →
    ∃ t t' : State, exec (.fenc idx rsv last) s = .next t ∧ exec (.fenc idx rsv last') s' = .next t' ∧
      t.acc = t'.acc ∧ t.out[67]? = t'.out[67]? ∧ t.out[68]? = t'.out[68]?

/-- R156 and R157: the N + 6 bytes, the checksum the complement of the sum of offsets 2 to 4 + N; refused above 253
parameters. -/
def Obligations.PencEncodesPacketOrRefuses : Prop :=
  (∀ r : Request, r.op = 0x30 → decode (.request r) = .ok (.penc r.a r.b)) ∧
  ∀ (s : State) (addr ins : Byte), s.ph = .idle →
    (s.din.length ≤ 253 →
      ∃ body : List Byte, body = [addr, BitVec.ofNat 8 (s.din.length + 2), ins] ++ s.din ∧
        exec (.penc addr ins) s =
          .next (answered .ok 0
            { s with out := [0xFF, 0xFF] ++ body ++ [~~~(BitVec.ofNat 8 (body.map BitVec.toNat).sum)] })) ∧
    (253 < s.din.length → exec (.penc addr ins) s = .next (answered .operandError 0 s))

/-- R158: the bytes from the address to the checksum sum to 0xFF modulo 256. -/
def Obligations.PacketBytesSumToFF : Prop :=
  ∀ (s : State) (addr ins : Byte), s.ph = .idle → s.din.length ≤ 253 →
    ∃ t : State, exec (.penc addr ins) s = .next t ∧
      ((t.out.drop 2).map BitVec.toNat).sum % 256 = 0xFF ∧ t.out.length = s.din.length + 6

/-- R161: what PING and REBOOT leave, with the two responses of their two operations. -/
def Obligations.PingAndRebootLeavePackets : Prop :=
  ∀ (s : State) (addr : Byte), s.ph = .idle →
    exec (.ping addr) s =
      .next (answered .ok 0 (answered .ok 0
        { s with din := [], out := [0xFF, 0xFF, addr, 0x02, 0x01, ~~~(addr + 3)] })) ∧
    exec (.reboot addr) s =
      .next (answered .ok 0 (answered .ok 0
        { s with din := [], out := [0xFF, 0xFF, addr, 0x02, 0x08, ~~~(addr + 10)] }))

/-- R109: a pseudo-operation issued as one input and its two requests issued one after the other end in the same
state (that it is one step is the model's choice, log 12). -/
def Obligations.PseudoOperationEqualsItsTwoRequests : Prop :=
  ∀ (s : State) (addr ins : Byte) (r1 r2 : Request), s.ph = .idle → (ins = 0x01 ∨ ins = 0x08) →
    r1.op = 0x10 → r2.op = 0x30 → r2.a = addr → r2.b = ins →
    ∃ t : State,
      step { s with inputs := .host (.pair r1 r2) :: s.inputs } = .next t ∧
      Sys2Proof.core.run 2
        { s with inputs := .host (.request r1) :: .host (.request r2) :: s.inputs } = .next t

/-! ### SEND -/

/-- R172. The last two fields are the model's bookkeeping: no write has begun (log 35), and the response is awaited
(log 31). -/
def Obligations.SendLatchesOrRefuses : Prop :=
  (∀ r : Request, r.op = 0x40 → decode (.request r) = .ok (.send r.a)) ∧
  ∀ (s : State) (maxr : Byte), s.ph = .idle →
    (∀ b l, s.out = b :: l → s.out.length = 70 →
      exec (.send maxr) s =
        .next { s with maxr := maxr, att := 0, eidx := b, ph := .sWrite, writing := none, reply := none }) ∧
    (s.out.length ≠ 70 → exec (.send maxr) s = .next (answered .operandError 0 s))

/-- R173: the attempt is counted as its write begins, and the 70 bytes go out in one write; a failed write ends the
operation, and what had left stays sent. The peer may see a prefix of the write before the rest (R71): `k` bytes have
left already, and while the stream does not answer, up to `n` more leave. How many of the others left when the write
fails is open (R67, log 13); that a primitive answers unless a `wait` comes, and how a wait moves a write on, are the
model's choices (log 32, log 35), and so is that a write hands nothing to the link before the flush (log 37). -/
def Obligations.SendWritePhase : Prop :=
  ∀ (s : State) (a : BitVec 9) (k : Nat), s.ph = .sWrite → s.out.length = 70 →
    a = (if s.writing = none then s.att + 1 else s.att) → k = s.writing.getD 0 →
    (∀ rest, s.inputs = [] → s.oracle.writes = .done :: rest →
      step s = .next { s with
        att := a, ph := .sFlush, writing := none, tx := s.tx ++ s.out.drop k,
        history := s.history ++ [{ who := .core, deed := .write s.out .done }],
        oracle := { s.oracle with writes := rest } }) ∧
    (∀ rest, s.inputs = [] → s.oracle.writes = .ioError :: rest →
      ∃ n d : Nat,
        step s = .next (answered .streamError (a.setWidth 16) { s with
          att := a, ph := .idle, writing := none, tx := s.tx ++ (s.out.drop k).take n,
          history := s.history ++ [{ who := .core, deed := .write s.out .ioError }],
          oracle := { s.oracle with writes := rest, draws := d } })) ∧
    (∀ n rest, s.inputs = .wait n :: rest →
      step s = .next { s with
        att := a, inputs := rest, writing := some (min (k + n) 70), tx := s.tx ++ (s.out.drop k).take n })

/-- R174. How many of the waiting bytes a failed flush has handed over is open, within those that were sent (R68,
log 13); that the flush answers unless a `wait` comes (log 32), and that `handed` counts what flushes handed over alone
(log 37), are the model's choices. -/
def Obligations.SendFlushPhase : Prop :=
  ∀ (s : State) (rest : List Answer), s.ph = .sFlush → s.inputs = [] →
    (s.oracle.flushes = .done :: rest →
      step s = .next { s with
        ph := .sRead, handed := s.tx.length,
        history := s.history ++ [{ who := .core, deed := .flush .done }],
        oracle := { s.oracle with flushes := rest } }) ∧
    (s.oracle.flushes = .ioError :: rest →
      ∃ n d : Nat, s.handed ≤ n ∧ (s.handed ≤ s.tx.length → n ≤ s.tx.length) ∧
        step s = .next (answered .streamError (s.att.setWidth 16) { s with
          ph := .idle, handed := n,
          history := s.history ++ [{ who := .core, deed := .flush .ioError }],
          oracle := { s.oracle with flushes := rest, draws := d } }))

/-- R175 to R179: the answer classified by kind, then count, then value. Time may pass while the read waits. -/
def Obligations.SendReadPhase : Prop :=
  ∀ (s : State) (r : ReadAnswer) (rest : List ReadAnswer),
    s.ph = .sRead → s.inputs = [] → s.oracle.reads = r :: rest → ReadAnswer.Admissible r →
    ∃ (c : Nat) (u : State), s.clock ≤ c ∧
      u = { s with
        clock := c,
        history := s.history ++ [{ who := .core, deed := .read r }],
        oracle := { s.oracle with reads := rest } } ∧
      (r = .timeout → step s = .next (answered .timeout (s.att.setWidth 16) { u with rxn := 0, ph := .idle })) ∧
      (r = .ioError → step s = .next (answered .streamError (s.att.setWidth 16) { u with rxn := 0, ph := .idle })) ∧
      (r = .bytes [] → step s = .next (answered .framingError (s.att.setWidth 16) { u with rxn := 0, ph := .idle })) ∧
      (∀ x y l, r = .bytes (x :: y :: l) →
        step s = .next (answered .framingError (s.att.setWidth 16)
          { u with rxn := BitVec.ofNat 8 (min (l.length + 2) 255), rxb := x, ph := .idle })) ∧
      (r = .bytes [0x06] →
        step s = .next (answered .ok (s.att.setWidth 16) { u with rxn := 1, rxb := 0x06, ph := .idle })) ∧
      (r = .bytes [0x15] → s.att.toNat ≤ s.maxr.toNat →
        step s = .next { u with rxn := 1, rxb := 0x15, ph := .sWrite }) ∧
      (r = .bytes [0x15] → s.maxr.toNat < s.att.toNat →
        step s = .next (answered .retryExhausted (s.att.setWidth 16)
          { u with rxn := 1, rxb := 0x15, ph := .idle })) ∧
      (∀ x, r = .bytes [x] → x ≠ 0x06 → x ≠ 0x15 →
        step s = .next (answered .unexpectedResponse (s.att.setWidth 16)
          { u with rxn := 1, rxb := x, ph := .idle }))

/-- The events of one attempt answered with the single byte `x`. -/
def attemptEvents (f : List Byte) (x : Byte) : List Event :=
  [{ who := .core, deed := .write f .done }, { who := .core, deed := .flush .done },
    { who := .core, deed := .read (.bytes [x]) }]

/-- R181: NAK exactly `k` times, then ACK: success iff `k ≤ max_retries` with attempt count `k + 1`, else
`RetryExhausted` with `max_retries + 1`, the answers after it never read; every transmission carries the same 70
bytes (R37). That this takes 3n + 1 steps rests on the model's granularity (log 25), and that each primitive answers
at once on there being no `wait` input (log 32). -/
def Obligations.SendNakThenAckProperty : Prop :=
  ∀ (s : State) (maxr : Byte) (k n : Nat) (ws fs : List Answer) (rest : List ReadAnswer),
    s.ph = .idle → s.out.length = 70 → n = min k maxr.toNat + 1 →
    s.oracle.writes = List.replicate n .done ++ ws →
    s.oracle.flushes = List.replicate n .done ++ fs →
    s.oracle.reads = List.replicate k (.bytes [0x15]) ++ .bytes [0x06] :: rest →
    ∃ t : State,
      Sys2Proof.core.run (3 * n + 1) { s with inputs := issue (.send maxr) } = .next t ∧
      t.ph = .idle ∧ t.out = s.out ∧ t.att.toNat = n ∧
      (k ≤ maxr.toNat →
        t.status = .ok ∧ n = k + 1 ∧
        t.responses = s.responses ++ [{ status := .ok, val := BitVec.ofNat 16 (k + 1) }] ∧
        t.history = s.history ++ (List.replicate k (attemptEvents s.out 0x15)).flatten ++
          attemptEvents s.out 0x06 ∧
        t.oracle.reads = rest) ∧
      (maxr.toNat < k →
        t.status = .retryExhausted ∧ n = maxr.toNat + 1 ∧
        t.responses = s.responses ++
          [{ status := .retryExhausted, val := BitVec.ofNat 16 (maxr.toNat + 1) }] ∧
        t.history = s.history ++ (List.replicate n (attemptEvents s.out 0x15)).flatten ∧
        t.oracle.reads = List.replicate (k - n) (.bytes [0x15]) ++ .bytes [0x06] :: rest)

/-- R180: once accepted, SEND is back at `IDLE` within `MAXR + 1` rounds of its three phases, whatever the stream
answers; `b` is the number of attempts with the one whose write is under way. R180's condition, that the stream keeps
answering, is that no `wait` input comes (log 32); a round is three steps by log 25. -/
def Obligations.SendCompletesWithinBound : Prop :=
  ∀ (s : State) (b : Nat), s.ph = .sWrite → s.inputs = [] →
    b = (if s.writing = none then s.att.toNat + 1 else s.att.toNat) → b ≤ s.maxr.toNat + 1 →
    ∃ (n : Nat) (t : State), n ≤ 3 * (s.maxr.toNat + 2 - b) ∧
      Sys2Proof.core.run n s = .next t ∧ t.ph = .idle ∧ t.att.toNat ≤ s.maxr.toNat + 1

/-- R171's "Not written", R37: no step of a running SEND but reset changes the buffers, the CRC registers, the
latched bound or the stream's timeout, and the frame index stays. -/
def Obligations.SendStepsKeepFrame : Prop :=
  ∀ s t : State, s.ph.sending = true → s.inputs.head? ≠ some .reset → step s = .next t →
    t.out = s.out ∧ t.din = s.din ∧ t.acc = s.acc ∧ t.cnt = s.cnt ∧ t.rto = s.rto ∧ t.maxr = s.maxr ∧
      t.eidx = s.eidx ∧ t.ivl = s.ivl ∧ t.bnd = s.bnd ∧ t.maxw = s.maxw ∧ t.t0 = s.t0

/-! ### MAGIC -/

/-- R196, R211: MAGIC is never refused; its operands are latched and `PH <- M_SETUP`. That an absent max_wait leaves
`MAXW` as it was is the model's reading (log 11); the last two fields are the model's bookkeeping: no write has begun
(log 35), and the response is awaited (log 31). -/
def Obligations.MagicLatchesOperands : Prop :=
  (∀ r : Request, r.op = 0x50 →
    decode (.request r) = .ok (.magic r.t0 (if r.c.getLsbD 0 then some r.t1 else none))) ∧
  ∀ (s : State) (ivl maxw : Ticks), s.ph = .idle →
    exec (.magic ivl (some maxw)) s =
      .next { s with ivl := ivl, bnd := true, maxw := maxw, ph := .mSetup, writing := none, reply := none } ∧
    exec (.magic ivl none) s =
      .next { s with ivl := ivl, bnd := false, ph := .mSetup, writing := none, reply := none }

/-- R197: the timeout is set, then the clock is read; on `IoError` nothing is written and the clock is not read. That
the timeout is set on `IoError` too is the model's reading (log 14). -/
def Obligations.MagicSetupPhase : Prop :=
  ∀ (s : State) (rest : List Answer), s.ph = .mSetup → s.inputs = [] →
    (∀ n ns, s.oracle.sets = .done :: rest → s.oracle.ticks = n :: ns →
      step s = .next { s with
        rto := s.ivl, clock := s.clock + n, t0 := s.clock + n, ph := .mWrite,
        history := s.history ++ [{ who := .core, deed := .setTimeout s.ivl .done }],
        oracle := { s.oracle with sets := rest, ticks := ns } }) ∧
    (s.oracle.sets = .ioError :: rest →
      step s = .next (answered .streamError 0 { s with
        rto := s.ivl, ph := .idle,
        history := s.history ++ [{ who := .core, deed := .setTimeout s.ivl .ioError }],
        oracle := { s.oracle with sets := rest } }))

/-- R198 and R199: the five bytes in one write, then a flush; a failure of either ends the operation. The peer may see
a prefix of the write before the rest (R71): `k` bytes have left already. How many of the others left when the write
fails (R67), and how many bytes a failed flush handed over (R68), is open (log 13); the `wait` inputs (log 32, log 35),
and that only a flush hands bytes to the link (log 37), are the model's. -/
def Obligations.MagicWriteAndFlushPhases : Prop :=
  ∀ (s : State) (rest : List Answer) (m : List Byte) (k : Nat),
    m = [0x31, 0x66, 0x42, 0x56, 0x41] → k = s.writing.getD 0 →
    (s.ph = .mWrite → s.inputs = [] → s.oracle.writes = .done :: rest →
      step s = .next { s with
        ph := .mFlush, writing := none, tx := s.tx ++ m.drop k,
        history := s.history ++ [{ who := .core, deed := .write m .done }],
        oracle := { s.oracle with writes := rest } }) ∧
    (s.ph = .mWrite → s.inputs = [] → s.oracle.writes = .ioError :: rest →
      ∃ n d : Nat, step s = .next (answered .streamError 0 { s with
        ph := .idle, writing := none, tx := s.tx ++ (m.drop k).take n,
        history := s.history ++ [{ who := .core, deed := .write m .ioError }],
        oracle := { s.oracle with writes := rest, draws := d } })) ∧
    (∀ n is, s.ph = .mWrite → s.inputs = .wait n :: is →
      step s = .next { s with
        inputs := is, writing := some (min (k + n) 5), tx := s.tx ++ (m.drop k).take n }) ∧
    (s.ph = .mFlush → s.inputs = [] → s.oracle.flushes = .done :: rest →
      step s = .next { s with
        ph := .mRead, handed := s.tx.length,
        history := s.history ++ [{ who := .core, deed := .flush .done }],
        oracle := { s.oracle with flushes := rest } }) ∧
    (s.ph = .mFlush → s.inputs = [] → s.oracle.flushes = .ioError :: rest →
      ∃ n d : Nat, s.handed ≤ n ∧ (s.handed ≤ s.tx.length → n ≤ s.tx.length) ∧
        step s = .next (answered .streamError 0 { s with
          ph := .idle, handed := n,
          history := s.history ++ [{ who := .core, deed := .flush .ioError }],
          oracle := { s.oracle with flushes := rest, draws := d } }))

/-- R200 to R204: exactly the single byte 0x06 succeeds; a timeout emits one `Progress`; `IoError` is fatal; any
other bytes are passed over without an event. Time may pass while the read waits. -/
def Obligations.MagicReadPhase : Prop :=
  ∀ (s : State) (r : ReadAnswer) (rest : List ReadAnswer),
    s.ph = .mRead → s.inputs = [] → s.oracle.reads = r :: rest → ReadAnswer.Admissible r →
    ∃ (c : Nat) (u : State), s.clock ≤ c ∧
      u = { s with
        clock := c,
        history := s.history ++ [{ who := .core, deed := .read r }],
        oracle := { s.oracle with reads := rest } } ∧
      (r = .bytes [0x06] → step s = .next (answered .ok 0 { u with rxn := 1, rxb := 0x06, ph := .idle })) ∧
      (r = .timeout →
        step s = .next { u with
          rxn := 0, ph := .mCheck, history := u.history ++ [{ who := .core, deed := .progress }] }) ∧
      (r = .ioError → step s = .next (answered .streamError 0 { u with rxn := 0, ph := .idle })) ∧
      (r = .bytes [] → step s = .next { u with rxn := 0, ph := .mCheck }) ∧
      (∀ x l, r = .bytes (x :: l) → r ≠ .bytes [0x06] →
        step s = .next { u with
          rxn := BitVec.ofNat 8 (min (l.length + 1) 255), rxb := x, ph := .mCheck })

/-- R205: the deadline is tested once an iteration, after the read; the clock is read only when a deadline was
given. -/
def Obligations.MagicCheckPhase : Prop :=
  ∀ (s : State) (n : Nat) (ns : List Nat), s.ph = .mCheck → s.inputs = [] →
    (s.bnd = false → step s = .next { s with ph := .mWrite }) ∧
    (s.bnd = true → s.oracle.ticks = n :: ns → s.maxw.toNat ≤ s.clock + n - s.t0 →
      step s = .next (answered .timeout 0 { s with
        clock := s.clock + n, ph := .idle, oracle := { s.oracle with ticks := ns } })) ∧
    (s.bnd = true → s.oracle.ticks = n :: ns → s.clock + n - s.t0 < s.maxw.toNat →
      step s = .next { s with clock := s.clock + n, ph := .mWrite, oracle := { s.oracle with ticks := ns } })

/-- The events of one iteration whose read timed out. -/
def timedOutEvents : List Event :=
  [{ who := .core, deed := .write cfg.magicSeq .done }, { who := .core, deed := .flush .done },
    { who := .core, deed := .read .timeout }, { who := .core, deed := .progress }]

/-- R208: timeout `n` times, then 0x06, with no deadline or with one the `n` deadline tests do not meet (`ds` is what
the clock adds before each of them, beside the `n` timed-out reads): success after `n + 1` writes and `n` progress
signals. The number of steps rests on log 25, the answers coming at once on log 32. -/
def Obligations.MagicSucceedsAfterTimeouts : Prop :=
  ∀ (s : State) (ivl : Ticks) (mw : Option Ticks) (n : Nat) (ws fs ss : List Answer) (rest : List ReadAnswer),
    s.ph = .idle →
    (mw = none ∨ ∃ (w : Ticks) (d : Nat) (ds ts : List Nat), mw = some w ∧ s.oracle.ticks = d :: ds ++ ts ∧
      ds.length = n ∧ n * ivl.toNat + ds.sum < w.toNat) →
    s.oracle.sets = .done :: ss →
    s.oracle.writes = List.replicate (n + 1) .done ++ ws →
    s.oracle.flushes = List.replicate (n + 1) .done ++ fs →
    s.oracle.reads = List.replicate n .timeout ++ .bytes [0x06] :: rest →
    ∃ t : State,
      Sys2Proof.core.run (4 * n + 5) { s with inputs := issue (.magic ivl mw) } = .next t ∧
      t.ph = .idle ∧ t.status = .ok ∧
      t.responses = s.responses ++ [{ status := .ok, val := 0 }] ∧ t.rto = ivl ∧
      t.rxb = 0x06 ∧ t.rxn = 1 ∧
      t.history = s.history ++ [{ who := .core, deed := .setTimeout ivl .done }] ++
        (List.replicate n timedOutEvents).flatten ++ attemptEvents cfg.magicSeq 0x06

/-- R207 (b): with a deadline, a positive interval and a peer that only times out, MAGIC ends with `Timeout` within
ceil(MAXW / IVL) iterations, one when `MAXW = 0`, whatever the clock adds. An iteration is four steps by log 25, and
the answers come at once by log 32. -/
def Obligations.BoundedMagicTimesOut : Prop :=
  ∀ (s : State) (n : Nat) (ws fs : List Answer) (rest : List ReadAnswer),
    s.ph = .mWrite → s.inputs = [] → s.bnd = true → 0 < s.ivl.toNat → s.rto = s.ivl → s.t0 ≤ s.clock →
    n = max 1 ((s.maxw.toNat + s.ivl.toNat - 1) / s.ivl.toNat) →
    s.oracle.writes = List.replicate n .done ++ ws →
    s.oracle.flushes = List.replicate n .done ++ fs →
    s.oracle.reads = List.replicate n .timeout ++ rest →
    ∃ (j : Nat) (t : State), 1 ≤ j ∧ j ≤ n ∧
      Sys2Proof.core.run (4 * j) s = .next t ∧ t.ph = .idle ∧ t.status = .timeout ∧
      t.responses = s.responses ++ [{ status := .timeout, val := 0 }] ∧
      t.history = s.history ++ (List.replicate j timedOutEvents).flatten

/-- R206: without a deadline the loop is left only by an ACK, by an `IoError`, or by reset. -/
def Obligations.UnboundedMagicLeavesOnlyOnAckOrError : Prop :=
  ∀ s t : State, s.ph.looping = true → s.bnd = false → s.inputs.head? ≠ some .reset →
    step s = .next t → t.ph.looping = false →
    t.ph = .idle ∧
    ((t.status = .ok ∧ t.history.getLast? = some { who := .core, deed := .read (.bytes [0x06]) }) ∨
      (t.status = .streamError ∧ ∃ l,
        t.history.getLast? = some { who := .core, deed := .write l .ioError } ∨
        t.history.getLast? = some { who := .core, deed := .flush .ioError } ∨
        t.history.getLast? = some { who := .core, deed := .read .ioError }))

/-- R196's "Not written": no step of a running MAGIC but reset changes the buffers, the CRC registers, `ATT` or
`EIDX`, and the latched operands stay. -/
def Obligations.MagicStepsKeepBuffers : Prop :=
  ∀ s t : State, (s.ph = .mSetup ∨ s.ph.looping = true) → s.inputs.head? ≠ some .reset → step s = .next t →
    t.att = s.att ∧ t.eidx = s.eidx ∧ t.din = s.din ∧ t.out = s.out ∧ t.acc = s.acc ∧ t.cnt = s.cnt ∧
      t.ivl = s.ivl ∧ t.bnd = s.bnd ∧ t.maxw = s.maxw ∧ t.maxr = s.maxr

/-! ### The wire rows -/

/-- FRAME, CMDPKT, PINGPKT, REBOOTPKT, STOP_LAST, STOP_MORE and MAGICSEQ at `PH = IDLE`: the host, which owns the
stream then (R77), writes the row's bytes and flushes; nothing but the stream's side changes. That this transfer is
the row's meaning, and that the host keeps the answer, are the model's choices (log 7, log 33). -/
def Obligations.HostTransfersWireRows : Prop :=
  ∀ (i : Instr) (l : List Byte) (s : State), encode i = some (.outbound l) → i ≠ .initbyte → s.ph = .idle →
    (∃ t : State, exec i s = .next t ∧ OnlyStreamDiffers s t) ∧
    (∀ ws fs, s.oracle.writes = .done :: ws → s.oracle.flushes = .done :: fs →
      exec i s = .next { s with
        tx := s.tx ++ l, handed := (s.tx ++ l).length,
        history := s.history ++
          [{ who := .host, deed := .write l .done }, { who := .host, deed := .flush .done }],
        oracle := { s.oracle with writes := ws, flushes := fs },
        host := { s.host with lastAnswer := some .done } })

/-- In `S_WRITE` and `M_WRITE` the rows CORE sends are what its phase writes (R173, R198, R98): executing the row is
the step itself; in another phase CORE writes none of them. The reading of the rows and the fault
are the model's choices (log 7, log 19). -/
def Obligations.CoreEmitsWireRowsInItsPhases : Prop :=
  ∀ s : State, s.inputs = [] →
    (∀ idx rsv p more, encode (.frame idx rsv p more) = some (.outbound s.out) → s.ph = .sWrite →
      exec (.frame idx rsv p more) s = step s) ∧
    (s.ph = .sWrite → s.out[69]? = some 0x04 → exec .stopLast s = step s) ∧
    (s.ph = .sWrite → s.out[69]? = some 0x06 → exec .stopMore s = step s) ∧
    (s.ph = .mWrite → exec .magicseq s = step s) ∧
    (s.ph = .sFlush ∨ s.ph = .sRead ∨ s.ph = .mSetup ∨ s.ph = .mFlush ∨ s.ph = .mRead ∨ s.ph = .mCheck →
      exec .stopLast s = .fault .notEmitted ∧ exec .stopMore s = .fault .notEmitted ∧
      exec .magicseq s = .fault .notEmitted ∧
      ∀ idx rsv p more, p.length = 64 → exec (.frame idx rsv p more) s = .fault .notEmitted)

/-- ACK and NAK arriving while no read waits stay in the stream, after what is already there (R39); arriving at a
waiting read they are its answer: R176, R202; R177, R178, R201. Where earlier answers stand unread in `S_READ` or
`M_READ`, the read takes the oldest of them, as the phase's own step does, and the new byte joins the end (R39). The
stream can put the first unread bytes together for its next read, from any number of arrivals, or split an arrival: no
byte is lost and none changes its place (R39, R69); so two stale bytes are a `FramingError` for SEND (R302). That
executing ACK or NAK is the byte's arrival (log 7), that arrivals stay apart unless a `group` input comes, and its form
(log 8), are the model's choices. -/
def Obligations.AckAndNakArrivals : Prop :=
  (∀ s : State, s.ph ≠ .sRead → s.ph ≠ .mRead →
    exec .ack s = .next { s with oracle := { s.oracle with reads := s.oracle.reads ++ [.bytes [0x06]] } } ∧
    exec .nak s = .next { s with oracle := { s.oracle with reads := s.oracle.reads ++ [.bytes [0x15]] } }) ∧
  (∀ s : State, s.oracle.reads = [] →
    (s.ph = .sRead →
      exec .ack s = .next (answered .ok (s.att.setWidth 16) { s with
        rxn := 1, rxb := 0x06, ph := .idle,
        history := s.history ++ [{ who := .core, deed := .read (.bytes [0x06]) }] }) ∧
      (s.att.toNat ≤ s.maxr.toNat →
        exec .nak s = .next { s with
          rxn := 1, rxb := 0x15, ph := .sWrite,
          history := s.history ++ [{ who := .core, deed := .read (.bytes [0x15]) }] }) ∧
      (s.maxr.toNat < s.att.toNat →
        exec .nak s = .next (answered .retryExhausted (s.att.setWidth 16) { s with
          rxn := 1, rxb := 0x15, ph := .idle,
          history := s.history ++ [{ who := .core, deed := .read (.bytes [0x15]) }] }))) ∧
    (s.ph = .mRead →
      exec .ack s = .next (answered .ok 0 { s with
        rxn := 1, rxb := 0x06, ph := .idle,
        history := s.history ++ [{ who := .core, deed := .read (.bytes [0x06]) }] }) ∧
      exec .nak s = .next { s with
        rxn := 1, rxb := 0x15, ph := .mCheck,
        history := s.history ++ [{ who := .core, deed := .read (.bytes [0x15]) }] })) ∧
  (∀ (s : State) (r : ReadAnswer) (rest : List ReadAnswer) (i : Instr) (x : Byte),
    (i, x) ∈ [(Instr.ack, (0x06 : Byte)), (.nak, 0x15)] → s.ph = .sRead ∨ s.ph = .mRead →
    s.oracle.reads = r :: rest → ReadAnswer.Admissible r →
    ∃ (t : State) (es : List Event), exec i s = .next t ∧ t.inputs = s.inputs ∧
      t.oracle.reads = rest ++ [.bytes [x]] ∧
      t.history = s.history ++ { who := .core, deed := .read r } :: es ∧
      step { s with inputs := [], oracle := { s.oracle with reads := s.oracle.reads ++ [.bytes [x]] } } =
        .next { t with inputs := [] }) ∧
  (∀ (s : State) (n : Nat) (is : List Input), s.inputs = .group n :: is →
    ∃ rs : List ReadAnswer,
      step s = .next { s with inputs := is, oracle := { s.oracle with reads := rs } } ∧
      unreadBytes rs = unreadBytes s.oracle.reads ∧
      ∀ l : List (List Byte), s.oracle.reads = l.map ReadAnswer.bytes → [] ∉ l → l ≠ [] → 0 < n →
        rs.head? = some (.bytes (l.flatten.take n))) ∧
  (∀ (s : State) (x y : Byte) (more : List ReadAnswer) (is : List Input), s.ph = .sRead →
    s.oracle.reads = .bytes [x] :: .bytes [y] :: more → s.inputs = .group 2 :: .quiet :: is →
    ∃ t : State, step s = .next t ∧
      step t = .next (answered .framingError (s.att.setWidth 16) { s with
        rxn := 2, rxb := x, ph := .idle, inputs := is, oracle := { s.oracle with reads := more },
        history := s.history ++ [{ who := .core, deed := .read (.bytes [x, y]) }] }))

/-- R244: the host writes 0x01, flushes and reads; `expectAck` then goes on exactly on 0x06. That INITBYTE is the
whole exchange, and how the host stops, are the model's choices (log 18, log 20). -/
def Obligations.InitbyteExchange : Prop :=
  ∀ (s : State) (ws fs : List Answer) (r : ReadAnswer) (rest : List ReadAnswer),
    s.ph = .idle → s.oracle.writes = .done :: ws → s.oracle.flushes = .done :: fs →
    s.oracle.reads = r :: rest → ReadAnswer.Admissible r →
    ∃ t : State,
      t = { s with
        tx := s.tx ++ [0x01], handed := s.tx.length + 1,
        clock := s.clock + (if r = .timeout then s.rto.toNat else 0),
        history := s.history ++
          [{ who := .host, deed := .write [0x01] .done }, { who := .host, deed := .flush .done },
            { who := .host, deed := .read r }],
        oracle := { s.oracle with writes := ws, flushes := fs, reads := rest },
        host := { s.host with lastRead := some r, lastAnswer := some .done } } ∧
      exec .initbyte s = .next t ∧
      (r = .bytes [0x06] → expectAck t = t) ∧
      (r ≠ .bytes [0x06] → (expectAck t).inputs.all (fun i => !i.fromHost) = true)

/-! ### The machine -/

/-- A step runs the instruction its next input decodes to: requests (R90), pseudo-operations (R109), bytes the host
writes, bytes from the peer; the input is consumed and nothing else is added around `exec`. The list of inputs is the
model's (log 1). -/
def Obligations.StepRunsTheDecodedInstruction : Prop :=
  ∀ (s : State) (p : PortWord) (i : Instr) (rest : List Input), decode p = .ok i →
    s.inputs = inputOf p :: rest → ((inputOf p).fromHost = true → s.ph = .idle) →
    step s = exec i { s with inputs := rest }

/-- R94: every value of `op` outside the twelve codes is refused and changes nothing but `STATUS`. -/
def Obligations.UnassignedOpIsRefused : Prop :=
  ∀ (s : State) (r : Request) (rest : List Input), s.ph = .idle → s.inputs = .host (.request r) :: rest →
    r.op ∉ ([0x01, 0x02, 0x03, 0x10, 0x11, 0x12, 0x13, 0x14, 0x20, 0x30, 0x40, 0x50] : List Byte) →
    step s = .next (answered .operandError 0 { s with inputs := rest })

/-- R76: while `PH ≠ IDLE` the host has no step: its next action waits and CORE goes on as if nothing had come; and
none of its operations or packets can be executed, which the model says by a fault (log 19). R66: a primitive blocks
the operation until the stream answers: while it does not (a `wait` input, log 32), CORE stays in its phase, performs
no event and delivers no response, and outside the two writing phases nothing changes at all (in `M_SETUP` so the old
timeout stays, the model's choice, log 38). `M_CHECK` awaits none of
the four primitives, and the block has no wait states (R282): a wait there is CORE's own step. -/
def Obligations.HostIsHeldWhileBusy : Prop :=
  ∀ (s : State), s.ph ≠ .idle →
    (∀ (h : HostOp) (rest : List Input), s.inputs = .host h :: rest →
      ∃ t : State, step s = .next t ∧ t.inputs = s.inputs ∧ t.host = s.host ∧
        step { s with inputs := [] } = .next { t with inputs := [] }) ∧
    (∀ (n : Nat) (rest : List Input), s.inputs = .wait n :: rest →
      (s.ph ≠ .mCheck →
        ∃ t : State, step s = .next t ∧ t.ph = s.ph ∧ t.inputs = rest ∧ t.history = s.history ∧
          t.responses = s.responses ∧ t.oracle = s.oracle ∧ t.host = s.host) ∧
      (s.ph ≠ .sWrite → s.ph ≠ .mWrite → s.ph ≠ .mCheck → step s = .next { s with inputs := rest }) ∧
      (s.ph = .mCheck →
        ∃ t : State, step s = .next t ∧ t.inputs = rest ∧
          step { s with inputs := [] } = .next { t with inputs := [] })) ∧
    (∀ (b r idx rsv addr ins maxr : Byte) (i9 : BitVec 9) (last : Bool) (ivl : Ticks) (mw : Option Ticks),
      ∀ i ∈ ([.crcclr, .crcpush b, .crc16, .dclr, .dpush b, .ocpy, .ord i9, .rdreg r, .fenc idx rsv last,
        .penc addr ins, .send maxr, .magic ivl mw, .ping addr, .reboot addr, .pingpkt addr, .rebootpkt addr,
        .initbyte] : List Instr), exec i s = .fault .hostHeld)

/-- R45: every register R45 gives a value. -/
def Obligations.ResetStateMatchesSpec : Prop :=
  State.reset.status.code = 0x00 ∧ State.reset.acc = 0x0000 ∧ State.reset.cnt = 0 ∧
    State.reset.dlen = 0 ∧ State.reset.olen = 0 ∧ State.reset.att = 0 ∧ State.reset.rxb = 0x00 ∧
    State.reset.rxn = 0 ∧ State.reset.eidx = 0x00 ∧ State.reset.ph = .idle ∧
    (∀ sp i, readByte sp i State.reset = none) ∧ State.reset.history = []

/-- R46 and R291: reset in any phase puts CORE in its reset state, delivers no response, and leaves the stream, the
clock and the history alone; bytes of a write under way that have left stay sent. `State.reset` gives `MAXR`, `IVL`,
`BND`, `MAXW` and `T0`, which R45 leaves unspecified, the model's values (log 3); which of the environment's fields
reset leaves, and that a response awaited then never comes, are the model's too (log 4, log 31). -/
def Obligations.ResetAbandonsInAnyPhase : Prop :=
  ∀ (s : State) (rest : List Input), s.inputs = .reset :: rest →
    step s = .next { State.reset with
      rto := s.rto, clock := s.clock, tx := s.tx, handed := s.handed, history := s.history,
      responses := s.responses, reply := s.reply, oracle := s.oracle, inputs := rest, host := s.host }

/-- The invariant of the block is kept by every step, from every state that meets it. -/
def Obligations.StepKeepsInvariant : Prop :=
  ∀ s t : State, Inv s → step s = .next t → Inv t

/-- The state after reset meets the invariant. -/
def Obligations.ResetMeetsInvariant : Prop := Inv State.reset

/-- Decoding an encoded well-formed instruction gives it back, for all 24 rows and every operand. -/
def Obligations.DecodeOfEncodeIsIdentity : Prop :=
  ∀ i : Instr, i.wellFormed = true → ∃ p, encode i = some p ∧ decode p = .ok i

/-- No step stops: every state, reachable or not, has a next state (errors are statuses, R266, R272). -/
def Obligations.EveryStateHasANextStep : Prop := ∀ s : State, Runs s

/-- R183 and R211: the phase moves along the listed transitions only. -/
def Obligations.PhaseMovesAlongListedTransitions : Prop :=
  ∀ s t : State, step s = .next t → s.inputs.head? ≠ some .reset → s.ph ≠ t.ph →
    (s.ph, t.ph) ∈ ([(.idle, .sWrite), (.sWrite, .sFlush), (.sFlush, .sRead), (.sRead, .sWrite),
      (.sWrite, .idle), (.sFlush, .idle), (.sRead, .idle),
      (.idle, .mSetup), (.mSetup, .mWrite), (.mWrite, .mFlush), (.mFlush, .mRead), (.mRead, .mCheck),
      (.mCheck, .mWrite), (.mRead, .idle), (.mSetup, .idle), (.mWrite, .idle), (.mFlush, .idle),
      (.mCheck, .idle)] : List (Phase × Phase))

/-- R264: which operation can end with which status. The one-step operations by `exec`; SEND and MAGIC by the step
that brings them back to `IDLE`, which is the step that delivers their one response. -/
def Obligations.StatusKindsPerOperation : Prop :=
  (∀ (s : State) (b : Byte), s.ph = .idle → ∀ i ∈ ([.crcclr, .crcpush b, .dclr, .ocpy] : List Instr),
    ∃ t v, exec i s = .next t ∧ t.status = .ok ∧ t.responses = s.responses ++ [{ status := .ok, val := v }]) ∧
  (∀ (s : State) (b idx rsv addr ins : Byte) (i9 : BitVec 9) (last : Bool), s.ph = .idle →
    ∀ i ∈ ([.crc16, .fenc idx rsv last, .penc addr ins, .dpush b, .ord i9, .rdreg b] : List Instr),
      ∃ t v, exec i s = .next t ∧ t.responses = s.responses ++ [{ status := t.status, val := v }] ∧
        (t.status = .ok ∨ (t.status = .operandError ∧ v = 0))) ∧
  (∀ s t : State, s.ph ≠ .idle → s.inputs.head? ≠ some .reset → step s = .next t → t.ph = .idle →
    ∃ v, t.responses = s.responses ++ [{ status := t.status, val := v }] ∧
    (s.ph.sending = true → v = t.att.setWidth 16 ∧
      t.status ∈ [.ok, .timeout, .unexpectedResponse, .retryExhausted, .framingError, .streamError]) ∧
    (s.ph.sending = false → v = 0 ∧ t.status ∈ [.ok, .timeout, .streamError]))

/-- R22's "written by" column for `ACC` and `CNT`, R306: only CRCCLR, CRCPUSH, CRC16 and FENC write them. -/
def Obligations.OnlyCrcOperationsWriteCrcRegisters : Prop :=
  ∀ (i : Instr) (s t : State), exec i s = .next t →
    (∀ b, i ≠ .crcpush b) → (∀ a r l, i ≠ .fenc a r l) → i ≠ .crcclr → i ≠ .crc16 →
    t.acc = s.acc ∧ t.cnt = s.cnt

/-- R60 (1) and (2), R31, R32: `DIN` is written by DCLR and DPUSH alone, `OUT` by FENC, PENC and OCPY alone (PING and
REBOOT issue DCLR and PENC). -/
def Obligations.OnlyListedOperationsWriteBuffers : Prop :=
  ∀ (i : Instr) (s t : State), exec i s = .next t → (∀ a, i ≠ .ping a) → (∀ a, i ≠ .reboot a) →
    (i ≠ .dclr → (∀ b, i ≠ .dpush b) → ∀ k, readByte .din k t = readByte .din k s) ∧
    (i ≠ .ocpy → (∀ a k, i ≠ .penc a k) → (∀ a r l, i ≠ .fenc a r l) →
      ∀ k, readByte .out k t = readByte .out k s)

/-- R22's "written by" column and R307: a request or wire row executed at `PH = IDLE` leaves `RXB`, `RXN` and `T0`
alone; only SEND changes `ATT`, `EIDX` and `MAXR`, and only MAGIC changes `IVL`, `BND` and `MAXW`. -/
def Obligations.OnlySequencersWriteTheirRegisters : Prop :=
  ∀ (i : Instr) (s t : State), s.ph = .idle → exec i s = .next t →
    t.rxb = s.rxb ∧ t.rxn = s.rxn ∧ t.t0 = s.t0 ∧
    ((∀ m, i ≠ .send m) → t.att = s.att ∧ t.eidx = s.eidx ∧ t.maxr = s.maxr) ∧
    ((∀ n w, i ≠ .magic n w) → t.ivl = s.ivl ∧ t.bnd = s.bnd ∧ t.maxw = s.maxw)

/-- R72: CORE never reads the event history: two states that differ in it alone step alike, appending the same
events. -/
def Obligations.HistoryIsNeverRead : Prop :=
  ∀ (s t : State) (h : List Event), step s = .next t →
    ∃ l : List Event, t.history = s.history ++ l ∧
      step { s with history := h } = .next { t with history := h ++ l }

/-- R77: the host's events are made while `PH = IDLE`, CORE's while `PH ≠ IDLE`. -/
def Obligations.StreamHasOneOwner : Prop :=
  ∀ s t : State, step s = .next t →
    ∃ l : List Event, t.history = s.history ++ l ∧
      ∀ e ∈ l, (e.who = .host ↔ s.ph = .idle)

/-- R41 and R207: the clock never goes back, and a step whose read timed out takes at least `STREAM.RTO`. -/
def Obligations.ClockNeverGoesBack : Prop :=
  ∀ s t : State, step s = .next t →
    s.clock ≤ t.clock ∧
    ∀ (l m : List Event) (w : Owner),
      t.history = s.history ++ l ++ { who := w, deed := .read .timeout } :: m →
      s.clock + s.rto.toNat ≤ t.clock

/-- Words written out from the table of R92 and the layouts of R100, R105 to R107: what they decode to. The numbering
of table words is the model's (log 10). -/
def Obligations.KnownWordsDecode : Prop :=
  decode (.request { op := 0x13, a := 0x01, b := 0xFF }) = .ok (.ord 257) ∧
  decode (.request { op := 0x20, a := 0x05, b := 0x00, c := 0x02 }) = .ok (.fenc 0x05 0x00 false) ∧
  decode (.request { op := 0x50, c := 0x01, t0 := 0x64, t1 := 0xFA }) = .ok (.magic 100 (some 250)) ∧
  decodeTableWord 32 0x10300101 = some (.ping 0x01) ∧
  decodeTableWord 32 0x10300108 = some (.reboot 0x01) ∧
  decodeTableWord 48 0xFFFF010201FB = some (.pingpkt 0x01) ∧
  decodeTableWord 48 0xFFFF010208F4 = some (.rebootpkt 0x01) ∧
  decode (.outbound [0xFF, 0xFF, 0x05, 0x05, 0x03, 0x1E, 0x00, 0x02, 0xD2]) =
    .ok (.cmdpkt 0x05 0x03 [0x1E, 0x00, 0x02]) ∧
  decodeTableWord 40 0x3166425641 = some .magicseq ∧
  decode (.inbound [0x06]) = .ok .ack ∧ decode (.inbound [0x15]) = .ok .nak ∧
  decode (.outbound [0x04]) = .ok .stopLast ∧ decode (.outbound [0x06]) = .ok .stopMore ∧
  decode (.outbound [0x01]) = .ok .initbyte

/-! ### The host sequences -/

/-- R236 and R238: ceil(len / 64) chunks of exactly 64 bytes which together begin with the image and go on with 0xFF;
the transfer opens a session for them and issues, for each in order, DCLR, its 64 DPUSHes, the session's FENC and
SEND 5; the session's FENC has index `next_index`, reserved byte 0, and is last exactly on the final chunk;
`next_index` starts at 1, steps once per chunk sent and wraps, so that chunk i has index i mod 256 (R239); the session
is destroyed after the last. The checks between the requests, the timeout set first (R251), and that the session counts
the chunks sent are the model's forms (log 20, log 36). -/
def Obligations.TransferChunksTheImage : Prop :=
  (∀ (rto : Ticks) (image : List Byte), image ≠ [] →
    image.length ≤ 64 * totalChunks image ∧ 64 * totalChunks image < image.length + 64 ∧
    (∀ j, j < totalChunks image → (chunk image j).length = 64) ∧
    (List.range (totalChunks image)).flatMap (chunk image) =
      image ++ List.replicate (64 * totalChunks image - image.length) 0xFF ∧
    transferProgram rto image =
      [.host (.setTimeout rto), .host .expectDone, .host (.openSession (totalChunks image))] ++
      ((List.range (totalChunks image)).flatMap fun j =>
        .host (.request { op := 0x10 }) ::
          ((chunk image j).map fun b => Input.host (.request { op := 0x11, a := b })) ++
          [.host .fencChunk, .host .expectOk, .host (.request { op := 0x40, a := 5 }), .host .expectOk,
            .host .chunkSent]) ++
      [.host (.report .ok)]) ∧
  ∀ (s : State) (rest : List Input), s.ph = .idle →
    (∀ n, s.inputs = .host (.openSession n) :: rest →
      step s = .next { s with
        inputs := rest, host := { s.host with session := some { total := n, nextIndex := 1, sent := 0 } } }) ∧
    (∀ c : Session, s.host.session = some c → s.inputs = .host .fencChunk :: rest →
      step s = exec (.fenc c.nextIndex 0 (decide (c.sent + 1 = c.total))) { s with inputs := rest }) ∧
    (∀ c : Session, s.host.session = some c → s.inputs = .host .chunkSent :: rest →
      step s = .next { s with
        inputs := rest
        host := { s.host with
          session := if c.sent + 1 < c.total then
            some { total := c.total, nextIndex := c.nextIndex + 1, sent := c.sent + 1 } else none } })

/-- The frame of the chunk `j`, from 0, of an image (R238, R239, R96, R97): index (j + 1) mod 256, reserved byte 0,
marker 0x04 on the final chunk. -/
def transferredFrame (image : List Byte) (j : Nat) : List Byte :=
  let head := [BitVec.ofNat 8 (j + 1), ~~~(BitVec.ofNat 8 (j + 1)), 0x00] ++ chunk image j
  let k : Half := (head.take 64).foldl crcStep 0
  head ++ [k.extractLsb' 8 8, k.extractLsb' 0 8, if j + 1 = totalChunks image then 0x04 else 0x06]

/-- R238 to R241 as one run: with every write, flush and the timeout setting answered `Done` and every frame
acknowledged, the transfer sends exactly the frames of the image's chunks, in order, reports success and has destroyed
its session. The number of steps rests on log 25, the answers coming at once on log 32. -/
def Obligations.TransferSendsTheImage : Prop :=
  ∀ (s : State) (rto : Ticks) (image : List Byte) (n : Nat) (ws fs ss : List Answer) (rest : List ReadAnswer),
    s.ph = .idle → image ≠ [] → n = totalChunks image → s.inputs = transferProgram rto image →
    s.oracle.sets = .done :: ss →
    s.oracle.writes = List.replicate n .done ++ ws →
    s.oracle.flushes = List.replicate n .done ++ fs →
    s.oracle.reads = List.replicate n (.bytes [0x06]) ++ rest →
    ∃ t : State,
      Sys2Proof.core.run (73 * n + 4) s = .next t ∧ t.ph = .idle ∧ t.inputs = [] ∧
      t.tx = s.tx ++ (List.range n).flatMap (transferredFrame image) ∧ t.handed = t.tx.length ∧
      t.host.session = none ∧ t.host.report = some { status := .ok, index := none } ∧
      t.rto = rto ∧ t.oracle.reads = rest

/-- R247 and R249: the scan probes 0 to 253, each exactly once, in ascending order, never 254. R246 and R250: its
result begins empty, an address joins it exactly after a read that returned at least one byte, it is returned when the
scan ends, and no step ever changes a result that was returned. That the scan goes on after a read error is the
model's choice (log 34). -/
def Obligations.ScanProbesEachAddressOnce : Prop :=
  scanAddresses.map BitVec.toNat = List.range 254 ∧ (0xFE : Byte) ∉ scanAddresses ∧
  (∀ short long : Ticks,
    (scanProgram short long).filterMap (fun i => match i with
      | .host (.pair _ r) => some (r.op, r.a, r.b)
      | _ => none) = (List.range 254).map fun n => (0x30, BitVec.ofNat 8 n, 0x01)) ∧
  (∀ (s : State) (rest : List Input), s.ph = .idle →
    (s.inputs = .host .beginScan :: rest →
      step s = .next { s with inputs := rest, host := { s.host with scanning := some [] } }) ∧
    (∀ addr found b l, s.inputs = .host (.noteReply addr) :: rest → s.host.scanning = some found →
      s.host.lastRead = some (.bytes (b :: l)) →
      step s = .next { s with inputs := rest, host := { s.host with scanning := some (found ++ [addr]) } }) ∧
    (∀ addr, s.inputs = .host (.noteReply addr) :: rest →
      (s.host.scanning = none ∨ ∀ b l, s.host.lastRead ≠ some (.bytes (b :: l))) →
      step s = .next { s with inputs := rest }) ∧
    (∀ found, s.inputs = .host .endScan :: rest → s.host.scanning = some found →
      step s = .next { s with
        inputs := rest
        host := { s.host with scanning := none, discoveries := s.host.discoveries ++ [found] } })) ∧
  ∀ s t : State, step s = .next t → s.host.discoveries <+: t.host.discoveries

/-- R240: after an `OK` the host goes on; after any other status it issues nothing further for its session, reads
`EIDX` by RDREG, the only path to a register (R22), and reports that status with it. With no response, because reset
abandoned the operation (R46), it stops without a report: the model's choice (log 31). Reset, waits, quiet steps and
the peer's bytes still come (log 20). -/
def Obligations.FirstFailureEndsTheSession : Prop :=
  ∀ (s : State) (rest : List Input), s.ph = .idle → s.inputs = .host .expectOk :: rest →
    (∀ v, s.reply = some { status := .ok, val := v } → step s = .next { s with inputs := rest }) ∧
    (∀ k v, s.reply = some { status := k, val := v } → k ≠ .ok →
      ∃ t : State, Sys2Proof.core.run 3 s = .next t ∧
        t.host.report = some { status := k, index := some s.eidx } ∧ t.host.session = none ∧
        t.inputs = (rest.filter fun i => !i.fromHost) ∧
        t.responses = s.responses ++ [{ status := .ok, val := s.eidx.setWidth 16 }] ∧
        t.tx = s.tx ∧ t.history = s.history ∧ t.out = s.out ∧ t.eidx = s.eidx) ∧
    (s.reply = none →
      step s = .next { s with
        inputs := rest.filter fun i => !i.fromHost
        host := { s.host with packet := [], scanning := none, session := none } })
end

