-- ==== Sys2Proof/Laws/Config.lean ====
section
/-! SUPPORT. The values of the configuration record, as rewriting rules. -/

namespace Sys2Proof

@[simp] theorem cfg_crcWidth : cfg.crcWidth = (16 : Nat) := rfl

/-- The type of the accumulator has the width the record gives. -/
theorem half_is_crcWidth : Half = BitVec cfg.crcWidth := rfl

@[simp] theorem cfg_crcWindow : cfg.crcWindow = (64 : Nat) := rfl

@[simp] theorem cfg_crcInit : cfg.crcInit = (0x0000 : Half) := rfl

@[simp] theorem cfg_crcPoly : cfg.crcPoly = (0x1021 : Half) := rfl

@[simp] theorem cfg_frameLen : cfg.frameLen = (70 : Nat) := rfl

@[simp] theorem cfg_payloadLen : cfg.payloadLen = (64 : Nat) := rfl

@[simp] theorem cfg_stopLast : cfg.stopLast = (0x04 : Byte) := rfl

@[simp] theorem cfg_stopMore : cfg.stopMore = (0x06 : Byte) := rfl

@[simp] theorem cfg_ack : cfg.ack = (0x06 : Byte) := rfl

@[simp] theorem cfg_nak : cfg.nak = (0x15 : Byte) := rfl

@[simp] theorem cfg_pktLead : cfg.pktLead = (0xFF : Byte) := rfl

@[simp] theorem cfg_insPing : cfg.insPing = (0x01 : Byte) := rfl

@[simp] theorem cfg_insReboot : cfg.insReboot = (0x08 : Byte) := rfl

@[simp] theorem cfg_addrUnicastMax : cfg.addrUnicastMax = (253 : Nat) := rfl

@[simp] theorem cfg_addrBroadcast : cfg.addrBroadcast = (254 : Nat) := rfl

@[simp] theorem cfg_magicSeq : cfg.magicSeq = ([0x31, 0x66, 0x42, 0x56, 0x41] : List Byte) := rfl

@[simp] theorem cfg_initByte : cfg.initByte = (0x01 : Byte) := rfl

@[simp] theorem cfg_fillByte : cfg.fillByte = (0xFF : Byte) := rfl

@[simp] theorem cfg_retryBound : cfg.retryBound = (5 : Byte) := rfl

@[simp] theorem cfg_scanFirst : cfg.scanFirst = (0 : Nat) := rfl

@[simp] theorem cfg_scanLast : cfg.scanLast = (253 : Nat) := rfl

@[simp] theorem cfg_dinCap : cfg.dinCap = (255 : Nat) := rfl

@[simp] theorem cfg_outCap : cfg.outCap = (259 : Nat) := rfl

@[simp] theorem cfg_paramMax : cfg.paramMax = (253 : Nat) := rfl

end Sys2Proof
end

