-- ==== Sys2Proof/Laws/Codec.lean ====
section
/-! SUPPORT. The encoders' functions, one lemma per case: when each has a value, which one, and how long. -/

namespace Sys2Proof.Machine

/-! ### The checksum -/

/-- From 64 bytes on there is a checksum, over the first 64. -/
theorem crc16_64_of_le {l : List Byte} (h : 64 ≤ l.length) :
    crc16_64 l = some ((l.take 64).foldl crcStep 0) := by
  simp [crc16_64, h]

/-- Shorter data has none. -/
theorem crc16_64_of_lt {l : List Byte} (h : l.length < 64) : crc16_64 l = none := by
  have : ¬ 64 ≤ l.length := by omega
  simp [crc16_64, this]

/-- Only the first 64 bytes count. -/
theorem crc16_64_append {l m : List Byte} (h : 64 ≤ l.length) : crc16_64 (l ++ m) = crc16_64 l := by
  have h2 : 64 ≤ (l ++ m).length := by simp; omega
  rw [crc16_64_of_le h, crc16_64_of_le h2, List.take_append_of_le_length h]

/-! ### Frames -/

@[simp] theorem frameHead_length (idx rsv : Byte) (p : List Byte) :
    (frameHead idx rsv p).length = p.length + 3 := rfl

/-- The checksum of a frame. -/
def frameCrc (idx rsv : Byte) (p : List Byte) : Half := ((frameHead idx rsv p).take 64).foldl crcStep 0

/-- A payload of 64 bytes is encoded. -/
theorem encodeFrame_of_length {p : List Byte} (h : p.length = 64) (idx rsv : Byte) (last : Bool) :
    encodeFrame idx rsv p last =
      some (frameCrc idx rsv p, frameHead idx rsv p ++
        [hiByte (frameCrc idx rsv p), loByte (frameCrc idx rsv p), stopMarker last]) := by
  have : 64 ≤ (frameHead idx rsv p).length := by simp; omega
  simp [encodeFrame, h, crc16_64_of_le this, frameCrc]

/-- Any other payload is not. -/
theorem encodeFrame_of_ne {p : List Byte} (h : p.length ≠ 64) (idx rsv : Byte) (last : Bool) :
    encodeFrame idx rsv p last = none := by
  simp [encodeFrame, h]

/-- A frame is 70 bytes. -/
theorem encodeFrame_length {idx rsv : Byte} {p : List Byte} {last : Bool} {k : Half} {f : List Byte}
    (h : encodeFrame idx rsv p last = some (k, f)) : f.length = 70 := by
  by_cases hp : p.length = 64
  · simp [encodeFrame_of_length hp] at h
    rw [← h.2]; simp [hp]
  · simp [encodeFrame_of_ne hp] at h

/-! ### Packets -/

/-- The byte sum is the sum of the values, modulo 256. -/
theorem byteSum_eq (l : List Byte) : byteSum l = BitVec.ofNat 8 (l.map BitVec.toNat).sum := by
  induction l with
  | nil => rfl
  | cons b l ih =>
    have : byteSum (b :: l) = b + byteSum l := by simp [byteSum]
    rw [this, ih]
    apply BitVec.eq_of_toNat_eq
    simp

/-- At most 253 parameters are encoded. -/
theorem encodePacket_of_le {q : List Byte} (h : q.length ≤ 253) (addr ins : Byte) :
    encodePacket addr ins q =
      some (0xFF :: 0xFF :: (packetBody addr ins q ++ [~~~byteSum (packetBody addr ins q)])) := by
  simp [encodePacket, h]

/-- More are not. -/
theorem encodePacket_of_gt {q : List Byte} (h : 253 < q.length) (addr ins : Byte) :
    encodePacket addr ins q = none := by
  have : ¬ q.length ≤ 253 := by omega
  simp [encodePacket, this]

/-- A packet is N + 6 bytes. -/
theorem encodePacket_length {addr ins : Byte} {q l : List Byte} (h : encodePacket addr ins q = some l) :
    l.length = q.length + 6 := by
  by_cases hq : q.length ≤ 253
  · simp [encodePacket_of_le hq] at h
    rw [← h]; simp [packetBody]
  · simp [encodePacket_of_gt (by omega : 253 < q.length)] at h

end Sys2Proof.Machine
end

