-- ==== Sys2Proof/Laws/State.lean ====
section
/-! SUPPORT. The fields of a state after each named update, one lemma a field, true by unfolding the update once:
no later proof unfolds a record update. -/

namespace Sys2Proof.Machine

/-! ### `setCrc` -/

@[simp] theorem setCrc_status (k : Half) (n : BitVec 7) (s : State) :
    (setCrc k n s).status = s.status := rfl
@[simp] theorem setCrc_acc (k : Half) (n : BitVec 7) (s : State) :
    (setCrc k n s).acc = k := rfl
@[simp] theorem setCrc_cnt (k : Half) (n : BitVec 7) (s : State) :
    (setCrc k n s).cnt = n := rfl
@[simp] theorem setCrc_din (k : Half) (n : BitVec 7) (s : State) :
    (setCrc k n s).din = s.din := rfl
@[simp] theorem setCrc_out (k : Half) (n : BitVec 7) (s : State) :
    (setCrc k n s).out = s.out := rfl
@[simp] theorem setCrc_att (k : Half) (n : BitVec 7) (s : State) :
    (setCrc k n s).att = s.att := rfl
@[simp] theorem setCrc_rxb (k : Half) (n : BitVec 7) (s : State) :
    (setCrc k n s).rxb = s.rxb := rfl
@[simp] theorem setCrc_rxn (k : Half) (n : BitVec 7) (s : State) :
    (setCrc k n s).rxn = s.rxn := rfl
@[simp] theorem setCrc_eidx (k : Half) (n : BitVec 7) (s : State) :
    (setCrc k n s).eidx = s.eidx := rfl
@[simp] theorem setCrc_ph (k : Half) (n : BitVec 7) (s : State) :
    (setCrc k n s).ph = s.ph := rfl
@[simp] theorem setCrc_maxr (k : Half) (n : BitVec 7) (s : State) :
    (setCrc k n s).maxr = s.maxr := rfl
@[simp] theorem setCrc_ivl (k : Half) (n : BitVec 7) (s : State) :
    (setCrc k n s).ivl = s.ivl := rfl
@[simp] theorem setCrc_bnd (k : Half) (n : BitVec 7) (s : State) :
    (setCrc k n s).bnd = s.bnd := rfl
@[simp] theorem setCrc_maxw (k : Half) (n : BitVec 7) (s : State) :
    (setCrc k n s).maxw = s.maxw := rfl
@[simp] theorem setCrc_t0 (k : Half) (n : BitVec 7) (s : State) :
    (setCrc k n s).t0 = s.t0 := rfl
@[simp] theorem setCrc_rto (k : Half) (n : BitVec 7) (s : State) :
    (setCrc k n s).rto = s.rto := rfl
@[simp] theorem setCrc_clock (k : Half) (n : BitVec 7) (s : State) :
    (setCrc k n s).clock = s.clock := rfl
@[simp] theorem setCrc_tx (k : Half) (n : BitVec 7) (s : State) :
    (setCrc k n s).tx = s.tx := rfl
@[simp] theorem setCrc_writing (k : Half) (n : BitVec 7) (s : State) :
    (setCrc k n s).writing = s.writing := rfl
@[simp] theorem setCrc_handed (k : Half) (n : BitVec 7) (s : State) :
    (setCrc k n s).handed = s.handed := rfl
@[simp] theorem setCrc_history (k : Half) (n : BitVec 7) (s : State) :
    (setCrc k n s).history = s.history := rfl
@[simp] theorem setCrc_responses (k : Half) (n : BitVec 7) (s : State) :
    (setCrc k n s).responses = s.responses := rfl
@[simp] theorem setCrc_reply (k : Half) (n : BitVec 7) (s : State) :
    (setCrc k n s).reply = s.reply := rfl
@[simp] theorem setCrc_oracle (k : Half) (n : BitVec 7) (s : State) :
    (setCrc k n s).oracle = s.oracle := rfl
@[simp] theorem setCrc_inputs (k : Half) (n : BitVec 7) (s : State) :
    (setCrc k n s).inputs = s.inputs := rfl
@[simp] theorem setCrc_host (k : Half) (n : BitVec 7) (s : State) :
    (setCrc k n s).host = s.host := rfl

/-! ### `writeOut` -/

@[simp] theorem writeOut_status (l : List Byte) (s : State) :
    (writeOut l s).status = s.status := rfl
@[simp] theorem writeOut_acc (l : List Byte) (s : State) :
    (writeOut l s).acc = s.acc := rfl
@[simp] theorem writeOut_cnt (l : List Byte) (s : State) :
    (writeOut l s).cnt = s.cnt := rfl
@[simp] theorem writeOut_din (l : List Byte) (s : State) :
    (writeOut l s).din = s.din := rfl
@[simp] theorem writeOut_out (l : List Byte) (s : State) :
    (writeOut l s).out = l := rfl
@[simp] theorem writeOut_att (l : List Byte) (s : State) :
    (writeOut l s).att = s.att := rfl
@[simp] theorem writeOut_rxb (l : List Byte) (s : State) :
    (writeOut l s).rxb = s.rxb := rfl
@[simp] theorem writeOut_rxn (l : List Byte) (s : State) :
    (writeOut l s).rxn = s.rxn := rfl
@[simp] theorem writeOut_eidx (l : List Byte) (s : State) :
    (writeOut l s).eidx = s.eidx := rfl
@[simp] theorem writeOut_ph (l : List Byte) (s : State) :
    (writeOut l s).ph = s.ph := rfl
@[simp] theorem writeOut_maxr (l : List Byte) (s : State) :
    (writeOut l s).maxr = s.maxr := rfl
@[simp] theorem writeOut_ivl (l : List Byte) (s : State) :
    (writeOut l s).ivl = s.ivl := rfl
@[simp] theorem writeOut_bnd (l : List Byte) (s : State) :
    (writeOut l s).bnd = s.bnd := rfl
@[simp] theorem writeOut_maxw (l : List Byte) (s : State) :
    (writeOut l s).maxw = s.maxw := rfl
@[simp] theorem writeOut_t0 (l : List Byte) (s : State) :
    (writeOut l s).t0 = s.t0 := rfl
@[simp] theorem writeOut_rto (l : List Byte) (s : State) :
    (writeOut l s).rto = s.rto := rfl
@[simp] theorem writeOut_clock (l : List Byte) (s : State) :
    (writeOut l s).clock = s.clock := rfl
@[simp] theorem writeOut_tx (l : List Byte) (s : State) :
    (writeOut l s).tx = s.tx := rfl
@[simp] theorem writeOut_writing (l : List Byte) (s : State) :
    (writeOut l s).writing = s.writing := rfl
@[simp] theorem writeOut_handed (l : List Byte) (s : State) :
    (writeOut l s).handed = s.handed := rfl
@[simp] theorem writeOut_history (l : List Byte) (s : State) :
    (writeOut l s).history = s.history := rfl
@[simp] theorem writeOut_responses (l : List Byte) (s : State) :
    (writeOut l s).responses = s.responses := rfl
@[simp] theorem writeOut_reply (l : List Byte) (s : State) :
    (writeOut l s).reply = s.reply := rfl
@[simp] theorem writeOut_oracle (l : List Byte) (s : State) :
    (writeOut l s).oracle = s.oracle := rfl
@[simp] theorem writeOut_inputs (l : List Byte) (s : State) :
    (writeOut l s).inputs = s.inputs := rfl
@[simp] theorem writeOut_host (l : List Byte) (s : State) :
    (writeOut l s).host = s.host := rfl

/-! ### `appendDin` -/

@[simp] theorem appendDin_status (b : Byte) (s : State) :
    (appendDin b s).status = s.status := rfl
@[simp] theorem appendDin_acc (b : Byte) (s : State) :
    (appendDin b s).acc = s.acc := rfl
@[simp] theorem appendDin_cnt (b : Byte) (s : State) :
    (appendDin b s).cnt = s.cnt := rfl
@[simp] theorem appendDin_din (b : Byte) (s : State) :
    (appendDin b s).din = s.din ++ [b] := rfl
@[simp] theorem appendDin_out (b : Byte) (s : State) :
    (appendDin b s).out = s.out := rfl
@[simp] theorem appendDin_att (b : Byte) (s : State) :
    (appendDin b s).att = s.att := rfl
@[simp] theorem appendDin_rxb (b : Byte) (s : State) :
    (appendDin b s).rxb = s.rxb := rfl
@[simp] theorem appendDin_rxn (b : Byte) (s : State) :
    (appendDin b s).rxn = s.rxn := rfl
@[simp] theorem appendDin_eidx (b : Byte) (s : State) :
    (appendDin b s).eidx = s.eidx := rfl
@[simp] theorem appendDin_ph (b : Byte) (s : State) :
    (appendDin b s).ph = s.ph := rfl
@[simp] theorem appendDin_maxr (b : Byte) (s : State) :
    (appendDin b s).maxr = s.maxr := rfl
@[simp] theorem appendDin_ivl (b : Byte) (s : State) :
    (appendDin b s).ivl = s.ivl := rfl
@[simp] theorem appendDin_bnd (b : Byte) (s : State) :
    (appendDin b s).bnd = s.bnd := rfl
@[simp] theorem appendDin_maxw (b : Byte) (s : State) :
    (appendDin b s).maxw = s.maxw := rfl
@[simp] theorem appendDin_t0 (b : Byte) (s : State) :
    (appendDin b s).t0 = s.t0 := rfl
@[simp] theorem appendDin_rto (b : Byte) (s : State) :
    (appendDin b s).rto = s.rto := rfl
@[simp] theorem appendDin_clock (b : Byte) (s : State) :
    (appendDin b s).clock = s.clock := rfl
@[simp] theorem appendDin_tx (b : Byte) (s : State) :
    (appendDin b s).tx = s.tx := rfl
@[simp] theorem appendDin_writing (b : Byte) (s : State) :
    (appendDin b s).writing = s.writing := rfl
@[simp] theorem appendDin_handed (b : Byte) (s : State) :
    (appendDin b s).handed = s.handed := rfl
@[simp] theorem appendDin_history (b : Byte) (s : State) :
    (appendDin b s).history = s.history := rfl
@[simp] theorem appendDin_responses (b : Byte) (s : State) :
    (appendDin b s).responses = s.responses := rfl
@[simp] theorem appendDin_reply (b : Byte) (s : State) :
    (appendDin b s).reply = s.reply := rfl
@[simp] theorem appendDin_oracle (b : Byte) (s : State) :
    (appendDin b s).oracle = s.oracle := rfl
@[simp] theorem appendDin_inputs (b : Byte) (s : State) :
    (appendDin b s).inputs = s.inputs := rfl
@[simp] theorem appendDin_host (b : Byte) (s : State) :
    (appendDin b s).host = s.host := rfl

/-! ### `clearDin` -/

@[simp] theorem clearDin_status (s : State) :
    (clearDin s).status = s.status := rfl
@[simp] theorem clearDin_acc (s : State) :
    (clearDin s).acc = s.acc := rfl
@[simp] theorem clearDin_cnt (s : State) :
    (clearDin s).cnt = s.cnt := rfl
@[simp] theorem clearDin_din (s : State) :
    (clearDin s).din = [] := rfl
@[simp] theorem clearDin_out (s : State) :
    (clearDin s).out = s.out := rfl
@[simp] theorem clearDin_att (s : State) :
    (clearDin s).att = s.att := rfl
@[simp] theorem clearDin_rxb (s : State) :
    (clearDin s).rxb = s.rxb := rfl
@[simp] theorem clearDin_rxn (s : State) :
    (clearDin s).rxn = s.rxn := rfl
@[simp] theorem clearDin_eidx (s : State) :
    (clearDin s).eidx = s.eidx := rfl
@[simp] theorem clearDin_ph (s : State) :
    (clearDin s).ph = s.ph := rfl
@[simp] theorem clearDin_maxr (s : State) :
    (clearDin s).maxr = s.maxr := rfl
@[simp] theorem clearDin_ivl (s : State) :
    (clearDin s).ivl = s.ivl := rfl
@[simp] theorem clearDin_bnd (s : State) :
    (clearDin s).bnd = s.bnd := rfl
@[simp] theorem clearDin_maxw (s : State) :
    (clearDin s).maxw = s.maxw := rfl
@[simp] theorem clearDin_t0 (s : State) :
    (clearDin s).t0 = s.t0 := rfl
@[simp] theorem clearDin_rto (s : State) :
    (clearDin s).rto = s.rto := rfl
@[simp] theorem clearDin_clock (s : State) :
    (clearDin s).clock = s.clock := rfl
@[simp] theorem clearDin_tx (s : State) :
    (clearDin s).tx = s.tx := rfl
@[simp] theorem clearDin_writing (s : State) :
    (clearDin s).writing = s.writing := rfl
@[simp] theorem clearDin_handed (s : State) :
    (clearDin s).handed = s.handed := rfl
@[simp] theorem clearDin_history (s : State) :
    (clearDin s).history = s.history := rfl
@[simp] theorem clearDin_responses (s : State) :
    (clearDin s).responses = s.responses := rfl
@[simp] theorem clearDin_reply (s : State) :
    (clearDin s).reply = s.reply := rfl
@[simp] theorem clearDin_oracle (s : State) :
    (clearDin s).oracle = s.oracle := rfl
@[simp] theorem clearDin_inputs (s : State) :
    (clearDin s).inputs = s.inputs := rfl
@[simp] theorem clearDin_host (s : State) :
    (clearDin s).host = s.host := rfl

/-! ### `respond` -/

@[simp] theorem respond_status (k : Status) (v : Half) (s : State) :
    (respond k v s).status = k := rfl
@[simp] theorem respond_acc (k : Status) (v : Half) (s : State) :
    (respond k v s).acc = s.acc := rfl
@[simp] theorem respond_cnt (k : Status) (v : Half) (s : State) :
    (respond k v s).cnt = s.cnt := rfl
@[simp] theorem respond_din (k : Status) (v : Half) (s : State) :
    (respond k v s).din = s.din := rfl
@[simp] theorem respond_out (k : Status) (v : Half) (s : State) :
    (respond k v s).out = s.out := rfl
@[simp] theorem respond_att (k : Status) (v : Half) (s : State) :
    (respond k v s).att = s.att := rfl
@[simp] theorem respond_rxb (k : Status) (v : Half) (s : State) :
    (respond k v s).rxb = s.rxb := rfl
@[simp] theorem respond_rxn (k : Status) (v : Half) (s : State) :
    (respond k v s).rxn = s.rxn := rfl
@[simp] theorem respond_eidx (k : Status) (v : Half) (s : State) :
    (respond k v s).eidx = s.eidx := rfl
@[simp] theorem respond_ph (k : Status) (v : Half) (s : State) :
    (respond k v s).ph = .idle := rfl
@[simp] theorem respond_maxr (k : Status) (v : Half) (s : State) :
    (respond k v s).maxr = s.maxr := rfl
@[simp] theorem respond_ivl (k : Status) (v : Half) (s : State) :
    (respond k v s).ivl = s.ivl := rfl
@[simp] theorem respond_bnd (k : Status) (v : Half) (s : State) :
    (respond k v s).bnd = s.bnd := rfl
@[simp] theorem respond_maxw (k : Status) (v : Half) (s : State) :
    (respond k v s).maxw = s.maxw := rfl
@[simp] theorem respond_t0 (k : Status) (v : Half) (s : State) :
    (respond k v s).t0 = s.t0 := rfl
@[simp] theorem respond_rto (k : Status) (v : Half) (s : State) :
    (respond k v s).rto = s.rto := rfl
@[simp] theorem respond_clock (k : Status) (v : Half) (s : State) :
    (respond k v s).clock = s.clock := rfl
@[simp] theorem respond_tx (k : Status) (v : Half) (s : State) :
    (respond k v s).tx = s.tx := rfl
@[simp] theorem respond_writing (k : Status) (v : Half) (s : State) :
    (respond k v s).writing = s.writing := rfl
@[simp] theorem respond_handed (k : Status) (v : Half) (s : State) :
    (respond k v s).handed = s.handed := rfl
@[simp] theorem respond_history (k : Status) (v : Half) (s : State) :
    (respond k v s).history = s.history := rfl
@[simp] theorem respond_responses (k : Status) (v : Half) (s : State) :
    (respond k v s).responses = s.responses ++ [{ status := k, val := v }] := rfl
@[simp] theorem respond_reply (k : Status) (v : Half) (s : State) :
    (respond k v s).reply = some { status := k, val := v } := rfl
@[simp] theorem respond_oracle (k : Status) (v : Half) (s : State) :
    (respond k v s).oracle = s.oracle := rfl
@[simp] theorem respond_inputs (k : Status) (v : Half) (s : State) :
    (respond k v s).inputs = s.inputs := rfl
@[simp] theorem respond_host (k : Status) (v : Half) (s : State) :
    (respond k v s).host = s.host := rfl

/-! ### `addEvent` -/

@[simp] theorem addEvent_status (w : Owner) (d : Deed) (s : State) :
    (addEvent w d s).status = s.status := rfl
@[simp] theorem addEvent_acc (w : Owner) (d : Deed) (s : State) :
    (addEvent w d s).acc = s.acc := rfl
@[simp] theorem addEvent_cnt (w : Owner) (d : Deed) (s : State) :
    (addEvent w d s).cnt = s.cnt := rfl
@[simp] theorem addEvent_din (w : Owner) (d : Deed) (s : State) :
    (addEvent w d s).din = s.din := rfl
@[simp] theorem addEvent_out (w : Owner) (d : Deed) (s : State) :
    (addEvent w d s).out = s.out := rfl
@[simp] theorem addEvent_att (w : Owner) (d : Deed) (s : State) :
    (addEvent w d s).att = s.att := rfl
@[simp] theorem addEvent_rxb (w : Owner) (d : Deed) (s : State) :
    (addEvent w d s).rxb = s.rxb := rfl
@[simp] theorem addEvent_rxn (w : Owner) (d : Deed) (s : State) :
    (addEvent w d s).rxn = s.rxn := rfl
@[simp] theorem addEvent_eidx (w : Owner) (d : Deed) (s : State) :
    (addEvent w d s).eidx = s.eidx := rfl
@[simp] theorem addEvent_ph (w : Owner) (d : Deed) (s : State) :
    (addEvent w d s).ph = s.ph := rfl
@[simp] theorem addEvent_maxr (w : Owner) (d : Deed) (s : State) :
    (addEvent w d s).maxr = s.maxr := rfl
@[simp] theorem addEvent_ivl (w : Owner) (d : Deed) (s : State) :
    (addEvent w d s).ivl = s.ivl := rfl
@[simp] theorem addEvent_bnd (w : Owner) (d : Deed) (s : State) :
    (addEvent w d s).bnd = s.bnd := rfl
@[simp] theorem addEvent_maxw (w : Owner) (d : Deed) (s : State) :
    (addEvent w d s).maxw = s.maxw := rfl
@[simp] theorem addEvent_t0 (w : Owner) (d : Deed) (s : State) :
    (addEvent w d s).t0 = s.t0 := rfl
@[simp] theorem addEvent_rto (w : Owner) (d : Deed) (s : State) :
    (addEvent w d s).rto = s.rto := rfl
@[simp] theorem addEvent_clock (w : Owner) (d : Deed) (s : State) :
    (addEvent w d s).clock = s.clock := rfl
@[simp] theorem addEvent_tx (w : Owner) (d : Deed) (s : State) :
    (addEvent w d s).tx = s.tx := rfl
@[simp] theorem addEvent_writing (w : Owner) (d : Deed) (s : State) :
    (addEvent w d s).writing = s.writing := rfl
@[simp] theorem addEvent_handed (w : Owner) (d : Deed) (s : State) :
    (addEvent w d s).handed = s.handed := rfl
@[simp] theorem addEvent_history (w : Owner) (d : Deed) (s : State) :
    (addEvent w d s).history = s.history ++ [{ who := w, deed := d }] := rfl
@[simp] theorem addEvent_responses (w : Owner) (d : Deed) (s : State) :
    (addEvent w d s).responses = s.responses := rfl
@[simp] theorem addEvent_reply (w : Owner) (d : Deed) (s : State) :
    (addEvent w d s).reply = s.reply := rfl
@[simp] theorem addEvent_oracle (w : Owner) (d : Deed) (s : State) :
    (addEvent w d s).oracle = s.oracle := rfl
@[simp] theorem addEvent_inputs (w : Owner) (d : Deed) (s : State) :
    (addEvent w d s).inputs = s.inputs := rfl
@[simp] theorem addEvent_host (w : Owner) (d : Deed) (s : State) :
    (addEvent w d s).host = s.host := rfl

/-! ### `noteAnswer` -/

@[simp] theorem noteAnswer_status (a : Option Answer) (s : State) :
    (noteAnswer a s).status = s.status := rfl
@[simp] theorem noteAnswer_acc (a : Option Answer) (s : State) :
    (noteAnswer a s).acc = s.acc := rfl
@[simp] theorem noteAnswer_cnt (a : Option Answer) (s : State) :
    (noteAnswer a s).cnt = s.cnt := rfl
@[simp] theorem noteAnswer_din (a : Option Answer) (s : State) :
    (noteAnswer a s).din = s.din := rfl
@[simp] theorem noteAnswer_out (a : Option Answer) (s : State) :
    (noteAnswer a s).out = s.out := rfl
@[simp] theorem noteAnswer_att (a : Option Answer) (s : State) :
    (noteAnswer a s).att = s.att := rfl
@[simp] theorem noteAnswer_rxb (a : Option Answer) (s : State) :
    (noteAnswer a s).rxb = s.rxb := rfl
@[simp] theorem noteAnswer_rxn (a : Option Answer) (s : State) :
    (noteAnswer a s).rxn = s.rxn := rfl
@[simp] theorem noteAnswer_eidx (a : Option Answer) (s : State) :
    (noteAnswer a s).eidx = s.eidx := rfl
@[simp] theorem noteAnswer_ph (a : Option Answer) (s : State) :
    (noteAnswer a s).ph = s.ph := rfl
@[simp] theorem noteAnswer_maxr (a : Option Answer) (s : State) :
    (noteAnswer a s).maxr = s.maxr := rfl
@[simp] theorem noteAnswer_ivl (a : Option Answer) (s : State) :
    (noteAnswer a s).ivl = s.ivl := rfl
@[simp] theorem noteAnswer_bnd (a : Option Answer) (s : State) :
    (noteAnswer a s).bnd = s.bnd := rfl
@[simp] theorem noteAnswer_maxw (a : Option Answer) (s : State) :
    (noteAnswer a s).maxw = s.maxw := rfl
@[simp] theorem noteAnswer_t0 (a : Option Answer) (s : State) :
    (noteAnswer a s).t0 = s.t0 := rfl
@[simp] theorem noteAnswer_rto (a : Option Answer) (s : State) :
    (noteAnswer a s).rto = s.rto := rfl
@[simp] theorem noteAnswer_clock (a : Option Answer) (s : State) :
    (noteAnswer a s).clock = s.clock := rfl
@[simp] theorem noteAnswer_tx (a : Option Answer) (s : State) :
    (noteAnswer a s).tx = s.tx := rfl
@[simp] theorem noteAnswer_writing (a : Option Answer) (s : State) :
    (noteAnswer a s).writing = s.writing := rfl
@[simp] theorem noteAnswer_handed (a : Option Answer) (s : State) :
    (noteAnswer a s).handed = s.handed := rfl
@[simp] theorem noteAnswer_history (a : Option Answer) (s : State) :
    (noteAnswer a s).history = s.history := rfl
@[simp] theorem noteAnswer_responses (a : Option Answer) (s : State) :
    (noteAnswer a s).responses = s.responses := rfl
@[simp] theorem noteAnswer_reply (a : Option Answer) (s : State) :
    (noteAnswer a s).reply = s.reply := rfl
@[simp] theorem noteAnswer_oracle (a : Option Answer) (s : State) :
    (noteAnswer a s).oracle = s.oracle := rfl
@[simp] theorem noteAnswer_inputs (a : Option Answer) (s : State) :
    (noteAnswer a s).inputs = s.inputs := rfl
@[simp] theorem noteAnswer_host (a : Option Answer) (s : State) :
    (noteAnswer a s).host = { s.host with lastAnswer := a } := rfl

/-! ### The three ends of an operation are `respond` -/

@[simp] theorem completeOk_eq (v : Half) (s : State) : completeOk v s = respond .ok v s := rfl

@[simp] theorem raise_eq (k : Status) (v : Half) (s : State) : raise k v s = respond k v s := rfl

@[simp] theorem refuse_eq (s : State) : refuse s = respond .operandError 0 s := rfl

/-- From `IDLE` the response is all that changes. -/
theorem respond_of_idle (k : Status) (v : Half) (s : State) (h : s.ph = .idle) :
    respond k v s = { s with
      status := k
      responses := s.responses ++ [{ status := k, val := v }]
      reply := some { status := k, val := v } } := by
  cases s; cases h; rfl

/-! ### `whenIdle` -/

@[simp] theorem whenIdle_of_idle {s : State} {f : State → Host.Outcome State Fault Refusal}
    (h : s.ph = .idle) : whenIdle s f = f s := if_pos h

@[simp] theorem whenIdle_of_busy {s : State} {f : State → Host.Outcome State Fault Refusal}
    (h : s.ph ≠ .idle) : whenIdle s f = .fault .hostHeld := if_neg h

/-- A next state comes only from `IDLE`. -/
theorem whenIdle_next {s t : State} {f : State → Host.Outcome State Fault Refusal}
    (h : whenIdle s f = .next t) : s.ph = .idle ∧ f s = .next t := by
  by_cases hp : s.ph = .idle
  · exact ⟨hp, by simpa [hp] using h⟩
  · simp [hp] at h

end Sys2Proof.Machine
end

