-- ==== Sys2Proof/Laws/Ops.lean ====
section
/-! SUPPORT. Everything a shared operation can do, said once: the stream primitives by the answer the environment
gives, the clock, the host's path, and what none of them touches. -/

namespace Sys2Proof.Machine

/-! ### Answers -/

/-- An arrival of at most `RXCAP` bytes is read whole. -/
theorem cutRead_of_admissible {l : List Byte} (h : l.length ≤ Config.rxcapMore + 2) : cutRead l = (l, []) := by
  match l with
  | [] | [_] | [_, _] => rfl
  | a :: b :: c :: rest =>
    have hl : (c :: rest).length ≤ Config.rxcapMore := by simp at h ⊢; omega
    simp [cutRead, List.take_of_length_le hl, List.drop_eq_nil_of_le hl]

/-- An admissible scripted answer is the answer. -/
theorem nextRead_of_cons {o : Oracle} {r : ReadAnswer} {rest : List ReadAnswer} (h : o.reads = r :: rest)
    (ha : ∀ l, r = .bytes l → l.length ≤ Config.rxcapMore + 2) :
    o.nextRead = (r, { o with reads := rest }) := by
  cases r with
  | bytes l => simp [Oracle.nextRead, h, Oracle.boundRead, cutRead_of_admissible (ha l rfl)]
  | timeout | ioError => simp [Oracle.nextRead, h, Oracle.boundRead]

/-- Taking unread bytes keeps every byte and the order of all of them. -/
theorem takeUnread_keeps (n : Nat) (reads : List ReadAnswer) :
    (takeUnread n reads).1 ++ unreadBytes (takeUnread n reads).2 = unreadBytes reads := by
  fun_induction takeUnread n reads with
  | case1 n a l rest h => simp [unreadBytes, ← List.append_assoc]
  | case2 n a l rest h ih => simpa [unreadBytes] using ih
  | case3 => rfl

/-- With nothing to take, nothing is. -/
@[simp] theorem takeUnread_zero (reads : List ReadAnswer) : takeUnread 0 reads = ([], reads) := by
  match reads with
  | .bytes (_ :: _) :: _ => simp [takeUnread]
  | [] | .bytes [] :: _ | .timeout :: _ | .ioError :: _ => rfl

/-- Two arrivals are taken together. -/
theorem takeUnread_two {a b : List Byte} (rest : List ReadAnswer) (ha : a ≠ []) (hb : b ≠ []) :
    takeUnread (a.length + b.length) (.bytes a :: .bytes b :: rest) = (a ++ b, rest) := by
  match a, b with
  | x :: a, y :: b =>
    have h : ¬ a.length + 1 + (b.length + 1) ≤ a.length := by omega
    simp [takeUnread, h]

/-- Of arrivals of at least one byte each, the first `n` bytes are taken. -/
theorem takeUnread_arrivals (n : Nat) (l : List (List Byte)) (h : [] ∉ l) :
    (takeUnread n (l.map .bytes)).1 = l.flatten.take n := by
  induction l generalizing n with
  | nil => simp [takeUnread]
  | cons a l ih =>
    cases a with
    | nil => simp at h
    | cons x a =>
      have hl : [] ∉ l := fun hm => h (List.mem_cons_of_mem _ hm)
      simp only [List.map_cons, takeUnread, List.flatten_cons]
      split
      · rw [List.take_append_of_le_length (by simp; omega)]
      · rw [List.take_append, List.take_of_length_le (by simp; omega), ih _ hl]; rfl

/-- Grouping keeps every unread byte and their order. -/
theorem group_keeps (n : Nat) (o : Oracle) : unreadBytes (o.group n).reads = unreadBytes o.reads := by
  have h := takeUnread_keeps n o.reads
  unfold Oracle.group
  split
  · rfl
  · rename_i h1; rw [h1] at h; simpa [unreadBytes] using h

/-- Grouping changes no other coming answer. -/
theorem group_only_reads (n : Nat) (o : Oracle) : o.group n = { o with reads := (o.group n).reads } := by
  unfold Oracle.group
  split <;> rfl

/-- Two arrivals become one answer. -/
theorem group_two {o : Oracle} {a b : List Byte} {rest : List ReadAnswer}
    (h : o.reads = .bytes a :: .bytes b :: rest) (ha : a ≠ []) (hb : b ≠ []) :
    o.group (a.length + b.length) = { o with reads := .bytes (a ++ b) :: rest } := by
  rw [Oracle.group, h, takeUnread_two rest ha hb]
  cases a with
  | nil => exact absurd rfl ha
  | cons x a => rfl

/-- A single byte is always admissible: `RXCAP` is at least 2. -/
theorem admissible_single (x : Byte) (l : List Byte) (h : ReadAnswer.bytes [x] = .bytes l) :
    l.length ≤ Config.rxcapMore + 2 := by
  cases h; simp

/-! ### The primitives -/

/-- A write of which `k` bytes have left: only the stream's side changes, and the event carries the answer. -/
theorem streamWrite_cases (w : Owner) (l : List Byte) (k : Nat) (s : State) :
    (∃ o, streamWrite w l k s =
      (.done, addEvent w (.write l .done) { s with tx := s.tx ++ l.drop k, oracle := o })) ∨
    (∃ n o, streamWrite w l k s =
      (.ioError, addEvent w (.write l .ioError) { s with tx := s.tx ++ (l.drop k).take n, oracle := o })) := by
  unfold streamWrite
  split
  · exact .inl ⟨_, rfl⟩
  · exact .inr ⟨_, _, rfl⟩

/-- A flush: only the stream's side changes, and the event carries the answer. -/
theorem streamFlush_cases (w : Owner) (s : State) :
    (∃ o, streamFlush w s = (.done, addEvent w (.flush .done) { s with handed := s.tx.length, oracle := o })) ∨
    (∃ n o, streamFlush w s = (.ioError, addEvent w (.flush .ioError)
      { s with handed := s.handed + min n (s.tx.length - s.handed), oracle := o })) := by
  unfold streamFlush
  split
  · exact .inl ⟨_, rfl⟩
  · exact .inr ⟨_, _, rfl⟩

/-- A read: the answer, the time it took, and the event. -/
theorem streamRead_cases (w : Owner) (s : State) :
    ∃ r o, streamRead w s = (r, addEvent w (.read r) { s with clock := s.clock + readTime r s, oracle := o }) :=
  ⟨_, _, rfl⟩

/-- A timeout setting. -/
theorem streamSetTimeout_cases (w : Owner) (t : Ticks) (s : State) :
    ∃ a o, streamSetTimeout w t s = (a, addEvent w (.setTimeout t a) { s with rto := t, oracle := o }) :=
  ⟨_, _, rfl⟩

/-- A reading of the clock. -/
theorem now_cases (s : State) :
    ∃ n o, now s = (s.clock + n, { s with clock := s.clock + n, oracle := o }) :=
  ⟨_, _, rfl⟩

/-- A scripted `Done` answers the write. -/
theorem streamWrite_of_done {w : Owner} {l : List Byte} {k : Nat} {s : State} {rest : List Answer}
    (h : s.oracle.writes = .done :: rest) :
    streamWrite w l k s = (.done, addEvent w (.write l .done)
      { s with tx := s.tx ++ l.drop k, oracle := { s.oracle with writes := rest } }) := by
  simp [streamWrite, Oracle.nextWrite, h]

/-- A scripted `IoError` answers the write. -/
theorem streamWrite_of_ioError {w : Owner} {l : List Byte} {k : Nat} {s : State} {rest : List Answer}
    (h : s.oracle.writes = .ioError :: rest) :
    streamWrite w l k s = (.ioError, addEvent w (.write l .ioError)
      { s with
        tx := s.tx ++ (l.drop k).take (Config.freeCount s.oracle.draws),
        oracle := { s.oracle with writes := rest, draws := s.oracle.draws + 1 } }) := by
  simp [streamWrite, Oracle.nextWrite, Oracle.nextCount, h]

/-- A scripted `Done` answers the flush. -/
theorem streamFlush_of_done {w : Owner} {s : State} {rest : List Answer}
    (h : s.oracle.flushes = .done :: rest) :
    streamFlush w s = (.done, addEvent w (.flush .done)
      { s with handed := s.tx.length, oracle := { s.oracle with flushes := rest } }) := by
  simp [streamFlush, Oracle.nextFlush, h]

/-- A scripted `IoError` answers the flush. -/
theorem streamFlush_of_ioError {w : Owner} {s : State} {rest : List Answer}
    (h : s.oracle.flushes = .ioError :: rest) :
    streamFlush w s = (.ioError, addEvent w (.flush .ioError)
      { s with
        handed := s.handed + min (Config.freeCount s.oracle.draws) (s.tx.length - s.handed),
        oracle := { s.oracle with flushes := rest, draws := s.oracle.draws + 1 } }) := by
  simp [streamFlush, Oracle.nextFlush, Oracle.nextCount, h]

/-- A scripted admissible answer answers the read. -/
theorem streamRead_of_cons {w : Owner} {s : State} {r : ReadAnswer} {rest : List ReadAnswer}
    (h : s.oracle.reads = r :: rest) (ha : ∀ l, r = .bytes l → l.length ≤ Config.rxcapMore + 2) :
    streamRead w s = (r, addEvent w (.read r)
      { s with clock := s.clock + readTime r s, oracle := { s.oracle with reads := rest } }) := by
  simp [streamRead, nextRead_of_cons h ha]

/-! ### The host's path -/

/-- The host's transmission: nothing but the stream's side and the kept answer changes, and every event is the
host's. -/
theorem hostTransmit_cases (l : List Byte) (s : State) :
    ∃ x n o es a, hostTransmit l s =
        noteAnswer a { s with tx := x, handed := n, oracle := o, history := s.history ++ es } ∧
      (∀ e ∈ es, e.who = .host) ∧ (∀ e ∈ es, ∀ r, e.deed ≠ .read r) ∧
      (s.handed ≤ s.tx.length → n ≤ x.length) := by
  unfold hostTransmit
  split
  · exact ⟨s.tx, s.handed, s.oracle, [], none, by simp, by simp, by simp, id⟩
  · rcases streamWrite_cases .host l 0 s with ⟨o, h⟩ | ⟨n, o, h⟩ <;> simp only [h]
    · rcases streamFlush_cases .host (addEvent .host (.write l .done) { s with tx := s.tx ++ l.drop 0, oracle := o })
        with ⟨o', h'⟩ | ⟨n', o', h'⟩ <;> rw [h']
      · exact ⟨s.tx ++ l.drop 0, (s.tx ++ l.drop 0).length, o', [⟨.host, .write l .done⟩, ⟨.host, .flush .done⟩],
          some .done, by simp [addEvent], by simp, by simp, fun _ => le_rfl⟩
      · exact ⟨s.tx ++ l.drop 0, s.handed + min n' ((s.tx ++ l.drop 0).length - s.handed), o',
          [⟨.host, .write l .done⟩, ⟨.host, .flush .ioError⟩], some .ioError, by simp [addEvent], by simp, by simp,
          fun hs => by simp only [List.length_append]; omega⟩
    · exact ⟨_, s.handed, o, [⟨.host, .write l .ioError⟩], some .ioError, rfl, by simp, by simp,
        fun hs => by simp only [List.length_append]; omega⟩

/-- Both halves answered `Done`: the bytes have left and are handed over. -/
theorem hostTransmit_of_done {l : List Byte} {s : State} {ws fs : List Answer} (hl : l ≠ [])
    (hw : s.oracle.writes = .done :: ws) (hf : s.oracle.flushes = .done :: fs) :
    hostTransmit l s = noteAnswer (some .done) { s with
      tx := s.tx ++ l, handed := (s.tx ++ l).length,
      history := s.history ++
        [{ who := .host, deed := .write l .done }, { who := .host, deed := .flush .done }],
      oracle := { s.oracle with writes := ws, flushes := fs } } := by
  simp [hostTransmit, hl, streamWrite_of_done hw, streamFlush, Oracle.nextFlush, hf, addEvent]

/-- The host's timeout setting: the timeout, the event and the kept answer. -/
theorem hostSetTimeout_cases (t : Ticks) (s : State) :
    ∃ a o, hostSetTimeout t s =
      noteAnswer (some a) (addEvent .host (.setTimeout t a) { s with rto := t, oracle := o }) :=
  ⟨_, _, rfl⟩

/-- The host's read: the answer is kept. -/
theorem hostReceive_cases (s : State) :
    ∃ r o, hostReceive s = { addEvent .host (.read r) { s with clock := s.clock + readTime r s, oracle := o } with
      host := { s.host with lastRead := some r } } :=
  ⟨_, _, rfl⟩

end Sys2Proof.Machine
end

