-- ==== Sys2Proof/Laws/Phases.lean ====
section
/-! SUPPORT. Everything a phase of SEND and MAGIC can do, said once: the two ends of a write and of a flush, the
classes of a read's answer, the two ends of the deadline test, a step without an answer; and what no phase
touches. -/

namespace Sys2Proof.Machine

/-! ### SEND -/

/-- The bytes `S_WRITE` writes. -/
theorem memRead_out_all (s : State) (h : s.out.length ≤ 70) : memRead .out 0 cfg.frameLen s = s.out := by
  simp [memRead, bufferOf, List.take_of_length_le h]

/-- `S_WRITE`: the attempt is counted, then the write is done or ends the operation. -/
theorem sWrite_cases (s : State) :
    (∃ o, sWrite s = { addEvent .core (.write (memRead .out 0 cfg.frameLen s) .done)
        { s with
          att := countAttempt s, writing := none,
          tx := s.tx ++ (memRead .out 0 cfg.frameLen s).drop (s.writing.getD 0), oracle := o } with
        ph := .sFlush }) ∨
    (∃ n o, sWrite s = respond .streamError ((countAttempt s).zeroExtend 16)
      (addEvent .core (.write (memRead .out 0 cfg.frameLen s) .ioError)
        { s with
          att := countAttempt s, writing := none,
          tx := s.tx ++ ((memRead .out 0 cfg.frameLen s).drop (s.writing.getD 0)).take n, oracle := o })) := by
  unfold sWrite
  rcases streamWrite_cases .core (memRead .out 0 cfg.frameLen s) (s.writing.getD 0)
    { s with att := countAttempt s, writing := none } with ⟨o, h⟩ | ⟨n, o, h⟩ <;> rw [h]
  · exact .inl ⟨o, rfl⟩
  · exact .inr ⟨n, o, rfl⟩

/-- `S_FLUSH`. -/
theorem sFlush_cases (s : State) :
    (∃ o, sFlush s = { addEvent .core (.flush .done)
        { s with handed := s.tx.length, oracle := o } with ph := .sRead }) ∨
    (∃ n o, sFlush s = respond .streamError (attVal s) (addEvent .core (.flush .ioError)
      { s with handed := s.handed + min n (s.tx.length - s.handed), oracle := o })) := by
  unfold sFlush
  rcases streamFlush_cases .core s with ⟨o, h⟩ | ⟨n, o, h⟩ <;> rw [h]
  · exact .inl ⟨o, rfl⟩
  · exact .inr ⟨n, o, rfl⟩

/-- A read's answer ends SEND with a response, or (one NAK, attempts remaining) goes back to `S_WRITE`. -/
theorem sClassify_cases (r : ReadAnswer) (s : State) :
    (∃ k n b, sClassify r s = respond k (attVal s) { s with rxn := n, rxb := b } ∧
      k ∈ [Status.ok, .timeout, .unexpectedResponse, .retryExhausted, .framingError, .streamError]) ∨
    (r = .bytes [0x15] ∧ s.att.toNat ≤ s.maxr.toNat ∧
      sClassify r s = { s with rxn := 1, rxb := 0x15, ph := .sWrite }) := by
  unfold sClassify
  split
  · exact .inl ⟨.timeout, 0, s.rxb, rfl, by decide⟩
  · exact .inl ⟨.streamError, 0, s.rxb, rfl, by decide⟩
  · exact .inl ⟨.framingError, 0, s.rxb, rfl, by decide⟩
  · rename_i x
    simp only
    split
    · exact .inl ⟨.ok, 1, x, rfl, by decide⟩
    · split
      · split
        · rename_i h1 h2
          simp [attemptsRemain] at h1 h2
          subst h1
          exact .inr ⟨rfl, h2, rfl⟩
        · exact .inl ⟨.retryExhausted, 1, x, rfl, by decide⟩
      · exact .inl ⟨.unexpectedResponse, 1, x, rfl, by decide⟩
  · rename_i x y l
    exact .inl ⟨.framingError, rxCount (x :: y :: l), x, rfl, by decide⟩

/-- `S_READ`: the read, then its class. -/
theorem sRead_cases (s : State) :
    ∃ r o, sRead s = sClassify r (addEvent .core (.read r)
      { s with clock := s.clock + readTime r s, oracle := o }) := by
  obtain ⟨r, o, h⟩ := streamRead_cases .core s
  exact ⟨r, o, by rw [sRead, h]⟩

/-! ### MAGIC -/

/-- `M_SETUP`. -/
theorem mSetup_cases (s : State) :
    (∃ n o, mSetup s = { addEvent .core (.setTimeout s.ivl .done) s with
        rto := s.ivl, clock := s.clock + n, t0 := s.clock + n, oracle := o, ph := .mWrite }) ∨
    (∃ o, mSetup s = respond .streamError 0 (addEvent .core (.setTimeout s.ivl .ioError)
      { s with rto := s.ivl, oracle := o })) := by
  unfold mSetup
  obtain ⟨a, o, h⟩ := streamSetTimeout_cases .core s.ivl s
  rw [h]
  cases a with
  | done => exact .inl ⟨_, _, rfl⟩
  | ioError => exact .inr ⟨o, rfl⟩

/-- `M_WRITE`. -/
theorem mWrite_cases (s : State) :
    (∃ o, mWrite s = { addEvent .core (.write cfg.magicSeq .done)
        { s with
          writing := none, tx := s.tx ++ cfg.magicSeq.drop (s.writing.getD 0), oracle := o } with
        ph := .mFlush }) ∨
    (∃ n o, mWrite s = respond .streamError 0 (addEvent .core (.write cfg.magicSeq .ioError)
      { s with
        writing := none, tx := s.tx ++ (cfg.magicSeq.drop (s.writing.getD 0)).take n, oracle := o })) := by
  unfold mWrite
  rcases streamWrite_cases .core cfg.magicSeq (s.writing.getD 0) { s with writing := none } with ⟨o, h⟩ | ⟨n, o, h⟩ <;> rw [h]
  · exact .inl ⟨o, rfl⟩
  · exact .inr ⟨n, o, rfl⟩

/-- `M_FLUSH`. -/
theorem mFlush_cases (s : State) :
    (∃ o, mFlush s = { addEvent .core (.flush .done)
        { s with handed := s.tx.length, oracle := o } with ph := .mRead }) ∨
    (∃ n o, mFlush s = respond .streamError 0 (addEvent .core (.flush .ioError)
      { s with handed := s.handed + min n (s.tx.length - s.handed), oracle := o })) := by
  unfold mFlush
  rcases streamFlush_cases .core s with ⟨o, h⟩ | ⟨n, o, h⟩ <;> rw [h]
  · exact .inl ⟨o, rfl⟩
  · exact .inr ⟨n, o, rfl⟩

/-- A read's answer ends MAGIC (one ACK, or an error), or goes on to the deadline test, with a progress signal
after a timeout. -/
theorem mClassify_cases (r : ReadAnswer) (s : State) :
    (r = .bytes [0x06] ∧ mClassify r s = respond .ok 0 { s with rxn := 1, rxb := 0x06 }) ∨
    (r = .ioError ∧ mClassify r s = respond .streamError 0 { s with rxn := 0 }) ∨
    (r = .timeout ∧ mClassify r s =
      { addEvent .core .progress { s with rxn := 0 } with ph := .mCheck }) ∨
    (∃ l n b, r = .bytes l ∧ mClassify r s = { s with rxn := n, rxb := b, ph := .mCheck }) := by
  unfold mClassify
  split
  · exact .inr (.inr (.inl ⟨rfl, rfl⟩))
  · exact .inr (.inl ⟨rfl, rfl⟩)
  · exact .inr (.inr (.inr ⟨[], 0, s.rxb, rfl, rfl⟩))
  · rename_i x
    split
    · rename_i h
      simp at h
      subst h
      exact .inl ⟨rfl, rfl⟩
    · exact .inr (.inr (.inr ⟨[x], 1, x, rfl, rfl⟩))
  · rename_i x y l
    exact .inr (.inr (.inr ⟨x :: y :: l, rxCount (x :: y :: l), x, rfl, rfl⟩))

/-- `M_READ`: the read, then its class. -/
theorem mRead_cases (s : State) :
    ∃ r o, mRead s = mClassify r (addEvent .core (.read r)
      { s with clock := s.clock + readTime r s, oracle := o }) := by
  obtain ⟨r, o, h⟩ := streamRead_cases .core s
  exact ⟨r, o, by rw [mRead, h]⟩

/-- `M_CHECK`: `Timeout` at the deadline, else another iteration. -/
theorem mCheck_cases (s : State) :
    (∃ n o, s.bnd = true ∧ mCheck s = respond .timeout 0 { s with clock := s.clock + n, oracle := o }) ∨
    (∃ n o, mCheck s = { s with clock := s.clock + n, oracle := o, ph := .mWrite }) := by
  unfold mCheck
  split
  · obtain ⟨n, o, h⟩ := now_cases s
    rw [h]
    simp only
    split
    · exact .inl ⟨n, o, ‹_›, rfl⟩
    · exact .inr ⟨n, o, rfl⟩
  · exact .inr ⟨0, s.oracle, rfl⟩

/-! ### A step in which the stream does not answer -/

/-- A wait leaves the state, or moves a write on (the attempt is counted and some bytes leave), or finds no primitive
awaited and is a phase's step. -/
theorem waitPhase_cases (n : Nat) (s : State) :
    waitPhase n s = s ∨
    (s.ph = .mCheck ∧ waitPhase n s = runPhase s) ∨
    (s.ph = .sWrite ∧ waitPhase n s =
      writeUnderWay (memRead .out 0 cfg.frameLen s) n { s with att := countAttempt s }) ∨
    (s.ph = .mWrite ∧ waitPhase n s = writeUnderWay cfg.magicSeq n s) := by
  unfold waitPhase
  split <;> simp_all [sWriteWaits, runPhase]

/-! ### What no phase touches -/

/-- What CORE's phases leave alone (R171, R196), as one relation. -/
def PhaseFrame (s t : State) : Prop :=
  t.din = s.din ∧ t.out = s.out ∧ t.acc = s.acc ∧ t.cnt = s.cnt ∧ t.eidx = s.eidx ∧ t.maxr = s.maxr ∧
    t.ivl = s.ivl ∧ t.bnd = s.bnd ∧ t.maxw = s.maxw ∧ t.inputs = s.inputs ∧ t.host = s.host

theorem writeUnderWay_frame (l : List Byte) (n : Nat) (s : State) : PhaseFrame s (writeUnderWay l n s) := by
  simp [PhaseFrame, writeUnderWay]

theorem sClassify_frame (r : ReadAnswer) (s : State) : PhaseFrame s (sClassify r s) := by
  rcases sClassify_cases r s with ⟨k, n, b, h, _⟩ | ⟨_, _, h⟩ <;> rw [h] <;> simp [PhaseFrame]

theorem mClassify_frame (r : ReadAnswer) (s : State) : PhaseFrame s (mClassify r s) := by
  rcases mClassify_cases r s with ⟨_, h⟩ | ⟨_, h⟩ | ⟨_, h⟩ | ⟨l, n, b, _, h⟩ <;> rw [h] <;>
    simp [PhaseFrame]

/-- Every phase leaves the buffers, the CRC registers, `EIDX`, the latched operands, the inputs and the host. -/
theorem runPhase_frame (s : State) : PhaseFrame s (runPhase s) := by
  unfold runPhase
  split
  · simp [PhaseFrame]
  · rcases sWrite_cases s with ⟨o, h⟩ | ⟨n, o, h⟩ <;> rw [h] <;> simp [PhaseFrame]
  · rcases sFlush_cases s with ⟨o, h⟩ | ⟨n, o, h⟩ <;> rw [h] <;> simp [PhaseFrame]
  · obtain ⟨r, o, h⟩ := sRead_cases s
    rw [h]
    exact sClassify_frame r _
  · rcases mSetup_cases s with ⟨n, o, h⟩ | ⟨o, h⟩ <;> rw [h] <;> simp [PhaseFrame]
  · rcases mWrite_cases s with ⟨o, h⟩ | ⟨n, o, h⟩ <;> rw [h] <;> simp [PhaseFrame]
  · rcases mFlush_cases s with ⟨o, h⟩ | ⟨n, o, h⟩ <;> rw [h] <;> simp [PhaseFrame]
  · obtain ⟨r, o, h⟩ := mRead_cases s
    rw [h]
    exact mClassify_frame r _
  · rcases mCheck_cases s with ⟨n, o, _, h⟩ | ⟨n, o, h⟩ <;> rw [h] <;> simp [PhaseFrame]

/-- And so does a wait. -/
theorem waitPhase_frame (n : Nat) (s : State) : PhaseFrame s (waitPhase n s) := by
  rcases waitPhase_cases n s with h | ⟨_, h⟩ | ⟨_, h⟩ | ⟨_, h⟩ <;> rw [h]
  · simp [PhaseFrame]
  · exact runPhase_frame s
  · exact writeUnderWay_frame _ n _
  · exact writeUnderWay_frame _ n s

end Sys2Proof.Machine
end

