-- ==== Sys2Proof/Laws/Step.lean ====
section
/-! SUPPORT. A step by what its next input is, and several steps as one after another. -/

namespace Sys2Proof.Machine

/-! ### One step -/

/-- With no input CORE goes on. -/
theorem step_of_no_input {s : State} (h : s.inputs = []) : step s = .next (runPhase s) := by
  simp [step, h]

/-- A quiet step is a step with no input. -/
theorem step_of_quiet {s : State} {rest : List Input} (h : s.inputs = .quiet :: rest) :
    step s = .next (runPhase { s with inputs := rest }) := by
  simp [step, h, takeInput]

/-- Reset. -/
theorem step_of_reset {s : State} {rest : List Input} (h : s.inputs = .reset :: rest) :
    step s = .next (resetInput { s with inputs := rest }) := by
  simp [step, h, takeInput]

/-- The stream does not answer yet. -/
theorem step_of_wait {s : State} {n : Nat} {rest : List Input} (h : s.inputs = .wait n :: rest) :
    step s = .next (waitPhase n { s with inputs := rest }) := by
  simp [step, h, takeInput]

/-- Bytes from the peer. -/
theorem step_of_peer {s : State} {l : List Byte} {rest : List Input} (h : s.inputs = .peer l :: rest) :
    step s = runArrival l { s with inputs := rest } := by
  simp [step, h, takeInput]

/-- The stream puts unread bytes together. -/
theorem step_of_group {s : State} {n : Nat} {rest : List Input} (h : s.inputs = .group n :: rest) :
    step s = .next (groupBytes n { s with inputs := rest }) := by
  simp [step, h, takeInput]

/-- An action of the host at `IDLE`. -/
theorem step_of_host {s : State} {a : HostOp} {rest : List Input} (h : s.inputs = .host a :: rest)
    (hi : s.ph = .idle) : step s = runHost a { s with inputs := rest } := by
  simp [step, h, takeInput, hi]

/-- An action of the host waits while an operation runs. -/
theorem step_of_host_busy {s : State} {a : HostOp} {rest : List Input} (h : s.inputs = .host a :: rest)
    (hi : s.ph ≠ .idle) : step s = .next (runPhase s) := by
  simp [step, h, takeInput, hi]

/-! ### What each phase is -/

@[simp] theorem runPhase_idle {s : State} (h : s.ph = .idle) : runPhase s = s := by simp [runPhase, h]
@[simp] theorem runPhase_sWrite {s : State} (h : s.ph = .sWrite) : runPhase s = sWrite s := by simp [runPhase, h]
@[simp] theorem runPhase_sFlush {s : State} (h : s.ph = .sFlush) : runPhase s = sFlush s := by simp [runPhase, h]
@[simp] theorem runPhase_sRead {s : State} (h : s.ph = .sRead) : runPhase s = sRead s := by simp [runPhase, h]
@[simp] theorem runPhase_mSetup {s : State} (h : s.ph = .mSetup) : runPhase s = mSetup s := by simp [runPhase, h]
@[simp] theorem runPhase_mWrite {s : State} (h : s.ph = .mWrite) : runPhase s = mWrite s := by simp [runPhase, h]
@[simp] theorem runPhase_mFlush {s : State} (h : s.ph = .mFlush) : runPhase s = mFlush s := by simp [runPhase, h]
@[simp] theorem runPhase_mRead {s : State} (h : s.ph = .mRead) : runPhase s = mRead s := by simp [runPhase, h]
@[simp] theorem runPhase_mCheck {s : State} (h : s.ph = .mCheck) : runPhase s = mCheck s := by simp [runPhase, h]

/-! ### Everything a step can do while an operation runs -/

/-- An arrival waits in the stream, or answers the read that waits for it. -/
theorem peerSends_cases (l : List Byte) (s : State) :
    ∃ o, peerSends l s = { s with oracle := o } ∨
      ((s.ph = .sRead ∨ s.ph = .mRead) ∧ peerSends l s = runPhase { s with oracle := o }) := by
  refine ⟨{ s.oracle with reads := s.oracle.reads ++ [.bytes l] }, ?_⟩
  cases h : s.ph <;> simp [peerSends, runPhase, h]

/-- Bytes from the peer, decoded or not, are an arrival. -/
theorem runArrival_eq (l : List Byte) (s : State) : runArrival l s = .next (peerSends l s) := by
  unfold runArrival
  simp only [decode, decodeInbound]
  split
  · rename_i h
    split at h
    · cases h; rename_i hl; subst hl; rfl
    · split at h
      · cases h; rename_i hl; subst hl; rfl
      · cases h
  · rfl

/-- While an operation runs and no reset comes, a step leaves the machine waiting, or is one phase of it, or moves a
write on that is not answered yet. -/
theorem step_busy_cases {s : State} (h : s.ph ≠ .idle) (hr : s.inputs.head? ≠ some .reset) :
    ∃ rest o, step s = .next { s with inputs := rest, oracle := o } ∨
      step s = .next (runPhase { s with inputs := rest, oracle := o }) ∨
      ∃ n, step s = .next (waitPhase n { s with inputs := rest, oracle := o }) := by
  cases hi : s.inputs with
  | nil =>
    refine ⟨[], s.oracle, .inr (.inl ?_)⟩
    rw [step_of_no_input hi, ← hi]
  | cons i rest =>
    cases i with
    | quiet => exact ⟨rest, s.oracle, .inr (.inl (step_of_quiet hi))⟩
    | wait n => exact ⟨rest, s.oracle, .inr (.inr ⟨n, step_of_wait hi⟩)⟩
    | reset => exact absurd (by rw [hi]; rfl) hr
    | peer l =>
      rw [step_of_peer hi, runArrival_eq]
      obtain ⟨o, h1 | ⟨_, h1⟩⟩ := peerSends_cases l { s with inputs := rest }
      · exact ⟨rest, o, .inl (by rw [h1])⟩
      · exact ⟨rest, o, .inr (.inl (by rw [h1]))⟩
    | group n => exact ⟨rest, s.oracle.group n, .inl (step_of_group hi)⟩
    | host a =>
      refine ⟨s.inputs, s.oracle, .inr (.inl ?_)⟩
      rw [step_of_host_busy hi h]

/-! ### Several steps, of any machine and of this one -/

/-- One step and then the others. -/
theorem coreRun_succ (M : Host.Core) {s t : M.State} (n : Nat) (h : M.step s = .next t) :
    M.run (n + 1) s = M.run n t := by
  simp [Host.Core.run, h]

/-- `m` steps and then `n` more. -/
theorem coreRun_add (M : Host.Core) {s t : M.State} (m n : Nat) (h : M.run m s = .next t) :
    M.run (m + n) s = M.run n t := by
  induction m generalizing s with
  | zero =>
    simp only [Host.Core.run, Host.Outcome.next.injEq] at h
    rw [h, Nat.zero_add]
  | succ m ih =>
    rw [Nat.succ_add]
    cases hs : M.step s with
    | next u =>
      rw [coreRun_succ M m hs] at h
      rw [coreRun_succ M _ hs, ih h]
    | fault r | refused r => simp [Host.Core.run, hs] at h

/-- No step. -/
theorem run_zero (s : State) : Sys2Proof.core.run 0 s = .next s := rfl

/-- One step of this machine and then the others. -/
theorem run_succ {s t : State} (n : Nat) (h : step s = .next t) :
    Sys2Proof.core.run (n + 1) s = Sys2Proof.core.run n t :=
  coreRun_succ Sys2Proof.core n h

/-- `m` steps of this machine and then `n` more. -/
theorem run_add {s t : State} (m n : Nat) (h : Sys2Proof.core.run m s = .next t) :
    Sys2Proof.core.run (m + n) s = Sys2Proof.core.run n t :=
  coreRun_add Sys2Proof.core m n h

end Sys2Proof.Machine
end

