-- ==== Sys2Proof/Laws/Host.lean ====
section
/-! SUPPORT. Everything an action of the host can do, said once: it issues requests, uses the stream by its own path,
or reacts, which touches nothing but the host's own state and its coming actions. -/

namespace Sys2Proof.Machine

/-! ### Reactions -/

/-- Nothing but the host's side differs: its state and the inputs to come. -/
def OnlyHostDiffers (s t : State) : Prop := t = { s with inputs := t.inputs, host := t.host }

theorem haltSession_host (s : State) : OnlyHostDiffers s (haltSession s) := rfl

theorem hostReport_host (k : Status) (i : Option Byte) (s : State) : OnlyHostDiffers s (hostReport k i s) := rfl

/-- A check of the response goes on, or ends the session with or without a report to make. -/
theorem expectOk_cases (s : State) :
    (expectOk s = s ∧ ∃ r, s.reply = some r ∧ r.status = .ok) ∨
    (∃ r, s.reply = some r ∧ r.status ≠ .ok ∧ expectOk s =
      { haltSession s with inputs := failureReport r.status ++ (haltSession s).inputs }) ∨
    (s.reply = none ∧ expectOk s = haltSession s) := by
  unfold expectOk
  split
  · rename_i r hr
    by_cases h : r.status = .ok
    · exact .inl ⟨if_pos h, r, hr, h⟩
    · exact .inr (.inl ⟨r, hr, h, if_neg h⟩)
  · exact .inr (.inr ⟨‹_›, rfl⟩)

theorem expectOk_host (s : State) : OnlyHostDiffers s (expectOk s) := by
  rcases expectOk_cases s with ⟨h, _⟩ | ⟨r, _, _, h⟩ | ⟨_, h⟩ <;> rw [h] <;> rfl

theorem expectDone_host (s : State) : OnlyHostDiffers s (expectDone s) := by
  unfold expectDone; split <;> rfl

theorem expectAck_host (s : State) : OnlyHostDiffers s (expectAck s) := by
  unfold expectAck; split <;> rfl

theorem noteReply_host (addr : Byte) (s : State) : OnlyHostDiffers s (noteReply addr s) := by
  unfold noteReply; split <;> rfl

theorem endScan_host (s : State) : OnlyHostDiffers s (endScan s) := by
  unfold endScan; split <;> rfl

/-! ### All actions -/

/-- An action of the host is requests, a use of the stream by its own path, or a reaction. -/
theorem runHost_cases (h : HostOp) (s : State) :
    (∃ r, runHost h s = runRequest r s) ∨ (∃ r1 r2, runHost h s = runPair r1 r2 s) ∨
    (∃ l, runHost h s = runTransmit l s) ∨ (∃ l, runHost h s = .next (hostTransmit l s)) ∨
    runHost h s = .next (hostReceive s) ∨ (∃ t, runHost h s = .next (hostSetTimeout t s)) ∨
    ∃ t, runHost h s = .next t ∧ OnlyHostDiffers s t := by
  have reaction {t : State} (ht : OnlyHostDiffers s t) (he : runHost h s = .next t) :
      ∃ t, runHost h s = .next t ∧ OnlyHostDiffers s t := ⟨t, he, ht⟩
  cases h with
  | request r => exact .inl ⟨r, rfl⟩
  | pair r1 r2 => exact .inr (.inl ⟨r1, r2, rfl⟩)
  | transmit l => exact .inr (.inr (.inl ⟨l, rfl⟩))
  | transmitPacket => exact .inr (.inr (.inr (.inl ⟨s.host.packet, rfl⟩)))
  | receive => exact .inr (.inr (.inr (.inr (.inl rfl))))
  | setTimeout t => exact .inr (.inr (.inr (.inr (.inr (.inl ⟨t, rfl⟩)))))
  | rebootFound k =>
    cases hk : foundAddress k s with
    | some addr => exact .inr (.inl ⟨_, _, by simp [runHost, rebootFound, hk]; rfl⟩)
    | none =>
      exact .inr (.inr (.inr (.inr (.inr (.inr
        (reaction (haltSession_host s) (by simp [runHost, rebootFound, hk])))))))
  | fencChunk =>
    cases hc : s.host.session with
    | some c => exact .inl ⟨_, by simp [runHost, fencChunk, hc]; rfl⟩
    | none =>
      exact .inr (.inr (.inr (.inr (.inr (.inr
        (reaction (haltSession_host s) (by simp [runHost, fencChunk, hc])))))))
  | expectOk => exact .inr (.inr (.inr (.inr (.inr (.inr (reaction (expectOk_host s) rfl))))))
  | expectDone => exact .inr (.inr (.inr (.inr (.inr (.inr (reaction (expectDone_host s) rfl))))))
  | expectAck => exact .inr (.inr (.inr (.inr (.inr (.inr (reaction (expectAck_host s) rfl))))))
  | noteReply addr => exact .inr (.inr (.inr (.inr (.inr (.inr (reaction (noteReply_host addr s) rfl))))))
  | endScan => exact .inr (.inr (.inr (.inr (.inr (.inr (reaction (endScan_host s) rfl))))))
  | report k => exact .inr (.inr (.inr (.inr (.inr (.inr (reaction (hostReport_host k none s) rfl))))))
  | reportIndex k => exact .inr (.inr (.inr (.inr (.inr (.inr (reaction (hostReport_host k _ s) rfl))))))
  | clearPacket | collect | beginScan | openSession _ | chunkSent =>
    exact .inr (.inr (.inr (.inr (.inr (.inr ⟨_, rfl, rfl⟩)))))

end Sys2Proof.Machine
end

