-- ==== Sys2Proof/Laws/Memory.lean ====
section
/-! SUPPORT. The buffers: reading a byte after each memory operation, and the form every operation keeps. -/

namespace Sys2Proof.Machine

/-! ### Reading a byte -/

/-- A byte below the valid length is there. -/
theorem readByte_of_lt {sp : Space} {i : Nat} {s : State} (h : i < (bufferOf sp s).length) :
    readByte sp i s = some (bufferOf sp s)[i] := by
  simp [readByte, h]

/-- An index at or past the valid length reaches nothing. -/
theorem readByte_of_le {sp : Space} {i : Nat} {s : State} (h : (bufferOf sp s).length ≤ i) :
    readByte sp i s = none := by
  simp [readByte, h]

/-- A pushed byte is read at the old length. -/
theorem readByte_appendDin_self (b : Byte) (s : State) :
    readByte .din s.din.length (appendDin b s) = some b := by
  simp [readByte, bufferOf]

/-- A push leaves the bytes below it. -/
theorem readByte_appendDin_of_lt {b : Byte} {s : State} {i : Nat} (h : i < s.din.length) :
    readByte .din i (appendDin b s) = readByte .din i s := by
  simp [readByte, bufferOf, List.getElem?_append_left h]

/-- A push leaves `OUT`. -/
@[simp] theorem readByte_out_appendDin (b : Byte) (s : State) (i : Nat) :
    readByte .out i (appendDin b s) = readByte .out i s := rfl

/-- After DCLR nothing of `DIN` is readable. -/
@[simp] theorem readByte_din_clearDin (s : State) (i : Nat) : readByte .din i (clearDin s) = none := by
  simp [readByte, bufferOf]

@[simp] theorem readByte_out_clearDin (s : State) (i : Nat) :
    readByte .out i (clearDin s) = readByte .out i s := rfl

/-- What was written to `OUT` is read there. -/
@[simp] theorem readByte_out_writeOut (l : List Byte) (s : State) (i : Nat) :
    readByte .out i (writeOut l s) = l[i]? := rfl

@[simp] theorem readByte_din_writeOut (l : List Byte) (s : State) (i : Nat) :
    readByte .din i (writeOut l s) = readByte .din i s := rfl

@[simp] theorem readByte_setCrc (sp : Space) (k : Half) (n : BitVec 7) (s : State) (i : Nat) :
    readByte sp i (setCrc k n s) = readByte sp i s := by cases sp <;> rfl

@[simp] theorem readByte_respond (sp : Space) (k : Status) (v : Half) (s : State) (i : Nat) :
    readByte sp i (respond k v s) = readByte sp i s := by cases sp <;> rfl

@[simp] theorem readByte_addEvent (sp : Space) (w : Owner) (d : Deed) (s : State) (i : Nat) :
    readByte sp i (addEvent w d s) = readByte sp i s := by cases sp <;> rfl

/-! ### The form -/

/-- The form depends on the two buffers only. -/
theorem wf_of_buffers {s t : State} (h : Memory.wf s) (hd : t.din = s.din) (ho : t.out = s.out) :
    Memory.wf t := by
  unfold Memory.wf at *
  rw [hd, ho]
  exact h

/-- The machine after reset has it. -/
theorem wf_reset : Memory.wf State.reset := by decide

/-- A push below the capacity keeps it. -/
theorem wf_appendDin {b : Byte} {s : State} (h : Memory.wf s) (hl : s.din.length < cfg.dinCap) :
    Memory.wf (appendDin b s) := by
  simp [Memory.wf] at *
  omega

theorem wf_clearDin {s : State} (h : Memory.wf s) : Memory.wf (clearDin s) := by
  simp [Memory.wf] at *
  omega

/-- A write that fits keeps it. -/
theorem wf_writeOut {l : List Byte} {s : State} (h : Memory.wf s) (hl : l.length ≤ cfg.outCap) :
    Memory.wf (writeOut l s) := ⟨h.1, hl⟩

/-- A copy of `DIN` fits. -/
theorem wf_copyOut {s : State} (h : Memory.wf s) : Memory.wf (writeOut s.din s) :=
  wf_writeOut h (by have := h.1; simp at *; omega)

/-- A frame fits. -/
theorem wf_writeFrame {s : State} (h : Memory.wf s) {idx rsv : Byte} {last : Bool} {k : Half} {f : List Byte}
    (hf : encodeFrame idx rsv s.din last = some (k, f)) : Memory.wf (writeOut f s) :=
  wf_writeOut h (by rw [encodeFrame_length hf]; decide)

/-- A packet fits. -/
theorem wf_writePacket {s : State} (h : Memory.wf s) {addr ins : Byte} {l : List Byte}
    (hl : encodePacket addr ins s.din = some l) : Memory.wf (writeOut l s) := by
  refine wf_writeOut h ?_
  rw [encodePacket_length hl]
  by_cases hq : s.din.length ≤ 253
  · simp; omega
  · simp [encodePacket_of_gt (by omega : 253 < s.din.length)] at hl

end Sys2Proof.Machine
end

