-- ==== Sys2Proof/Laws/PerInstr.lean ====
section
/-! SUPPORT. Statements for all instructions, one lemma a constructor: the encoder has words for exactly the
well-formed instructions. -/

namespace Sys2Proof.Laws

open Sys2Proof.Machine (encodeFrame_of_length encodeFrame_of_ne encodePacket_of_le encodePacket_of_gt)

/-- The encoder answers for exactly the well-formed instructions. -/
def EncodeDefined.Statement (i : Instr) : Prop := (encode i).isSome = i.wellFormed

theorem EncodeDefined.crcclr : EncodeDefined.Statement .crcclr := rfl
theorem EncodeDefined.crcpush (b : Byte) : EncodeDefined.Statement (.crcpush b) := rfl
theorem EncodeDefined.crc16 : EncodeDefined.Statement .crc16 := rfl
theorem EncodeDefined.dclr : EncodeDefined.Statement .dclr := rfl
theorem EncodeDefined.dpush (b : Byte) : EncodeDefined.Statement (.dpush b) := rfl
theorem EncodeDefined.ocpy : EncodeDefined.Statement .ocpy := rfl
theorem EncodeDefined.ord (i : BitVec 9) : EncodeDefined.Statement (.ord i) := rfl
theorem EncodeDefined.rdreg (r : Byte) : EncodeDefined.Statement (.rdreg r) := rfl
theorem EncodeDefined.fenc (idx rsv : Byte) (last : Bool) : EncodeDefined.Statement (.fenc idx rsv last) := rfl
theorem EncodeDefined.penc (addr ins : Byte) : EncodeDefined.Statement (.penc addr ins) := rfl
theorem EncodeDefined.send (maxr : Byte) : EncodeDefined.Statement (.send maxr) := rfl
theorem EncodeDefined.magic (ivl : Ticks) (mw : Option Ticks) : EncodeDefined.Statement (.magic ivl mw) := rfl
theorem EncodeDefined.ping (addr : Byte) : EncodeDefined.Statement (.ping addr) := rfl
theorem EncodeDefined.reboot (addr : Byte) : EncodeDefined.Statement (.reboot addr) := rfl

/-- A frame has words exactly when its payload is 64 bytes. -/
theorem EncodeDefined.frame (idx rsv : Byte) (p : List Byte) (more : Bool) :
    EncodeDefined.Statement (.frame idx rsv p more) := by
  by_cases h : p.length = 64
  · simp [EncodeDefined.Statement, encode, Instr.wellFormed, encodeFrame_of_length h, h]
  · simp [EncodeDefined.Statement, encode, Instr.wellFormed, encodeFrame_of_ne h, h]

/-- A packet has words exactly when it has at most 253 parameters and is no ping and no reboot packet. -/
theorem EncodeDefined.cmdpkt (addr ins : Byte) (q : List Byte) :
    EncodeDefined.Statement (.cmdpkt addr ins q) := by
  by_cases h : (Instr.cmdpkt addr ins q).wellFormed = true
  · have hq : q.length ≤ 253 := by
      have h' := h
      simp only [Instr.wellFormed, Bool.and_eq_true] at h'
      exact of_decide_eq_true h'.1
    simp [EncodeDefined.Statement, encode, h, encodePacket_of_le hq]
  · simp [EncodeDefined.Statement, encode, h]

theorem EncodeDefined.pingpkt (addr : Byte) : EncodeDefined.Statement (.pingpkt addr) := by
  simp [EncodeDefined.Statement, encode, Instr.wellFormed, encodePacket_of_le]

theorem EncodeDefined.rebootpkt (addr : Byte) : EncodeDefined.Statement (.rebootpkt addr) := by
  simp [EncodeDefined.Statement, encode, Instr.wellFormed, encodePacket_of_le]

theorem EncodeDefined.ack : EncodeDefined.Statement .ack := rfl
theorem EncodeDefined.nak : EncodeDefined.Statement .nak := rfl
theorem EncodeDefined.stopLast : EncodeDefined.Statement .stopLast := rfl
theorem EncodeDefined.stopMore : EncodeDefined.Statement .stopMore := rfl
theorem EncodeDefined.magicseq : EncodeDefined.Statement .magicseq := rfl
theorem EncodeDefined.initbyte : EncodeDefined.Statement .initbyte := rfl

end Sys2Proof.Laws
end

