-- ==== Sys2Proof/Tests/Slice0.lean ====
section
/-! SUPPORT. The model's own tests: the checks of `WellFormed`, one word of every row of the table written out from
`30_encoding.md`, small steps with values taken from `95_test_vectors.md`, and for every statement with hypotheses a
concrete state and operands that meet them. -/

namespace Sys2Proof.Tests

open Sys2Proof Sys2Proof.Machine

-- one test after the other: each waits in the kernel, and side by side they take a stack each
set_option Elab.async false

/-! ### Helpers -/

/-- The bytes 0, 1, ..., n - 1. -/
def upTo (n : Nat) : List Byte := (List.range n).map (BitVec.ofNat 8)

/-- Frame F1 of V-FRM, from the listing there. -/
def f1 : List Byte := [0x01, 0xFE, 0x00] ++ upTo 64 ++ [0x6C, 0x14, 0x06]

/-- At `IDLE`, with these buffers. -/
def idleWith (din out : List Byte) : State := { State.reset with din := din, out := out }

/-- Scripted answers of writes, flushes and reads. -/
def script (w f : List Answer) (r : List ReadAnswer) : Oracle :=
  { Oracle.empty with writes := w, flushes := f, reads := r }

/-- In a phase, with F1 in `OUT` and scripted answers. -/
def busy (p : Phase) (w f : List Answer) (r : List ReadAnswer) : State :=
  { idleWith [] f1 with ph := p, oracle := script w f r }

/-- In a phase, with empty buffers and scripted answers. -/
def small (p : Phase) (w f : List Answer) (r : List ReadAnswer) : State :=
  { State.reset with ph := p, oracle := script w f r }

/-- The next state, if there is one. -/
def after (o : Host.Outcome State Fault Refusal) : Option State :=
  match o with
  | .next t => some t
  | .fault _ | .refused _ => none

/-- The response a step delivered last. -/
def lastResponse (o : Host.Outcome State Fault Refusal) : Option (Status × Half) :=
  (after o).bind fun t => t.responses.getLast?.map fun r => (r.status, r.val)

/-! ### Well-formedness: each check refuses an ill-formed term -/

theorem test_wf_frame_short : (Instr.frame 1 0 (upTo 63) true).wellFormed = false := by decide
theorem test_wf_frame_long : (Instr.frame 1 0 (upTo 65) true).wellFormed = false := by decide
theorem test_wf_cmdpkt_long : (Instr.cmdpkt 7 2 (upTo 254)).wellFormed = false := by decide +kernel
theorem test_wf_cmdpkt_ping : (Instr.cmdpkt 7 1 []).wellFormed = false := by decide
theorem test_wf_cmdpkt_reboot : (Instr.cmdpkt 7 8 []).wellFormed = false := by decide
theorem test_wf_cmdpkt_longest : (Instr.cmdpkt 7 2 (upTo 253)).wellFormed = true := by decide +kernel

/-! ### Decoding: a word of every row (R92, R96, R98, R100, R105 to R107, R109) -/

theorem test_decode_crcclr : decodeTableWord 8 0b00000001 = some .crcclr := by decide
theorem test_decode_crcpush : decode (.request { op := 0x02, a := 0xA5 }) = .ok (.crcpush 0xA5) := by decide
theorem test_decode_crc16 : decodeTableWord 8 0b00000011 = some .crc16 := by decide
theorem test_decode_dclr : decodeTableWord 8 0b00010000 = some .dclr := by decide
theorem test_decode_dpush : decode (.request { op := 0x11, a := 0xAA }) = .ok (.dpush 0xAA) := by decide
theorem test_decode_ocpy : decodeTableWord 8 0b00010010 = some .ocpy := by decide
/-- Vector B7: only `b[0]` is looked at. -/
theorem test_decode_ord : decode (.request { op := 0x13, a := 0x01, b := 0xFE }) = .ok (.ord 1) := by decide
/-- Vector B6. -/
theorem test_decode_ord_high : decode (.request { op := 0x13, a := 0x01, b := 0x01 }) = .ok (.ord 257) := by decide
theorem test_decode_rdreg : decode (.request { op := 0x14, a := 0x08 }) = .ok (.rdreg 8) := by decide
/-- Vectors F13 and F14: only `c[0]` is looked at. -/
theorem test_decode_fenc :
    decode (.request { op := 0x20, a := 0x01, c := 0x02 }) = .ok (.fenc 1 0 false) ∧
    decode (.request { op := 0x20, a := 0x01, c := 0x03 }) = .ok (.fenc 1 0 true) := by decide
theorem test_decode_penc : decode (.request { op := 0x30, a := 0x05, b := 0x03 }) = .ok (.penc 5 3) := by decide
theorem test_decode_send : decode (.request { op := 0x40, a := 0x05 }) = .ok (.send 5) := by decide
/-- `t1` is ignored when `c[0] = 0` (R91). -/
theorem test_decode_magic :
    decode (.request { op := 0x50, c := 0x01, t0 := 100, t1 := 1000 }) = .ok (.magic 100 (some 1000)) ∧
    decode (.request { op := 0x50, c := 0xFE, t0 := 100, t1 := 1000 }) = .ok (.magic 100 none) := by decide
theorem test_decode_ping : decodeTableWord 32 0x10300101 = some (.ping 1) := by decide
theorem test_decode_reboot : decodeTableWord 32 0x1030FD08 = some (.reboot 0xFD) := by decide
/-- Frame F1, bit for bit. -/
theorem test_decode_frame : decode (.outbound f1) = .ok (.frame 0x01 0x00 (upTo 64) true) := by decide +kernel
/-- F1 with a wrong checksum byte (program P6) is no frame. -/
theorem test_decode_frame_bad : (decode (.outbound (f1.set 67 0x6D))).isOk = false := by decide +kernel
/-- Vector K8. -/
theorem test_decode_cmdpkt :
    decodeTableWord 72 0xFFFF0505031E0002D2 = some (.cmdpkt 5 3 [0x1E, 0x00, 0x02]) := by decide +kernel
/-- Six parameters, twelve bytes (R100): 0x05 + 0x08 + 0x03 + 0x15 = 0x25, complement 0xDA. -/
theorem test_decode_cmdpkt_twelve_bytes :
    decodeTableWord 96 0xFFFF050803010203040506DA = some (.cmdpkt 5 3 [1, 2, 3, 4, 5, 6]) := by decide +kernel
/-- Vectors K1 and K2. -/
theorem test_decode_pingpkt : decodeTableWord 48 0xFFFF010201FB = some (.pingpkt 1) := by decide +kernel
theorem test_decode_rebootpkt : decodeTableWord 48 0xFFFF010208F4 = some (.rebootpkt 1) := by decide +kernel
theorem test_decode_ack : decode (.inbound [0b00000110]) = .ok .ack := by decide
theorem test_decode_nak : decodeTableWord 8 0b00010101 = some .nak := by decide
theorem test_decode_stopLast : decodeTableWord 8 0b00000100 = some .stopLast := by decide
theorem test_decode_stopMore : decode (.outbound [0b00000110]) = .ok .stopMore := by decide
theorem test_decode_magicseq : decodeTableWord 40 0x3166425641 = some .magicseq := by decide
theorem test_decode_initbyte : decode (.outbound [0x01]) = .ok .initbyte := by decide
/-- R94: the neighbours of assigned codes. -/
theorem test_decode_unassigned : ∀ op ∈ ([0x00, 0x05, 0x0F, 0x1F, 0x21, 0x31, 0x41, 0x51, 0xFF] : List Byte),
    decode (.request { op := op }) = .error (.unassignedOp op) := by decide

/-! ### The words of the table through the interface, run as the first instruction -/

theorem test_fetch_crcclr :
    lastResponse (step (State.reset.withFetchWord 8 0x01)) = some (.ok, 0) := by decide
theorem test_fetch_send_refused :
    lastResponse (step (State.reset.withFetchWord 8 0x40)) = some (.operandError, 0) := by decide
theorem test_fetch_ping :
    (after (step (State.reset.withFetchWord 32 0x10300101))).map (·.out) =
      some [0xFF, 0xFF, 0x01, 0x02, 0x01, 0xFB] := by decide +kernel

/-! ### The CRC unit (V-CRC) -/

/-- Vector 26. -/
theorem test_crcclr :
    (after (exec .crcclr { State.reset with acc := 0x2BF5, cnt := 64 })).map (fun t => (t.acc, t.cnt)) =
      some (0, 0) := by decide
/-- Vector 5. -/
theorem test_crcpush :
    (after (exec (.crcpush 0x02) { State.reset with acc := 0x1021, cnt := 1 })).map (fun t => (t.acc, t.cnt)) =
      some (0x1373, 2) := by decide +kernel
/-- The 65th push. -/
theorem test_crcpush_full :
    (after (exec (.crcpush 0xFF) { State.reset with acc := 0x2BF5, cnt := 64 })).map (fun t => (t.acc, t.cnt)) =
      some (0x2BF5, 64) := by decide +kernel
/-- Vector 15. -/
theorem test_crc16 : lastResponse (exec .crc16 (idleWith (upTo 100) [])) = some (.ok, 0x2BF5) := by
  decide +kernel
/-- Vector 23. -/
theorem test_crc16_short : lastResponse (exec .crc16 (idleWith (upTo 63) [])) = some (.operandError, 0) := by
  decide +kernel

/-! ### The buffers (V-BUF) -/

/-- Vector B8. -/
theorem test_dclr :
    (after (exec .dclr (idleWith [0xAA, 0xBB] [0xAA, 0xBB]))).map (fun t => (t.din, t.out)) =
      some ([], [0xAA, 0xBB]) := by decide
/-- Vector B2. -/
theorem test_dpush :
    (after (exec (.dpush 0xBB) (idleWith [0xAA] []))).map (·.din) = some [0xAA, 0xBB] := by decide
/-- Vector B9. -/
theorem test_dpush_full :
    (after (exec (.dpush 0x00) (idleWith (upTo 255) []))).map (fun t => (t.status, t.din.length)) =
      some (.operandError, 255) := by decide +kernel
/-- Vector B3. -/
theorem test_ocpy :
    (after (exec .ocpy (idleWith [0xAA, 0xBB] [1, 2, 3]))).map (·.out) = some [0xAA, 0xBB] := by decide
/-- Vectors B4 and B6. -/
theorem test_ord :
    lastResponse (exec (.ord 1) (idleWith [] [0xAA, 0xBB])) = some (.ok, 0x00BB) ∧
    lastResponse (exec (.ord 257) (idleWith [] [0xAA, 0xBB])) = some (.operandError, 0) := by decide
/-- Vector B10: the value is `STATUS` as it was, then overwritten. -/
theorem test_rdreg_status :
    (after (exec (.rdreg 0) { State.reset with status := .operandError })).map
      (fun t => (t.responses.getLast?, t.status)) = some (some { status := .ok, val := 0x0007 }, .ok) := by decide
/-- R228: r 5 is `ATT`, and 9 is refused. -/
theorem test_rdreg :
    lastResponse (exec (.rdreg 5) { State.reset with att := 256 }) = some (.ok, 0x0100) ∧
    lastResponse (exec (.rdreg 9) State.reset) = some (.operandError, 0) := by decide

/-! ### The encoders (V-FRM, V-CMD) -/

/-- Vector F1. -/
theorem test_fenc :
    (after (exec (.fenc 0x01 0x00 false) (idleWith (upTo 64) []))).map (fun t => (t.out, t.acc, t.cnt)) =
      some (f1, 0x6C14, 64) := by decide +kernel
/-- Vector F11. -/
theorem test_fenc_long :
    (after (exec (.fenc 1 0 false) (idleWith (upTo 65) [9]))).map (fun t => (t.status, t.out)) =
      some (.operandError, [9]) := by decide +kernel
/-- Vector K9. -/
theorem test_penc :
    (after (exec (.penc 0x80 0x7F) (idleWith [0xFF, 0xFF] []))).map (·.out) =
      some [0xFF, 0xFF, 0x80, 0x04, 0x7F, 0xFF, 0xFF, 0xFE] := by decide +kernel
/-- Vectors K14 and K15. -/
theorem test_penc_bound :
    (after (exec (.penc 7 2) (idleWith (upTo 253) []))).map (fun t => (t.out.length, t.out.getLast?)) =
      some (259, some 0x71) ∧
    lastResponse (exec (.penc 7 2) (idleWith (upTo 254) [])) = some (.operandError, 0) := by decide +kernel
/-- Vector K4. -/
theorem test_ping :
    (after (exec (.ping 0xFD) (idleWith [1] []))).map (fun t => (t.din, t.out, t.responses.length)) =
      some ([], [0xFF, 0xFF, 0xFD, 0x02, 0x01, 0xFF], 2) := by decide +kernel
/-- Vector K7. -/
theorem test_reboot :
    (after (exec (.reboot 0xFD) (idleWith [1] []))).map (·.out) =
      some [0xFF, 0xFF, 0xFD, 0x02, 0x08, 0xF8] := by decide +kernel

/-! ### The sequencers (V-SND, V-MGC) -/

/-- R172. -/
theorem test_send :
    (after (exec (.send 5) (idleWith [] f1))).map (fun t => (t.ph, t.maxr, t.att, t.eidx)) =
      some (.sWrite, 5, 0, 0x01) := by decide +kernel
/-- R71, R291: a reset while the write is not answered leaves a partial frame. -/
theorem test_partial_frame :
    (after (step { busy .sWrite [] [] [] with inputs := [.wait 3] })).map
      (fun t => ((resetInput t).tx, t.att, t.history)) = some ([0x01, 0xFE, 0x00], 1, []) := by decide +kernel
/-- R71, R173: the rest of the 70 bytes leaves when the write is answered, and the attempt is counted once. -/
theorem test_write_goes_on :
    (after (step { busy .sWrite [.done] [] [] with att := 1, writing := some 3, tx := [0x01, 0xFE, 0x00] })).map
      (fun t => (t.tx, t.att, t.writing)) = some (f1, 1, none) := by decide +kernel
/-- R302, R179: a stale 0x06 and a stale 0x07 of two arrivals, read together, are a `FramingError`; RXN 2, RXB the
first. -/
theorem test_two_stale_bytes :
    (after (step { busy .sRead [] [] [.bytes [0x06], .bytes [0x07]] with att := 1, inputs := [.group 2] })).map
      (fun t => ((sRead t).reply, (sRead t).rxn, (sRead t).rxb, (sRead t).oracle.reads)) =
      some (some { status := .framingError, val := 1 }, 2, 0x06, []) := by decide +kernel
/-- R302, R39: read apart, the stale 0x06 is taken as the acknowledgement and the byte behind it stays. -/
theorem test_stale_ack :
    (after (step { busy .sRead [] [] [.bytes [0x06, 0x07]] with att := 1, inputs := [.group 1] })).map
      (fun t => ((sRead t).reply, (sRead t).oracle.reads)) =
      some (some { status := .ok, val := 1 }, [.bytes [0x07]]) := by decide +kernel
/-- R177: after the last permitted NAK there is no resend. -/
theorem test_send_exhausted :
    lastResponse (step { busy .sRead [] [] [.bytes [0x15]] with att := 3, maxr := 2 }) =
      some (.retryExhausted, 3) := by decide +kernel
/-- R197. -/
theorem test_magic :
    (after (exec (.magic 100 (some 0)) State.reset)).map (fun t => (t.ph, t.ivl, t.bnd, t.maxw)) =
      some (.mSetup, 100, true, 0) := by decide
/-- R282, R205: `M_CHECK` awaits no primitive, so a wait does not hold CORE there. -/
theorem test_magic_check_never_waits :
    (after (step { State.reset with ph := .mCheck, inputs := [.wait 0] })).map (·.ph) = some .mWrite := by decide
/-- R212: elapsed 100 meets a deadline of 100. -/
theorem test_magic_deadline :
    lastResponse (step { State.reset with
      ph := .mCheck, bnd := true, maxw := 100, oracle := { Oracle.empty with ticks := [100] } }) =
      some (.timeout, 0) := by decide

/-! ### The wire rows -/

/-- At `IDLE` the host transmits the packet of K1 (R243). -/
theorem test_pingpkt :
    (after (exec (.pingpkt 1) { State.reset with oracle := script [.done] [.done] [] })).map
      (fun t => (t.tx, t.handed)) = some ([0xFF, 0xFF, 0x01, 0x02, 0x01, 0xFB], 6) := by decide +kernel
/-- K2. -/
theorem test_rebootpkt :
    (after (exec (.rebootpkt 1) { State.reset with oracle := script [.done] [.done] [] })).map (·.tx) =
      some [0xFF, 0xFF, 0x01, 0x02, 0x08, 0xF4] := by decide +kernel
/-- K8. -/
theorem test_cmdpkt :
    (after (exec (.cmdpkt 5 3 [0x1E, 0x00, 0x02]) { State.reset with oracle := script [.done] [.done] [] })).map
      (·.tx) = some [0xFF, 0xFF, 0x05, 0x05, 0x03, 0x1E, 0x00, 0x02, 0xD2] := by decide +kernel
/-- R173: in `S_WRITE` the frame in `OUT` is what leaves. -/
theorem test_frame :
    (after (exec (.frame 0x01 0x00 (upTo 64) true) (busy .sWrite [.done] [] []))).map (fun t => (t.tx, t.ph)) =
      some (f1, .sFlush) := by decide +kernel
/-- R176. -/
theorem test_ack :
    lastResponse (exec .ack { busy .sRead [] [] [] with att := 1 }) = some (.ok, 1) := by decide +kernel
/-- R177. -/
theorem test_nak :
    (after (exec .nak { busy .sRead [] [] [] with att := 1, maxr := 1 })).map (fun t => (t.ph, t.rxb)) =
      some (.sWrite, 0x15) := by decide +kernel
/-- R98: F1's marker is 0x06, so 0x06 leaves with it and 0x04 does not. -/
theorem test_stop_markers :
    (after (exec .stopMore (busy .sWrite [.done] [] []))).map (·.tx.getLast?) = some (some 0x06) ∧
    after (exec .stopLast (busy .sWrite [.done] [] [])) = none := by decide +kernel
/-- R198. -/
theorem test_magicseq :
    (after (exec .magicseq (busy .mWrite [.done] [] []))).map (fun t => (t.tx, t.ph)) =
      some ([0x31, 0x66, 0x42, 0x56, 0x41], .mFlush) := by decide +kernel
/-- R244. -/
theorem test_initbyte :
    (after (exec .initbyte { State.reset with oracle := script [.done] [.done] [.bytes [0x06]] })).map
      (fun t => (t.tx, t.host.lastRead)) = some ([0x01], some (.bytes [0x06])) := by decide

/-! ### The host sequences -/

/-- R241: a 130-byte image gives three chunks, with 62 bytes of padding on the third. -/
theorem test_transfer_130 :
    totalChunks (upTo 130) = 3 ∧ chunk (upTo 130) 2 = [0x80, 0x81] ++ List.replicate 62 0xFF := by decide +kernel
/-- R241: the third chunk of three is framed with index 3 and the last flag, and then the session is gone. -/
theorem test_session_last :
    let s : State := { idleWith (upTo 64) [] with
      inputs := [.host .fencChunk],
      host := { State.reset.host with session := some { total := 3, nextIndex := 3, sent := 2 } } }
    (after (step s)).map (fun t => (t.out.head?, t.out.getLast?)) = some (some 0x03, some 0x04) ∧
    (chunkSent s).host.session = none := by decide +kernel
/-- R239: the 255th chunk has index 255 and the 256th index 0. -/
theorem test_session_wraps :
    (chunkSent { State.reset with
      host := { State.reset.host with session := some { total := 300, nextIndex := 255, sent := 254 } } }).host.session =
      some { total := 300, nextIndex := 0, sent := 255 } := by decide +kernel
/-- R237. -/
theorem test_transfer_empty :
    (after (step { State.reset with inputs := transferProgram 100 [] })).map (fun t => (t.tx, t.host.report)) =
      some ([], some { status := .invalidInput, index := none }) := by decide
/-- R243, V-CMD K1: the bytes ORD answers are the packet the host sends. -/
theorem test_collect :
    (after (step { idleWith [] [0xFF, 0xFF] with
      inputs := [.host .collect], reply := some { status := .ok, val := 0x00FB },
      host := { State.reset.host with packet := [0x02, 0x01] } })).map (·.host.packet) =
      some [0x02, 0x01, 0xFB] := by decide
/-- R46, R240: a SEND abandoned by reset is no success, whatever was answered before it. -/
theorem test_abandoned_send_halts :
    (after (step { State.reset with
      inputs := [.host .expectOk, .host .receive], responses := [{ status := .ok, val := 0x6C14 }] })).map
      (·.inputs) = some [] := by decide
/-- R246, R247: a read of any byte adds the address, an error does not. -/
theorem test_noteReply :
    let s : State := { State.reset with host := { State.reset.host with scanning := some [3] } }
    (noteReply 7 { s with host := { s.host with lastRead := some (.bytes [0x00, 0x01]) } }).host.scanning =
      some [3, 7] ∧
    (noteReply 7 { s with host := { s.host with lastRead := some .ioError } }).host.scanning = some [3] := by decide

/-! ### The statements' hypotheses are met -/

theorem witness_CrcclrClearsAccumulator :
    ({ op := 0x01 } : Request).op = 0x01 ∧ State.reset.ph = .idle := by decide

theorem witness_CrcpushAbsorbsUntilWindowFull :
    ({ op := 0x02, a := 7 } : Request).op = 0x02 ∧
    (∃ s : State, s.ph = .idle ∧ s.cnt.toNat < 64 ∧ s.cnt = 63) ∧
    (∃ s : State, s.ph = .idle ∧ 64 ≤ s.cnt.toNat ∧ s.cnt = 64) :=
  ⟨by decide, ⟨{ State.reset with cnt := 63 }, by decide⟩, ⟨{ State.reset with cnt := 64 }, by decide⟩⟩

theorem witness_Crc16ChecksumsDinOrRefuses :
    ({ op := 0x03 } : Request).op = 0x03 ∧
    (idleWith (upTo 64) []).ph = .idle ∧ 64 ≤ (idleWith (upTo 64) []).din.length ∧
    (idleWith (upTo 63) []).ph = .idle ∧ (idleWith (upTo 63) []).din.length < 64 := by decide +kernel

theorem witness_ChecksumIgnoresBytesPastWindow : 64 ≤ (upTo 64).length ∧ (63 : Nat) < 64 := by decide

theorem witness_StreamedPushesEqualCrc16 :
    (idleWith (upTo 64) []).ph = .idle ∧ 64 ≤ (idleWith (upTo 64) []).din.length := by decide

theorem witness_DclrEmptiesDin : ({ op := 0x10 } : Request).op = 0x10 ∧ (idleWith [1] []).ph = .idle := by decide

theorem witness_DpushAppendsOrRefusesWhenFull :
    ({ op := 0x11, a := 7 } : Request).op = 0x11 ∧
    (idleWith (upTo 254) []).ph = .idle ∧ (idleWith (upTo 254) []).din.length < 255 ∧
    (idleWith (upTo 255) []).ph = .idle ∧ 255 ≤ (idleWith (upTo 255) []).din.length := by decide +kernel

theorem witness_OcpyCopiesDinToOut :
    ({ op := 0x12 } : Request).op = 0x12 ∧ (idleWith [1] [2, 3]).ph = .idle := by decide

theorem witness_OrdReadsOutOrRefuses :
    ({ op := 0x13, a := 1, b := 1 } : Request).op = 0x13 ∧ (idleWith [] [8, 9]).ph = .idle ∧
    (idleWith [] [8, 9]).out[(1 : BitVec 9).toNat]? = some 9 ∧
    (idleWith [] [8, 9]).out.length ≤ (2 : BitVec 9).toNat := by decide

theorem witness_RdregReadsNineRegisters :
    ({ op := 0x14, a := 8 } : Request).op = 0x14 ∧ State.reset.ph = .idle ∧ Memory.wf State.reset ∧
    8 < (9 : Byte).toNat ∧
    ((8 : Byte), State.reset.eidx.setWidth 16) ∈
      ([(0, State.reset.status.code.setWidth 16), (8, State.reset.eidx.setWidth 16)] : List (Byte × Half)) := by
  decide

theorem witness_FencEncodesFrameOrRefuses :
    ({ op := 0x20, a := 1, c := 1 } : Request).op = 0x20 ∧
    (idleWith (upTo 64) []).ph = .idle ∧ (idleWith (upTo 64) []).din.length = 64 ∧
    (idleWith (upTo 63) []).din.length ≠ 64 ∧ (idleWith (upTo 65) []).din.length ≠ 64 := by decide +kernel

theorem witness_EncodedFrameInvariants :
    (idleWith (upTo 64) []).ph = .idle ∧ (idleWith (upTo 64) []).din.length = 64 := by decide

theorem witness_ChecksumIgnoresLastThreePayloadBytes :
    (idleWith (upTo 64) []).din.length = 64 ∧
    (idleWith (upTo 61 ++ [0xDE, 0xAD, 0xBE]) []).din.length = 64 ∧
    (idleWith (upTo 64) []).din.take 61 = (idleWith (upTo 61 ++ [0xDE, 0xAD, 0xBE]) []).din.take 61 ∧
    (idleWith (upTo 64) []).ph = .idle ∧ (idleWith (upTo 61 ++ [0xDE, 0xAD, 0xBE]) []).ph = .idle := by
  decide +kernel

theorem witness_PencEncodesPacketOrRefuses :
    ({ op := 0x30, a := 1, b := 1 } : Request).op = 0x30 ∧ (idleWith (upTo 253) []).ph = .idle ∧
    (idleWith (upTo 253) []).din.length ≤ 253 ∧ 253 < (idleWith (upTo 254) []).din.length := by decide +kernel

theorem witness_PacketBytesSumToFF :
    (idleWith (upTo 253) []).ph = .idle ∧ (idleWith (upTo 253) []).din.length ≤ 253 := by decide +kernel

theorem witness_PingAndRebootLeavePackets : (idleWith [1] [2]).ph = .idle := by decide

theorem witness_PseudoOperationEqualsItsTwoRequests :
    State.reset.ph = .idle ∧ ((0x08 : Byte) = 0x01 ∨ (0x08 : Byte) = 0x08) ∧ dclrRequest.op = 0x10 ∧
    (pencRequest 1 8).op = 0x30 ∧ (pencRequest 1 8).a = 1 ∧ (pencRequest 1 8).b = 8 := by decide

theorem witness_SendLatchesOrRefuses :
    ({ op := 0x40, a := 5 } : Request).op = 0x40 ∧ (idleWith [] f1).ph = .idle ∧
    (idleWith [] f1).out = 0x01 :: f1.tail ∧ (idleWith [] f1).out.length = 70 ∧
    (idleWith [] (upTo 69)).out.length ≠ 70 := by decide +kernel

/-- A write not begun, one under way, and a wait. -/
theorem witness_SendWritePhase :
    (∀ a ∈ [Answer.done, .ioError], ∀ w ∈ [none, some 3],
      let s : State := { busy .sWrite [a] [] [] with writing := w }
      s.ph = .sWrite ∧ s.out.length = 70 ∧ s.inputs = [] ∧ s.oracle.writes = a :: []) ∧
    ({ busy .sWrite [] [] [] with inputs := [.wait 3] } : State).inputs = .wait 3 :: [] := by
  decide +kernel

theorem witness_SendFlushPhase :
    ∀ a ∈ [Answer.done, .ioError],
      (busy .sFlush [] [a] []).ph = .sFlush ∧ (busy .sFlush [] [a] []).inputs = [] ∧
      (busy .sFlush [] [a] []).oracle.flushes = a :: [] ∧
      (busy .sFlush [] [a] []).handed ≤ (busy .sFlush [] [a] []).tx.length := by decide +kernel

/-- Answers of at most two bytes are admissible whatever `RXCAP` is. -/
theorem admissible_of_le_two {r : ReadAnswer} (h : ∀ l, r = .bytes l → l.length ≤ 2) :
    ReadAnswer.Admissible r := fun l hl => Nat.le_add_left_of_le (h l hl)

/-- One answer of each class of R175: the two errors, no byte, two bytes, ACK, NAK, another byte. -/
theorem witness_SendReadPhase :
    (∀ r ∈ [ReadAnswer.timeout, .ioError, .bytes [], .bytes [0x06, 0x06], .bytes [0x06], .bytes [0x15],
        .bytes [0x07]],
      (busy .sRead [] [] [r]).ph = .sRead ∧ (busy .sRead [] [] [r]).inputs = [] ∧
      (busy .sRead [] [] [r]).oracle.reads = r :: []) ∧
    ReadAnswer.Admissible (.bytes [0x06, 0x06]) ∧
    (0x07 : Byte) ≠ 0x06 ∧ (0x07 : Byte) ≠ 0x15 ∧
    (busy .sRead [] [] []).att.toNat ≤ (busy .sRead [] [] []).maxr.toNat ∧
    ({ busy .sRead [] [] [] with att := 1 } : State).maxr.toNat <
      ({ busy .sRead [] [] [] with att := 1 } : State).att.toNat := by
  refine ⟨by decide +kernel, admissible_of_le_two (fun l h => ?_), by decide, by decide, by decide +kernel,
    by decide +kernel⟩
  cases h
  decide

/-- A bound of 1 with one NAK (success) and with two (exhausted). -/
theorem witness_SendNakThenAckProperty :
    ∀ k ∈ [1, 2],
      let s : State := { idleWith [] f1 with
        oracle := script (List.replicate 2 .done) (List.replicate 2 .done)
          (List.replicate k (.bytes [0x15]) ++ [.bytes [0x06]]) }
      s.ph = .idle ∧ s.out.length = 70 ∧ 2 = min k (1 : Byte).toNat + 1 ∧
      s.oracle.writes = List.replicate 2 .done ++ [] ∧ s.oracle.flushes = List.replicate 2 .done ++ [] ∧
      s.oracle.reads = List.replicate k (.bytes [0x15]) ++ .bytes [0x06] :: [] := by decide +kernel

theorem witness_SendCompletesWithinBound :
    (busy .sWrite [] [] []).ph = .sWrite ∧ (busy .sWrite [] [] []).inputs = [] ∧
    1 = (if (busy .sWrite [] [] []).writing = none then (busy .sWrite [] [] []).att.toNat + 1
      else (busy .sWrite [] [] []).att.toNat) ∧ 1 ≤ (busy .sWrite [] [] []).maxr.toNat + 1 := by decide +kernel

theorem witness_SendStepsKeepFrame :
    ∃ s t : State, s.ph.sending = true ∧ s.inputs.head? ≠ some .reset ∧ step s = .next t ∧ t.ph = .sRead :=
  ⟨small .sFlush [] [.done] [], _, by decide, by decide, rfl, rfl⟩

theorem witness_MagicLatchesOperands :
    ({ op := 0x50, c := 1 } : Request).op = 0x50 ∧ State.reset.ph = .idle := by decide

theorem witness_MagicSetupPhase :
    ∀ a ∈ [Answer.done, .ioError],
      let s : State := { State.reset with
        ph := .mSetup, oracle := { Oracle.empty with sets := [a], ticks := [5] } }
      s.ph = .mSetup ∧ s.inputs = [] ∧ s.oracle.sets = a :: [] ∧ s.oracle.ticks = 5 :: [] := by decide

theorem witness_MagicWriteAndFlushPhases :
    (∀ a ∈ [Answer.done, .ioError],
      (busy .mWrite [a] [] []).inputs = [] ∧ (busy .mWrite [a] [] []).ph = .mWrite ∧
      (busy .mWrite [a] [] []).oracle.writes = a :: [] ∧
      (busy .mFlush [] [a] []).inputs = [] ∧ (busy .mFlush [] [a] []).ph = .mFlush ∧
      (busy .mFlush [] [a] []).oracle.flushes = a :: [] ∧
      (busy .mFlush [] [a] []).handed ≤ (busy .mFlush [] [a] []).tx.length) ∧
    ({ busy .mWrite [] [] [] with inputs := [.wait 9] } : State).inputs = .wait 9 :: [] := by decide +kernel

theorem witness_MagicReadPhase :
    (∀ r ∈ [ReadAnswer.bytes [0x06], .timeout, .ioError, .bytes [], .bytes [0x15], .bytes [0x06, 0x06]],
      (busy .mRead [] [] [r]).ph = .mRead ∧ (busy .mRead [] [] [r]).inputs = [] ∧
      (busy .mRead [] [] [r]).oracle.reads = r :: []) ∧
    ReadAnswer.Admissible (.bytes [0x06, 0x06]) ∧ ReadAnswer.bytes [0x06, 0x06] ≠ .bytes [0x06] := by
  refine ⟨by decide +kernel, admissible_of_le_two (fun l h => ?_), by decide⟩
  cases h
  decide

/-- Elapsed 100 meets a deadline of 100; elapsed 99 does not. -/
theorem witness_MagicCheckPhase :
    ∃ s : State, s.ph = .mCheck ∧ s.inputs = [] ∧ s.bnd = true ∧ s.oracle.ticks = [100] ∧
      s.maxw.toNat ≤ s.clock + 100 - s.t0 ∧ s.clock + 99 - s.t0 < s.maxw.toNat ∧
      ({ s with bnd := false } : State).bnd = false :=
  ⟨{ State.reset with ph := .mCheck, bnd := true, maxw := 100, oracle := { Oracle.empty with ticks := [100] } },
    by decide⟩

/-- Without a deadline, and with one of 101 after one timeout of 100. -/
theorem witness_MagicSucceedsAfterTimeouts :
    let s : State := { State.reset with oracle := { Oracle.empty with
      sets := [.done], writes := [.done, .done], flushes := [.done, .done],
      reads := [.timeout, .bytes [0x06]], ticks := [5, 0] } }
    s.ph = .idle ∧ s.oracle.sets = .done :: [] ∧ s.oracle.writes = List.replicate (1 + 1) .done ++ [] ∧
    s.oracle.flushes = List.replicate (1 + 1) .done ++ [] ∧
    s.oracle.reads = List.replicate 1 .timeout ++ .bytes [0x06] :: [] ∧
    s.oracle.ticks = 5 :: [0] ++ [] ∧ ([0] : List Nat).length = 1 ∧
    1 * (100 : Ticks).toNat + ([0] : List Nat).sum < (101 : Ticks).toNat := by decide

/-- A deadline of 0 (one iteration) and of 250 at an interval of 100 (three). -/
theorem witness_BoundedMagicTimesOut :
    ∀ p ∈ [((0 : Ticks), 1), (250, 3)],
      let s : State := { State.reset with
        ph := .mWrite, bnd := true, ivl := 100, rto := 100, maxw := p.1,
        oracle := script (List.replicate p.2 .done) (List.replicate p.2 .done) (List.replicate p.2 .timeout) }
      s.ph = .mWrite ∧ s.inputs = [] ∧ s.bnd = true ∧ 0 < s.ivl.toNat ∧ s.rto = s.ivl ∧ s.t0 ≤ s.clock ∧
      p.2 = max 1 ((s.maxw.toNat + s.ivl.toNat - 1) / s.ivl.toNat) ∧
      s.oracle.writes = List.replicate p.2 .done ++ [] ∧ s.oracle.flushes = List.replicate p.2 .done ++ [] ∧
      s.oracle.reads = List.replicate p.2 .timeout ++ [] := by decide

theorem witness_UnboundedMagicLeavesOnlyOnAckOrError :
    ∃ s t : State, s.ph.looping = true ∧ s.bnd = false ∧ s.inputs.head? ≠ some .reset ∧ step s = .next t ∧
      t.ph.looping = false :=
  ⟨small .mRead [] [] [.bytes [0x06]], _, by decide, by decide, by decide, rfl, rfl⟩

theorem witness_MagicStepsKeepBuffers :
    ∃ s t : State, (s.ph = .mSetup ∨ s.ph.looping = true) ∧ s.inputs.head? ≠ some .reset ∧ step s = .next t :=
  ⟨small .mRead [] [] [.timeout], _, by decide, by decide, rfl⟩

theorem witness_HostTransfersWireRows :
    ∃ s : State, encode (.pingpkt 1) = some (.outbound [0xFF, 0xFF, 0x01, 0x02, 0x01, 0xFB]) ∧
      Instr.pingpkt 1 ≠ .initbyte ∧ s.ph = .idle ∧ s.oracle.writes = .done :: [] ∧
      s.oracle.flushes = .done :: [] :=
  ⟨{ State.reset with oracle := script [.done] [.done] [] }, by decide +kernel⟩

theorem witness_CoreEmitsWireRowsInItsPhases :
    (busy .sWrite [] [] []).inputs = [] ∧ (busy .sWrite [] [] []).ph = .sWrite ∧
    encode (.frame 0x01 0x00 (upTo 64) true) = some (.outbound (busy .sWrite [] [] []).out) ∧
    (busy .sWrite [] [] []).out[69]? = some 0x06 ∧
    ({ busy .sWrite [] [] [] with out := f1.set 69 0x04 } : State).out[69]? = some 0x04 ∧
    (busy .mWrite [] [] []).ph = .mWrite ∧ (busy .mCheck [] [] []).ph = .mCheck ∧ (upTo 64).length = 64 := by
  decide +kernel

theorem witness_AckAndNakArrivals :
    State.reset.ph ≠ .sRead ∧ State.reset.ph ≠ .mRead ∧
    (busy .sRead [] [] []).oracle.reads = [] ∧ (busy .sRead [] [] []).ph = .sRead ∧
    (busy .sRead [] [] []).att.toNat ≤ (busy .sRead [] [] []).maxr.toNat ∧
    ({ busy .sRead [] [] [] with att := 1 } : State).maxr.toNat <
      ({ busy .sRead [] [] [] with att := 1 } : State).att.toNat ∧
    (busy .mRead [] [] []).oracle.reads = [] ∧ (busy .mRead [] [] []).ph = .mRead ∧
    (busy .sRead [] [] [.timeout]).oracle.reads = .timeout :: [] ∧
    (busy .mRead [] [] [.timeout]).oracle.reads = .timeout :: [] ∧
    (let s : State := { busy .sRead [] [] [.bytes [6], .bytes [7]] with inputs := [.group 2, .quiet] }
     s.ph = .sRead ∧ s.oracle.reads = .bytes [6] :: .bytes [7] :: [] ∧ s.inputs = .group 2 :: .quiet :: [] ∧
     s.oracle.reads = [[6], [7]].map ReadAnswer.bytes ∧ [] ∉ [[(6 : Byte)], [7]] ∧ 0 < 2) := by decide +kernel

theorem witness_InitbyteExchange :
    (∀ r ∈ [ReadAnswer.bytes [0x06], .timeout],
      let s : State := { State.reset with oracle := script [.done] [.done] [r] }
      s.ph = .idle ∧ s.oracle.writes = .done :: [] ∧ s.oracle.flushes = .done :: [] ∧
      s.oracle.reads = r :: []) ∧
    ReadAnswer.Admissible (.bytes [0x06]) ∧ ReadAnswer.Admissible .timeout := by
  refine ⟨by decide, admissible_of_le_two (fun l h => ?_), fun l h => nomatch h⟩
  cases h
  decide

theorem witness_StepRunsTheDecodedInstruction :
    ∃ s : State, decode (.request { op := 0x11, a := 7 }) = .ok (.dpush 7) ∧
      s.inputs = inputOf (.request { op := 0x11, a := 7 }) :: [.quiet] ∧
      ((inputOf (.request { op := 0x11, a := 7 })).fromHost = true → s.ph = .idle) :=
  ⟨{ State.reset with inputs := [.host (.request { op := 0x11, a := 7 }), .quiet] }, by decide⟩

theorem witness_UnassignedOpIsRefused :
    ∀ op ∈ ([0x00, 0x04, 0x51, 0xFF] : List Byte),
      let s : State := { State.reset with inputs := [.host (.request { op := op })] }
      s.ph = .idle ∧ s.inputs = .host (.request { op := op }) :: [] ∧
      op ∉ ([0x01, 0x02, 0x03, 0x10, 0x11, 0x12, 0x13, 0x14, 0x20, 0x30, 0x40, 0x50] : List Byte) := by decide

theorem witness_HostIsHeldWhileBusy :
    (busy .sFlush [] [.done] []).ph ≠ .idle ∧
    ({ busy .sFlush [] [.done] [] with inputs := [.host .receive] } : State).inputs = .host .receive :: [] ∧
    ({ busy .sFlush [] [.done] [] with inputs := [.wait 0] } : State).inputs = .wait 0 :: [] ∧
    (busy .sFlush [] [.done] []).ph ≠ .mCheck ∧
    (busy .mCheck [] [] []).ph = .mCheck ∧
    ({ busy .mCheck [] [] [] with inputs := [.wait 0] } : State).inputs = .wait 0 :: [] := by
  decide

theorem witness_ResetAbandonsInAnyPhase :
    ({ busy .sRead [] [] [] with inputs := [.reset, .quiet] } : State).inputs = .reset :: [.quiet] := by decide

/-- The invariant holds in the middle of a SEND, and the step goes on. -/
theorem witness_StepKeepsInvariant :
    ∃ s t : State, Inv s ∧ s.ph = .sRead ∧ step s = .next t := by
  refine ⟨{ busy .sRead [] [] [.bytes [0x15]] with
    att := 1, maxr := 1, eidx := 0x01, history := [{ who := .core, deed := .flush .done }] }, _,
    ⟨?_, ?_, ?_, ?_, ?_, ?_, ?_, ?_, ?_, ?_, ?_⟩, rfl, rfl⟩
  · decide +kernel
  · decide +kernel
  · decide +kernel
  · decide +kernel
  · decide +kernel
  · exact ⟨by decide, by decide, by decide⟩
  · decide +kernel
  · decide +kernel
  · exact nofun
  · exact fun _ => rfl
  · exact ⟨by decide, by decide, by decide⟩

theorem witness_DecodeOfEncodeIsIdentity :
    (Instr.frame 1 0 (upTo 64) true).wellFormed = true ∧
    (Instr.cmdpkt 0xFF 0x01 [0xFF]).wellFormed = true ∧ (Instr.ord 511).wellFormed = true := by decide

theorem witness_PhaseMovesAlongListedTransitions :
    ∃ s t : State, step s = .next t ∧ s.inputs.head? ≠ some .reset ∧ s.ph ≠ t.ph :=
  ⟨small .sFlush [] [.done] [], _, rfl, by decide, nofun⟩

theorem witness_StatusKindsPerOperation :
    State.reset.ph = .idle ∧
    (∃ s t : State, s.ph ≠ .idle ∧ s.inputs.head? ≠ some .reset ∧ step s = .next t ∧ t.ph = .idle ∧
      s.ph.sending = true) ∧
    (∃ s t : State, s.ph ≠ .idle ∧ s.inputs.head? ≠ some .reset ∧ step s = .next t ∧ t.ph = .idle ∧
      s.ph.sending = false) :=
  ⟨by decide, ⟨small .sRead [] [] [.timeout], _, nofun, by decide, rfl, rfl, rfl⟩,
    ⟨small .mRead [] [] [.ioError], _, nofun, by decide, rfl, rfl, rfl⟩⟩

theorem witness_OnlyCrcOperationsWriteCrcRegisters :
    ∃ s t : State, exec .dclr s = .next t ∧ (∀ b, Instr.dclr ≠ .crcpush b) ∧
      (∀ a r l, Instr.dclr ≠ .fenc a r l) ∧ Instr.dclr ≠ .crcclr ∧ Instr.dclr ≠ .crc16 :=
  ⟨State.reset, _, rfl, nofun, nofun, nofun, nofun⟩

theorem witness_OnlyListedOperationsWriteBuffers :
    ∃ s t : State, exec .crcclr s = .next t ∧ (∀ a, Instr.crcclr ≠ .ping a) ∧ (∀ a, Instr.crcclr ≠ .reboot a) ∧
      Instr.crcclr ≠ .dclr ∧ (∀ b, Instr.crcclr ≠ .dpush b) ∧ Instr.crcclr ≠ .ocpy ∧
      (∀ a k, Instr.crcclr ≠ .penc a k) ∧ (∀ a r l, Instr.crcclr ≠ .fenc a r l) :=
  ⟨State.reset, _, rfl, nofun, nofun, nofun, nofun, nofun, nofun, nofun⟩

theorem witness_OnlySequencersWriteTheirRegisters :
    ∃ s t : State, s.ph = .idle ∧ exec .dclr s = .next t ∧ (∀ m, Instr.dclr ≠ .send m) ∧
      (∀ n w, Instr.dclr ≠ .magic n w) :=
  ⟨State.reset, _, rfl, rfl, nofun, nofun⟩

theorem witness_HistoryIsNeverRead :
    ∃ s t : State, step s = .next t ∧ t.history = s.history ++ [{ who := .core, deed := .flush .done }] :=
  ⟨small .sFlush [] [.done] [], _, rfl, rfl⟩

theorem witness_StreamHasOneOwner :
    ∃ s t : State, step s = .next t ∧ s.ph = .idle ∧
      t.history = s.history ++ [{ who := .host, deed := .read .timeout }] :=
  ⟨{ State.reset with inputs := [.host .receive], oracle := script [] [] [.timeout] }, _, rfl, rfl, rfl⟩

theorem witness_ClockNeverGoesBack :
    ∃ s t : State, step s = .next t ∧
      t.history = s.history ++ [] ++ { who := .core, deed := .read .timeout } :: [] :=
  ⟨small .sRead [] [] [.timeout], _, rfl, rfl⟩

theorem witness_TransferChunksTheImage :
    (upTo 65) ≠ [] ∧ 1 < totalChunks (upTo 65) ∧ ¬ 2 < totalChunks (upTo 65) ∧ ¬ 1 < totalChunks (upTo 64) ∧
    (∀ a ∈ [HostOp.openSession 2, .fencChunk, .chunkSent],
      let s : State := { idleWith (upTo 64) [] with
        inputs := [.host a],
        host := { State.reset.host with session := some { total := 2, nextIndex := 2, sent := 1 } } }
      s.ph = .idle ∧ s.inputs = .host a :: [] ∧
      s.host.session = some { total := 2, nextIndex := 2, sent := 1 }) := by
  decide +kernel

/-- Two chunks. -/
theorem witness_TransferSendsTheImage :
    let s : State := { State.reset with
      inputs := transferProgram 100 (upTo 65),
      oracle := { script (List.replicate 2 .done) (List.replicate 2 .done)
        (List.replicate 2 (.bytes [0x06])) with sets := [.done] } }
    s.ph = .idle ∧ upTo 65 ≠ [] ∧ 2 = totalChunks (upTo 65) ∧ s.inputs = transferProgram 100 (upTo 65) ∧
    s.oracle.sets = .done :: [] ∧ s.oracle.writes = List.replicate 2 .done ++ [] ∧
    s.oracle.flushes = List.replicate 2 .done ++ [] ∧
    s.oracle.reads = List.replicate 2 (.bytes [0x06]) ++ [] :=
  ⟨rfl, by decide, by decide, rfl, rfl, rfl, rfl, rfl⟩

theorem witness_ScanProbesEachAddressOnce :
    (∀ a ∈ [HostOp.beginScan, .noteReply 7, .endScan],
      let s : State := { State.reset with
        inputs := [.host a],
        host := { State.reset.host with scanning := some [3], lastRead := some (.bytes [0x00]) } }
      s.ph = .idle ∧ s.inputs = .host a :: [] ∧ s.host.scanning = some [3] ∧
      s.host.lastRead = some (.bytes (0x00 :: []))) ∧
    State.reset.host.scanning = none ∧ ∃ s t : State, step s = .next t :=
  ⟨by decide, rfl, State.reset, _, rfl⟩

theorem witness_FirstFailureEndsTheSession :
    ∀ r ∈ [some { status := .ok, val := 1 }, some { status := .timeout, val := 1 }, (none : Option Response)],
      let s : State := { State.reset with
        inputs := [.host .expectOk, .peer [1], .host .receive], reply := r }
      s.ph = .idle ∧ s.inputs = .host .expectOk :: [.peer [1], .host .receive] ∧ s.reply = r := by decide

end Sys2Proof.Tests
end

section
/-! PROOF. What executing an instruction can do, said once: an operation answered at once, SEND or MAGIC accepted, a
use of the stream by the host's path, a writing phase of CORE, an arrival; and what a step at `IDLE` can be. -/

namespace Sys2Proof.Machine

/-! ### What an operation answered at once does -/

/-- The operations that may write `ACC` and `CNT` (R22, R306). -/
def writesCrc : Instr → Prop
  | .crcclr | .crcpush _ | .crc16 | .fenc _ _ _ => True
  | .dclr | .dpush _ | .ocpy | .ord _ | .rdreg _ | .penc _ _ | .send _ | .magic _ _ | .ping _ | .reboot _
  | .frame _ _ _ _ | .cmdpkt _ _ _ | .pingpkt _ | .rebootpkt _ | .ack | .nak | .stopLast | .stopMore
  | .magicseq | .initbyte => False

/-- What an operation answered at once does to `s`: it responds, and writes `DIN`, `OUT` and, where `c` lets it, the
CRC registers, each within its bounds. -/
inductive Answers (c : Prop) (s : State) : State → Prop
  | start : Answers c s s
  | respond {u : State} {k : Status} {v : Half} (h : Answers c s u) (hk : k = .ok ∨ k = .operandError) :
      Answers c s (respond k v u)
  | clearDin {u : State} (h : Answers c s u) : Answers c s (clearDin u)
  | appendDin {u : State} {b : Byte} (h : Answers c s u) (hl : u.din.length < cfg.dinCap) :
      Answers c s (appendDin b u)
  | writeOut {u : State} {l : List Byte} (h : Answers c s u) (hl : Memory.wf u → Memory.wf (writeOut l u)) :
      Answers c s (writeOut l u)
  | setCrc {u : State} {k : Half} {n : BitVec 7} (h : Answers c s u) (hc : c) (hn : n.toNat ≤ cfg.crcWindow)
      (h0 : n = 0 → k = cfg.crcInit) : Answers c s (setCrc k n u)

theorem Answers.refuse {c : Prop} (s : State) : Answers c s (refuse s) := .respond .start (.inr rfl)

theorem Answers.completeOk {c : Prop} {s u : State} (v : Half) (h : Answers c s u) :
    Answers c s (completeOk v u) := .respond h (.inl rfl)

/-- Answering changes nothing outside `STATUS`, the responses, the buffers, the CRC registers and `PH`. -/
theorem Answers.frame {c : Prop} {s t : State} (h : Answers c s t) :
    t = { s with
      status := t.status, acc := t.acc, cnt := t.cnt, din := t.din, out := t.out, ph := t.ph,
      responses := t.responses, reply := t.reply } := by
  induction h with
  | start => rfl
  | respond _ _ ih | clearDin _ ih | appendDin _ _ ih | writeOut _ _ ih | setCrc _ _ _ _ ih => rw [ih]; rfl

/-- At `IDLE` it stays at `IDLE`. -/
theorem Answers.idle {c : Prop} {s t : State} (h : Answers c s t) (hi : s.ph = .idle) : t.ph = .idle := by
  induction h with
  | start => exact hi
  | respond => rfl
  | clearDin _ ih | appendDin _ _ ih | writeOut _ _ ih | setCrc _ _ _ _ ih => exact ih

/-- Without leave to write the CRC registers they stay. -/
theorem Answers.crc_same {c : Prop} {s t : State} (h : Answers c s t) (hc : ¬ c) :
    t.acc = s.acc ∧ t.cnt = s.cnt := by
  induction h with
  | start => exact ⟨rfl, rfl⟩
  | respond _ _ ih | clearDin _ ih | appendDin _ _ ih | writeOut _ _ ih => exact ih
  | setCrc _ h => exact absurd h hc

/-! ### Everything an instruction can do -/

/-- SEND accepted: the latches, and `S_WRITE` with no write begun (R172). -/
def sendAccepted (maxr b : Byte) (s : State) : State :=
  { s with maxr := maxr, att := 0, eidx := b, ph := .sWrite, writing := none, reply := none }

/-- MAGIC accepted: the latches, and `M_SETUP` (R196, R211). -/
def magicAccepted (ivl : Ticks) (maxWait : Option Ticks) (s : State) : State :=
  { s with
    ivl := ivl, bnd := maxWait.isSome, maxw := maxWait.getD s.maxw, ph := .mSetup, writing := none, reply := none }

/-- Nothing but the environment and the host's own state differs, and flushes have handed over no more than was
sent. -/
def OnlyEnvironmentDiffers (s t : State) : Prop :=
  t = { s with
    rto := t.rto, clock := t.clock, tx := t.tx, handed := t.handed, history := t.history, oracle := t.oracle
    inputs := t.inputs, host := t.host } ∧
  (s.handed ≤ s.tx.length → t.handed ≤ t.tx.length)

/-- The start of INITBYTE's exchange: the host forgets its last read (R244). -/
def forgetRead (s : State) : State := { s with host := { s.host with lastRead := none } }

/-- Everything an executed instruction can do. -/
inductive Executed (i : Instr) (s : State) : State → Prop
  | answered {t : State} (hp : s.ph = .idle) (h : Answers (writesCrc i) s t) : Executed i s t
  | send (maxr b : Byte) (hi : i = .send maxr) (hp : s.ph = .idle) (hl : s.out.length = cfg.frameLen)
      (hb : s.out.head? = some b) : Executed i s (sendAccepted maxr b s)
  | magic (ivl : Ticks) (maxWait : Option Ticks) (hi : i = .magic ivl maxWait) (hp : s.ph = .idle) :
      Executed i s (magicAccepted ivl maxWait s)
  | transmitted (l : List Byte) (hp : s.ph = .idle) : Executed i s (hostTransmit l s)
  | exchangeFailed (l : List Byte) (hp : s.ph = .idle) : Executed i s (hostTransmit l (forgetRead s))
  | exchanged (l : List Byte) (hp : s.ph = .idle) : Executed i s (hostReceive (hostTransmit l (forgetRead s)))
  | written (hp : s.ph = .sWrite ∨ s.ph = .mWrite) : Executed i s (runPhase s)
  | arrived (l : List Byte) : Executed i s (peerSends l s)

/-! ### Operations answered at once, one lemma an operation -/

/-- The window counts on below 64 and never back to 0. -/
theorem crcAbsorb_cases (k : Half) (n : BitVec 7) (b : Byte) :
    crcAbsorb k n b = (k, n) ∨
      ∃ k', crcAbsorb k n b = (k', n + 1) ∧ (n + 1).toNat ≤ cfg.crcWindow ∧ n + 1 ≠ 0 := by
  unfold crcAbsorb
  split
  · rename_i h
    simp at h
    exact .inr ⟨_, rfl, by simp; omega, by bv_omega⟩
  · exact .inl rfl

section
variable {s t : State}

theorem execCrcclr_executed (h : execCrcclr s = .next t) : Executed .crcclr s t := by
  obtain ⟨hp, h⟩ := whenIdle_next h
  cases h
  exact .answered hp (.completeOk 0 (.setCrc .start trivial (by decide) fun _ => rfl))

theorem execCrcpush_executed {b : Byte} (h : execCrcpush b s = .next t) : Executed (.crcpush b) s t := by
  obtain ⟨hp, h⟩ := whenIdle_next h
  cases h
  refine .answered hp (.completeOk 0 ?_)
  rcases crcAbsorb_cases s.acc s.cnt b with h | ⟨k, h, hn, h0⟩ <;> rw [h]
  · exact .start
  · exact .setCrc .start trivial hn fun h => absurd h h0

theorem execCrc16_executed (h : execCrc16 s = .next t) : Executed .crc16 s t := by
  obtain ⟨hp, h⟩ := whenIdle_next h
  split at h <;> cases h
  · exact .answered hp (.completeOk _ (.setCrc .start trivial (by decide) nofun))
  · exact .answered hp (.refuse s)

theorem execDclr_executed (h : execDclr s = .next t) : Executed .dclr s t := by
  obtain ⟨hp, h⟩ := whenIdle_next h
  cases h
  exact .answered hp (.completeOk 0 (.clearDin .start))

theorem execDpush_executed {b : Byte} (h : execDpush b s = .next t) : Executed (.dpush b) s t := by
  obtain ⟨hp, h⟩ := whenIdle_next h
  by_cases hl : s.din.length < cfg.dinCap <;> simp only [checked, hl, decide_true, decide_false] at h <;> cases h
  · exact .answered hp (.completeOk 0 (.appendDin .start hl))
  · exact .answered hp (.refuse s)

theorem execOcpy_executed (h : execOcpy s = .next t) : Executed .ocpy s t := by
  obtain ⟨hp, h⟩ := whenIdle_next h
  cases h
  exact .answered hp (.completeOk 0 (.writeOut .start wf_copyOut))

theorem execOrd_executed {i : BitVec 9} (h : execOrd i s = .next t) : Executed (.ord i) s t := by
  obtain ⟨hp, h⟩ := whenIdle_next h
  split at h <;> cases h
  · exact .answered hp (.completeOk _ .start)
  · exact .answered hp (.refuse s)

theorem execRdreg_executed {r : Byte} (h : execRdreg r s = .next t) : Executed (.rdreg r) s t := by
  obtain ⟨hp, h⟩ := whenIdle_next h
  split at h <;> cases h
  · exact .answered hp (.completeOk _ .start)
  · exact .answered hp (.refuse s)

theorem execFenc_executed {idx rsv : Byte} {last : Bool} (h : execFenc idx rsv last s = .next t) :
    Executed (.fenc idx rsv last) s t := by
  obtain ⟨hp, h⟩ := whenIdle_next h
  split at h <;> cases h
  · refine .answered hp (.completeOk _ (.setCrc (.writeOut .start fun hw => ?_) trivial (by decide) nofun))
    exact wf_writeFrame hw ‹_›
  · exact .answered hp (.refuse s)

/-- PENC goes on from whatever was done before it. -/
theorem execPenc_answers {c : Prop} {addr ins : Byte} {u : State} (hu : Answers c s u)
    (h : execPenc addr ins u = .next t) : Answers c s t := by
  obtain ⟨_, h⟩ := whenIdle_next h
  split at h <;> cases h
  · exact .completeOk _ (.writeOut hu fun hw => wf_writePacket hw ‹_›)
  · exact .respond hu (.inr rfl)

theorem execPenc_executed {addr ins : Byte} (h : execPenc addr ins s = .next t) :
    Executed (.penc addr ins) s t :=
  .answered (whenIdle_next h).1 (execPenc_answers .start h)

theorem dclrThenPenc_executed {i : Instr} {addr ins : Byte} (h : dclrThenPenc addr ins s = .next t) :
    Executed i s t := by
  obtain ⟨hp, h⟩ := whenIdle_next h
  exact .answered hp (execPenc_answers (.completeOk 0 (.clearDin .start)) h)

end

/-! ### The others, and all of them -/

section
variable {i : Instr} {s t : State}

theorem execSend_executed {maxr : Byte} (h : execSend maxr s = .next t) : Executed (.send maxr) s t := by
  obtain ⟨hp, h⟩ := whenIdle_next h
  by_cases hl : s.out.length = cfg.frameLen
  · simp only [checked, hl, decide_true, if_true] at h
    split at h <;> cases h
    · rename_i b hb
      exact .send maxr b rfl hp hl (by rw [List.head?_eq_getElem?]; exact hb)
    · exact .answered hp (.refuse s)
  · simp only [checked, hl, decide_false] at h
    cases h
    exact .answered hp (.refuse s)

theorem execMagic_executed {ivl : Ticks} {maxWait : Option Ticks} (h : execMagic ivl maxWait s = .next t) :
    Executed (.magic ivl maxWait) s t := by
  obtain ⟨hp, h⟩ := whenIdle_next h
  cases h
  exact .magic ivl maxWait rfl hp

theorem sendPacket_executed {p : Option (List Byte)} (h : sendPacket p s = .next t) : Executed i s t := by
  cases p with
  | none => cases h
  | some l =>
    obtain ⟨hp, h⟩ := whenIdle_next (f := fun s => .next (hostTransmit l s)) h
    cases h
    exact .transmitted l hp

/-- Bytes leave by the host's path at `IDLE`, or by the phase that writes them. -/
theorem transferOut_executed {l : List Byte} {ok : Bool} {phase : State → State}
    (h : transferOut l ok phase s = .next t)
    (hok : ok = true → (s.ph = .sWrite ∨ s.ph = .mWrite) ∧ phase s = runPhase s) : Executed i s t := by
  unfold transferOut at h
  split at h
  · cases h
    exact .transmitted l ‹_›
  · split at h <;> cases h
    obtain ⟨hp, he⟩ := hok ‹_›
    rw [he]
    exact .written hp

/-- A row that `S_WRITE` writes, under a further condition. -/
theorem transferOut_sWrite_executed {l : List Byte} {p : Prop} [Decidable p]
    (h : transferOut l (decide (s.ph = .sWrite ∧ p)) sWrite s = .next t) : Executed i s t :=
  transferOut_executed h fun hok => by
    obtain ⟨hp, _⟩ := of_decide_eq_true hok
    exact ⟨.inl hp, (runPhase_sWrite hp).symm⟩

theorem execFrame_executed {idx rsv : Byte} {p : List Byte} {more : Bool}
    (h : execFrame idx rsv p more s = .next t) : Executed i s t := by
  unfold execFrame at h
  split at h
  · exact transferOut_sWrite_executed h
  · cases h

theorem execMagicseq_executed (h : execMagicseq s = .next t) : Executed i s t :=
  transferOut_executed h fun hok => by
    have hp : s.ph = .mWrite := of_decide_eq_true hok
    exact ⟨.inr hp, (runPhase_mWrite hp).symm⟩

theorem execInitbyte_executed (h : execInitbyte s = .next t) : Executed i s t := by
  obtain ⟨hp, h⟩ := whenIdle_next h
  simp only [Host.Outcome.next.injEq] at h
  split at h <;> rw [← h]
  · exact .exchanged _ hp
  · exact .exchangeFailed _ hp

/-- Executing an instruction does nothing else. -/
theorem exec_executed (h : exec i s = .next t) : Executed i s t := by
  cases i with
  | crcclr => exact execCrcclr_executed h
  | crcpush b => exact execCrcpush_executed h
  | crc16 => exact execCrc16_executed h
  | dclr => exact execDclr_executed h
  | dpush b => exact execDpush_executed h
  | ocpy => exact execOcpy_executed h
  | ord i => exact execOrd_executed h
  | rdreg r => exact execRdreg_executed h
  | fenc idx rsv last => exact execFenc_executed h
  | penc addr ins => exact execPenc_executed h
  | ping addr | reboot addr => exact dclrThenPenc_executed h
  | send maxr => exact execSend_executed h
  | magic ivl maxWait => exact execMagic_executed h
  | frame idx rsv p more => exact execFrame_executed h
  | cmdpkt addr ins q => exact sendPacket_executed h
  | pingpkt addr => exact sendPacket_executed (p := encodePacket addr cfg.insPing []) h
  | rebootpkt addr => exact sendPacket_executed (p := encodePacket addr cfg.insReboot []) h
  | ack | nak => cases h; exact .arrived _
  | stopLast | stopMore => exact transferOut_sWrite_executed h
  | magicseq => exact execMagicseq_executed h
  | initbyte => exact execInitbyte_executed h

end

/-! ### The environment's side -/

theorem hostTransmit_environment (l : List Byte) (s : State) : OnlyEnvironmentDiffers s (hostTransmit l s) := by
  obtain ⟨x, n, o, es, a, h, -, -, hn⟩ := hostTransmit_cases l s
  rw [h]
  exact ⟨rfl, hn⟩

theorem hostReceive_environment (s : State) : OnlyEnvironmentDiffers s (hostReceive s) := ⟨rfl, id⟩

theorem hostSetTimeout_environment (t : Ticks) (s : State) : OnlyEnvironmentDiffers s (hostSetTimeout t s) :=
  ⟨rfl, id⟩

theorem OnlyHostDiffers.environment {s t : State} (h : OnlyHostDiffers s t) : OnlyEnvironmentDiffers s t := by
  rw [h]
  exact ⟨rfl, id⟩

theorem OnlyEnvironmentDiffers.trans {s t u : State} (h : OnlyEnvironmentDiffers s t)
    (h' : OnlyEnvironmentDiffers t u) : OnlyEnvironmentDiffers s u := by
  refine ⟨?_, h'.2 ∘ h.2⟩
  rw [h'.1, h.1]

/-- An arrival leaves what the phases leave. -/
theorem peerSends_frame (l : List Byte) (s : State) : PhaseFrame s (peerSends l s) := by
  obtain ⟨o, h | ⟨_, h⟩⟩ := peerSends_cases l s <;> rw [h]
  · simp [PhaseFrame]
  · exact runPhase_frame { s with oracle := o }

/-- Where CORE does not read, an arrival waits behind the earlier ones (R39). -/
theorem peerSends_of_not_reading {s : State} (l : List Byte) (h1 : s.ph ≠ .sRead) (h2 : s.ph ≠ .mRead) :
    peerSends l s = { s with oracle := { s.oracle with reads := s.oracle.reads ++ [.bytes l] } } := by
  cases h : s.ph <;> simp_all [peerSends]

/-- Where CORE reads, an arrival joins the answers and the read goes on. -/
theorem peerSends_of_reading {s : State} (l : List Byte) (h : s.ph = .sRead ∨ s.ph = .mRead) :
    peerSends l s =
      runPhase { s with oracle := { s.oracle with reads := s.oracle.reads ++ [.bytes l] } } := by
  rcases h with h | h <;> simp [peerSends, h]

/-- Executed at `IDLE`, an instruction is answered, accepted, or touches the environment alone. -/
theorem Executed.idle_cases {i : Instr} {s t : State} (h : Executed i s t) (hp : s.ph = .idle) :
    Answers (writesCrc i) s t ∨
    (∃ maxr b, i = .send maxr ∧ s.out.length = cfg.frameLen ∧ s.out.head? = some b ∧
      t = sendAccepted maxr b s) ∨
    (∃ ivl maxWait, i = .magic ivl maxWait ∧ t = magicAccepted ivl maxWait s) ∨
    OnlyEnvironmentDiffers s t := by
  have forget : OnlyEnvironmentDiffers s (forgetRead s) := ⟨rfl, id⟩
  cases h with
  | answered _ h => exact .inl h
  | send maxr b hi _ hl hb => exact .inr (.inl ⟨maxr, b, hi, hl, hb, rfl⟩)
  | magic ivl maxWait hi => exact .inr (.inr (.inl ⟨ivl, maxWait, hi, rfl⟩))
  | transmitted l => exact .inr (.inr (.inr (hostTransmit_environment l s)))
  | exchangeFailed l => exact .inr (.inr (.inr (forget.trans (hostTransmit_environment l _))))
  | exchanged l =>
    exact .inr (.inr (.inr (forget.trans ((hostTransmit_environment l _).trans (hostReceive_environment _)))))
  | written h => simp [hp] at h
  | arrived l =>
    rw [peerSends_of_not_reading l (by simp [hp]) (by simp [hp])]
    exact .inr (.inr (.inr ⟨rfl, id⟩))

/-! ### A step at `IDLE` -/

/-- At `IDLE` a wait holds nothing. -/
theorem waitPhase_idle {s : State} (n : Nat) (h : s.ph = .idle) : waitPhase n s = s := by
  rcases waitPhase_cases n s with he | ⟨hp, _⟩ | ⟨hp, _⟩ | ⟨hp, _⟩
  · exact he
  all_goals simp [h] at hp

/-- Everything a step can do at `IDLE` when no reset comes, once the input is taken: an instruction is executed or a
request refused, the host uses the stream by its own path or reacts, or the coming answers change. -/
inductive IdleStep (s : State) : State → Prop
  | executed {i : Instr} {t : State} (h : Executed i s t) : IdleStep s t
  | refused : IdleStep s (refuse s)
  | transmitted (l : List Byte) : IdleStep s (hostTransmit l s)
  | received : IdleStep s (hostReceive s)
  | timeoutSet (τ : Ticks) : IdleStep s (hostSetTimeout τ s)
  | reacted {t : State} (h : OnlyHostDiffers s t) : IdleStep s t
  | answersChanged (o : Oracle) : IdleStep s { s with oracle := o }

theorem runRequest_idleStep {r : Request} {s t : State} (h : runRequest r s = .next t) : IdleStep s t := by
  unfold runRequest at h
  split at h
  · exact .executed (exec_executed h)
  · cases h
    exact .refused

/-- The second of two requests that are no pseudo-operation is put first among the coming inputs. -/
theorem runPair_idleStep {r1 r2 : Request} {s t : State} (h : runPair r1 r2 s = .next t) :
    ∃ is, IdleStep { s with inputs := is } t := by
  unfold runPair at h
  split at h
  · exact ⟨s.inputs, .executed (exec_executed h)⟩
  · exact ⟨_, runRequest_idleStep h⟩

theorem runTransmit_idleStep {l : List Byte} {s t : State} (h : runTransmit l s = .next t) : IdleStep s t := by
  unfold runTransmit at h
  split at h
  · exact .executed (exec_executed h)
  · cases h
    exact .transmitted l

theorem runHost_idleStep {a : HostOp} {s t : State} (h : runHost a s = .next t) :
    ∃ is, IdleStep { s with inputs := is } t := by
  rcases runHost_cases a s with ⟨r, he⟩ | ⟨r1, r2, he⟩ | ⟨l, he⟩ | ⟨l, he⟩ | he | ⟨τ, he⟩ | ⟨u, he, hu⟩ <;>
    rw [he] at h
  · exact ⟨s.inputs, runRequest_idleStep h⟩
  · exact runPair_idleStep h
  · exact ⟨s.inputs, runTransmit_idleStep h⟩
  · cases h; exact ⟨s.inputs, .transmitted l⟩
  · cases h; exact ⟨s.inputs, .received⟩
  · cases h; exact ⟨s.inputs, .timeoutSet τ⟩
  · cases h; exact ⟨s.inputs, .reacted hu⟩

theorem step_idleStep {s t : State} (h : step s = .next t) (hp : s.ph = .idle)
    (hr : s.inputs.head? ≠ some .reset) : ∃ is, IdleStep { s with inputs := is } t := by
  cases hi : s.inputs with
  | nil =>
    rw [step_of_no_input hi, runPhase_idle hp] at h
    cases h
    exact ⟨s.inputs, .answersChanged s.oracle⟩
  | cons i rest =>
    cases i with
    | quiet =>
      rw [step_of_quiet hi, runPhase_idle (by exact hp)] at h
      cases h
      exact ⟨rest, .answersChanged s.oracle⟩
    | reset => exact absurd (by rw [hi]; rfl) hr
    | wait n =>
      rw [step_of_wait hi, waitPhase_idle n (by exact hp)] at h
      cases h
      exact ⟨rest, .answersChanged s.oracle⟩
    | peer l =>
      rw [step_of_peer hi, runArrival_eq, peerSends_of_not_reading l (by simp [hp]) (by simp [hp])] at h
      cases h
      exact ⟨rest, .answersChanged _⟩
    | group n =>
      rw [step_of_group hi] at h
      cases h
      exact ⟨rest, .answersChanged (s.oracle.group n)⟩
    | host a =>
      rw [step_of_host hi hp] at h
      exact runHost_idleStep (s := { s with inputs := rest }) h

/-! ### Every step -/

/-- Everything a step can do: reset is taken in any phase; at `IDLE` it is one of `IdleStep`; while an operation runs
CORE waits, goes on with its phase, or awaits an answer. -/
theorem step_cases {s t : State} (h : step s = .next t) :
    (∃ rest, t = resetInput { s with inputs := rest }) ∨
    (s.ph = .idle ∧ ∃ is, IdleStep { s with inputs := is } t) ∨
    (s.ph ≠ .idle ∧ ∃ rest o, t = { s with inputs := rest, oracle := o } ∨
      t = runPhase { s with inputs := rest, oracle := o } ∨
      ∃ n, t = waitPhase n { s with inputs := rest, oracle := o }) := by
  by_cases hr : s.inputs.head? = some .reset
  · obtain ⟨rest, hi⟩ := List.head?_eq_some_iff.mp hr
    rw [step_of_reset hi] at h
    cases h
    exact .inl ⟨rest, rfl⟩
  by_cases hp : s.ph = .idle
  · exact .inr (.inl ⟨hp, step_idleStep h hp hr⟩)
  · refine .inr (.inr ⟨hp, ?_⟩)
    obtain ⟨rest, o, he | he | ⟨n, he⟩⟩ := step_busy_cases hp hr <;> rw [he] at h <;> cases h
    · exact ⟨rest, o, .inl rfl⟩
    · exact ⟨rest, o, .inr (.inl rfl)⟩
    · exact ⟨rest, o, .inr (.inr ⟨n, rfl⟩)⟩

end Sys2Proof.Machine
end

section
/-! PROOF. The invariant of the block is kept by every step: at `IDLE` only its lasting part says anything, in SEND
and in MAGIC that part and the phase's own. -/

namespace Sys2Proof.Machine

/-! ### The part of the invariant that does not depend on the phase -/

/-- What the invariant says in every phase. -/
structure Lasting (s : State) : Prop where
  buffers : Memory.wf s
  window : s.cnt.toNat ≤ cfg.crcWindow
  fresh : s.cnt = 0 → s.acc = cfg.crcInit
  status : s.status ≠ .invalidInput
  flushed : s.handed ≤ s.tx.length

theorem Inv.lasting {s : State} (h : Inv s) : Lasting s :=
  ⟨h.buffers, h.window, h.fresh, h.status, h.flushed⟩

/-- A write is under way in the two writing phases only. -/
theorem Inv.not_writing {s : State} (h : Inv s) (hs : s.ph ≠ .sWrite) (hm : s.ph ≠ .mWrite) : s.writing = none := by
  cases hw : s.writing with
  | none => rfl
  | some k =>
    rcases h.writing k hw with ⟨hp, _⟩ | ⟨hp, _⟩
    · exact absurd hp hs
    · exact absurd hp hm

theorem writingOk_of_none {s : State} (h : s.writing = none) : WritingOk s := by
  intro k hk
  simp [h] at hk

/-- At `IDLE` the lasting part is all, and no write is under way. -/
theorem inv_of_idle {s : State} (hp : s.ph = .idle) (hl : Lasting s) (hw : s.writing = none) : Inv s := by
  obtain ⟨buffers, window, fresh, status, flushed⟩ := hl
  refine ⟨buffers, window, fresh, status, ?_, ?_, ?_, flushed, writingOk_of_none hw, ?_, ?_⟩ <;>
    simp [hp, Phase.sending, Phase.looping, AttemptsOk, OrderOk]

/-- An operation's response needs no more than the lasting part, with no write under way. -/
theorem inv_respond {k : Status} {v : Half} {s : State} (hl : Lasting s) (hk : k ≠ .invalidInput)
    (hw : s.writing = none) : Inv (respond k v s) :=
  inv_of_idle rfl { hl with status := hk } hw

/-- In SEND's phases MAGIC's part says nothing. -/
theorem inv_of_sending {s : State} (hp : s.ph.sending = true) (hl : Lasting s)
    (hf : s.out.length = cfg.frameLen ∧ s.out.head? = some s.eidx) (ha : AttemptsOk s) (hw : WritingOk s)
    (hr : s.reply = none) (ho : OrderOk s) : Inv s := by
  obtain ⟨buffers, window, fresh, status, flushed⟩ := hl
  refine ⟨buffers, window, fresh, status, fun _ => hf, ha, ?_, flushed, hw, fun _ => hr, ho⟩
  cases h : s.ph <;> simp_all [Phase.sending, Phase.looping]

/-- In MAGIC's phases SEND's part says nothing. -/
theorem inv_of_magic {s : State} (hp : s.ph.sending = false) (hl : Lasting s)
    (hloop : s.ph.looping = true → s.t0 ≤ s.clock ∧ s.rto = s.ivl) (hw : WritingOk s) (hr : s.reply = none)
    (ho : OrderOk s) : Inv s := by
  obtain ⟨buffers, window, fresh, status, flushed⟩ := hl
  refine ⟨buffers, window, fresh, status, ?_, ?_, hloop, flushed, hw, fun _ => hr, ho⟩
  · simp [hp]
  · cases h : s.ph <;> simp_all [Phase.sending, AttemptsOk]

/-- The invariant says nothing about the coming inputs and answers. -/
theorem Inv.with_coming {s : State} (h : Inv s) (is : List Input) (o : Oracle) :
    Inv { s with inputs := is, oracle := o } :=
  { h with }

/-! ### Writes -/

/-- A write moved on has sent its first bytes, last (R71, R73). -/
theorem writeUnderWay_sent {l : List Byte} {s : State} (n : Nat)
    (h : ∀ k, s.writing = some k → k ≤ l.length ∧ l.take k <:+ s.tx) :
    ∃ k, (writeUnderWay l n s).writing = some k ∧ k ≤ l.length ∧ l.take k <:+ (writeUnderWay l n s).tx := by
  have hk : l.take (s.writing.getD 0) <:+ s.tx := by
    cases hw : s.writing with
    | none => simp
    | some k => exact (h k hw).2
  refine ⟨min (s.writing.getD 0 + n) l.length, rfl, Nat.min_le_right _ _, ?_⟩
  obtain ⟨p, hp⟩ := hk
  refine ⟨p, ?_⟩
  rw [← List.take_eq_take_min, List.take_add, ← List.append_assoc, hp]
  rfl

theorem writeUnderWay_lasting {l : List Byte} {s : State} (n : Nat) (h : Lasting s) :
    Lasting (writeUnderWay l n s) where
  buffers := h.buffers
  window := h.window
  fresh := h.fresh
  status := h.status
  flushed := by simp only [writeUnderWay, List.length_append]; exact Nat.le_add_right_of_le h.flushed

/-- The attempt is counted once: from the write's begin on it is between 1 and `MAXR + 1` (R173, R180). -/
theorem countAttempt_bounds {s : State} (h : AttemptsOk s) (hp : s.ph = .sWrite) :
    1 ≤ (countAttempt s).toNat ∧ (countAttempt s).toNat ≤ s.maxr.toNat + 1 := by
  obtain ⟨before, after, _⟩ := h
  unfold countAttempt
  split
  · have := before hp ‹_›
    bv_omega
  · exact after hp ‹_›

/-! ### SEND -/

section
variable {s : State} (h : Inv s)
include h

/-- What the frame and the awaited response are in a phase of SEND. -/
theorem Inv.in_send (hp : s.ph.sending = true) :
    (s.out.length = cfg.frameLen ∧ s.out.head? = some s.eidx) ∧ s.reply = none :=
  ⟨h.frame hp, h.awaited fun hi => by simp [hi, Phase.sending] at hp⟩

theorem inv_sWrite (hp : s.ph = .sWrite) : Inv (sWrite s) := by
  obtain ⟨hf, hr⟩ := h.in_send (by rw [hp]; rfl)
  have ha := countAttempt_bounds h.attempts hp
  have hm : memRead .out 0 cfg.frameLen s = s.out := memRead_out_all s hf.1.le
  rcases sWrite_cases s with ⟨o, he⟩ | ⟨n, o, he⟩ <;> rw [he]
  · exact inv_of_sending rfl { h.lasting with flushed := by simpa using Nat.le_add_right_of_le h.flushed } hf
      ⟨nofun, nofun, fun _ => ha⟩ (writingOk_of_none rfl) hr ⟨fun _ => by simpa using hm, nofun, nofun⟩
  · exact inv_respond { h.lasting with flushed := by simpa using Nat.le_add_right_of_le h.flushed } nofun rfl

theorem inv_sWriteWaits (n : Nat) (hp : s.ph = .sWrite) : Inv (sWriteWaits n s) := by
  obtain ⟨hf, hr⟩ := h.in_send (by rw [hp]; rfl)
  have ha := countAttempt_bounds h.attempts hp
  have hm : memRead .out 0 cfg.frameLen s = s.out := memRead_out_all s hf.1.le
  unfold sWriteWaits
  rw [hm]
  obtain ⟨k, hk, hle, htx⟩ := writeUnderWay_sent (l := s.out) (s := { s with att := countAttempt s }) n
    fun k hk => by
      rcases h.writing k hk with ⟨_, hw⟩ | ⟨hp', _⟩
      · exact hw
      · rw [hp] at hp'; cases hp'
  refine inv_of_sending (by simp [writeUnderWay, hp, Phase.sending]) (writeUnderWay_lasting n { h.lasting with })
    hf ⟨fun _ hw => ?_, fun _ _ => ha, fun _ => ha⟩ (fun j hj => .inl ⟨hp, ?_⟩) hr ⟨?_, ?_, ?_⟩
  · rw [hk] at hw; cases hw
  · rw [hk] at hj; cases hj; exact ⟨hle, htx⟩
  all_goals simp [writeUnderWay, hp]

theorem inv_sFlush (hp : s.ph = .sFlush) : Inv (sFlush s) := by
  obtain ⟨hf, hr⟩ := h.in_send (by rw [hp]; rfl)
  have hw : s.writing = none := h.not_writing (by simp [hp]) (by simp [hp])
  obtain ⟨_, _, ha⟩ := h.attempts
  rcases sFlush_cases s with ⟨o, he⟩ | ⟨n, o, he⟩ <;> rw [he]
  · exact inv_of_sending rfl { h.lasting with flushed := le_rfl } hf ⟨nofun, nofun, fun _ => ha (.inl hp)⟩
      (writingOk_of_none hw) hr ⟨nofun, nofun, fun _ => by simp⟩
  · have := h.flushed
    exact inv_respond { h.lasting with flushed := by simp; omega } nofun hw

theorem inv_sRead (hp : s.ph = .sRead) : Inv (sRead s) := by
  obtain ⟨hf, hr⟩ := h.in_send (by rw [hp]; rfl)
  have hw : s.writing = none := h.not_writing (by simp [hp]) (by simp [hp])
  obtain ⟨r, o, he⟩ := sRead_cases s
  rw [he]
  rcases sClassify_cases r (addEvent .core (.read r) { s with clock := s.clock + readTime r s, oracle := o })
    with ⟨k, n, b, he, hk⟩ | ⟨_, hle, he⟩ <;> rw [he]
  · exact inv_respond { h.lasting with } (by rintro rfl; simp at hk) hw
  · exact inv_of_sending rfl { h.lasting with } hf
      ⟨fun _ _ => hle, fun _ hn => absurd hw hn, nofun⟩ (writingOk_of_none hw) hr ⟨nofun, nofun, nofun⟩

/-! ### MAGIC -/

theorem inv_mSetup (hp : s.ph = .mSetup) : Inv (mSetup s) := by
  have hr : s.reply = none := h.awaited (by simp [hp])
  have hw : s.writing = none := h.not_writing (by simp [hp]) (by simp [hp])
  rcases mSetup_cases s with ⟨n, o, he⟩ | ⟨o, he⟩ <;> rw [he]
  · exact inv_of_magic rfl { h.lasting with } (fun _ => ⟨le_rfl, rfl⟩) (writingOk_of_none hw) hr
      ⟨nofun, nofun, nofun⟩
  · exact inv_respond { h.lasting with } nofun hw

theorem inv_mWrite (hp : s.ph = .mWrite) : Inv (mWrite s) := by
  have hr : s.reply = none := h.awaited (by simp [hp])
  have hloop := h.loop (by rw [hp]; rfl)
  rcases mWrite_cases s with ⟨o, he⟩ | ⟨n, o, he⟩ <;> rw [he]
  · exact inv_of_magic rfl { h.lasting with flushed := by simpa using Nat.le_add_right_of_le h.flushed }
      (fun _ => hloop) (writingOk_of_none rfl) hr ⟨nofun, fun _ => by simp, nofun⟩
  · exact inv_respond { h.lasting with flushed := by simpa using Nat.le_add_right_of_le h.flushed } nofun rfl

theorem inv_mWriteWaits (n : Nat) (hp : s.ph = .mWrite) : Inv (writeUnderWay cfg.magicSeq n s) := by
  have hr : s.reply = none := h.awaited (by simp [hp])
  have hloop := h.loop (by rw [hp]; rfl)
  obtain ⟨k, hk, hle, htx⟩ := writeUnderWay_sent (l := cfg.magicSeq) (s := s) n fun k hk => by
    rcases h.writing k hk with ⟨hp', _⟩ | ⟨_, hw⟩
    · rw [hp] at hp'; cases hp'
    · exact hw
  refine inv_of_magic (by simp [writeUnderWay, hp, Phase.sending]) (writeUnderWay_lasting n h.lasting)
    (fun _ => hloop) (fun j hj => .inr ⟨hp, ?_⟩) hr ⟨?_, ?_, ?_⟩
  · rw [hk] at hj; cases hj; exact ⟨hle, htx⟩
  all_goals simp [writeUnderWay, hp]

theorem inv_mFlush (hp : s.ph = .mFlush) : Inv (mFlush s) := by
  have hr : s.reply = none := h.awaited (by simp [hp])
  have hw : s.writing = none := h.not_writing (by simp [hp]) (by simp [hp])
  have hloop := h.loop (by rw [hp]; rfl)
  rcases mFlush_cases s with ⟨o, he⟩ | ⟨n, o, he⟩ <;> rw [he]
  · exact inv_of_magic rfl { h.lasting with flushed := le_rfl } (fun _ => hloop) (writingOk_of_none hw) hr
      ⟨nofun, nofun, fun _ => by simp⟩
  · have := h.flushed
    exact inv_respond { h.lasting with flushed := by simp; omega } nofun hw

theorem inv_mRead (hp : s.ph = .mRead) : Inv (mRead s) := by
  have hr : s.reply = none := h.awaited (by simp [hp])
  have hw : s.writing = none := h.not_writing (by simp [hp]) (by simp [hp])
  obtain ⟨ht0, hrto⟩ := h.loop (by rw [hp]; rfl)
  obtain ⟨r, o, he⟩ := mRead_cases s
  have hloop : s.t0 ≤ s.clock + readTime r s ∧ s.rto = s.ivl := ⟨Nat.le_add_right_of_le ht0, hrto⟩
  rw [he]
  rcases mClassify_cases r (addEvent .core (.read r) { s with clock := s.clock + readTime r s, oracle := o })
    with ⟨_, he⟩ | ⟨_, he⟩ | ⟨_, he⟩ | ⟨l, n, b, _, he⟩ <;> rw [he]
  · exact inv_respond { h.lasting with } nofun hw
  · exact inv_respond { h.lasting with } nofun hw
  · exact inv_of_magic rfl { h.lasting with } (fun _ => hloop) (writingOk_of_none hw) hr ⟨nofun, nofun, nofun⟩
  · exact inv_of_magic rfl { h.lasting with } (fun _ => hloop) (writingOk_of_none hw) hr ⟨nofun, nofun, nofun⟩

theorem inv_mCheck (hp : s.ph = .mCheck) : Inv (mCheck s) := by
  have hr : s.reply = none := h.awaited (by simp [hp])
  have hw : s.writing = none := h.not_writing (by simp [hp]) (by simp [hp])
  obtain ⟨ht0, hrto⟩ := h.loop (by rw [hp]; rfl)
  rcases mCheck_cases s with ⟨n, o, _, he⟩ | ⟨n, o, he⟩ <;> rw [he]
  · exact inv_respond { h.lasting with } nofun hw
  · exact inv_of_magic rfl { h.lasting with } (fun _ => ⟨Nat.le_add_right_of_le ht0, hrto⟩)
      (writingOk_of_none hw) hr ⟨nofun, nofun, nofun⟩

/-! ### Every phase, and a wait -/

theorem inv_runPhase : Inv (runPhase s) := by
  cases hp : s.ph with
  | idle => rwa [runPhase_idle hp]
  | sWrite => rw [runPhase_sWrite hp]; exact inv_sWrite h hp
  | sFlush => rw [runPhase_sFlush hp]; exact inv_sFlush h hp
  | sRead => rw [runPhase_sRead hp]; exact inv_sRead h hp
  | mSetup => rw [runPhase_mSetup hp]; exact inv_mSetup h hp
  | mWrite => rw [runPhase_mWrite hp]; exact inv_mWrite h hp
  | mFlush => rw [runPhase_mFlush hp]; exact inv_mFlush h hp
  | mRead => rw [runPhase_mRead hp]; exact inv_mRead h hp
  | mCheck => rw [runPhase_mCheck hp]; exact inv_mCheck h hp

theorem inv_waitPhase (n : Nat) : Inv (waitPhase n s) := by
  rcases waitPhase_cases n s with he | ⟨_, he⟩ | ⟨hp, he⟩ | ⟨hp, he⟩ <;> rw [he]
  · exact h
  · exact inv_runPhase h
  · exact inv_sWriteWaits h n hp
  · exact inv_mWriteWaits h n hp

end

/-! ### `IDLE` and reset -/

/-- An operation answered at once keeps the lasting part. -/
theorem Answers.lasting {c : Prop} {s t : State} (h : Answers c s t) (hs : Lasting s) : Lasting t := by
  induction h with
  | start => exact hs
  | respond _ hk ih => exact { ih with status := by rcases hk with rfl | rfl <;> nofun }
  | clearDin _ ih => exact { ih with buffers := wf_clearDin ih.buffers }
  | appendDin _ hl ih => exact { ih with buffers := wf_appendDin ih.buffers hl }
  | writeOut _ hl ih => exact { ih with buffers := hl ih.buffers }
  | setCrc _ _ hn h0 ih => exact { ih with window := hn, fresh := h0 }

section
variable {s t : State}

theorem inv_of_answers {c : Prop} (hp : s.ph = .idle) (hs : Inv s) (h : Answers c s t) : Inv t := by
  have hw : s.writing = none := hs.not_writing (by simp [hp]) (by simp [hp])
  exact inv_of_idle (h.idle hp) (h.lasting hs.lasting) (by rw [h.frame]; exact hw)

theorem inv_of_onlyEnvironmentDiffers (hp : s.ph = .idle) (hs : Inv s) (h : OnlyEnvironmentDiffers s t) :
    Inv t := by
  have hw : s.writing = none := hs.not_writing (by simp [hp]) (by simp [hp])
  obtain ⟨ht, hf⟩ := h
  have hf' := hf hs.flushed
  rw [ht]
  exact inv_of_idle hp { hs.lasting with flushed := hf' } hw

theorem inv_sendAccepted {maxr b : Byte} (hs : Inv s) (hl : s.out.length = cfg.frameLen)
    (hb : s.out.head? = some b) : Inv (sendAccepted maxr b s) :=
  inv_of_sending rfl { hs.lasting with } ⟨hl, hb⟩ ⟨fun _ _ => Nat.zero_le _, fun _ hw => absurd rfl hw, nofun⟩
    (writingOk_of_none rfl) rfl ⟨nofun, nofun, nofun⟩

theorem inv_magicAccepted {ivl : Ticks} {maxWait : Option Ticks} (hs : Inv s) :
    Inv (magicAccepted ivl maxWait s) :=
  inv_of_magic rfl { hs.lasting with } nofun (writingOk_of_none rfl) rfl ⟨nofun, nofun, nofun⟩

theorem inv_of_executed {i : Instr} (hp : s.ph = .idle) (hs : Inv s) (h : Executed i s t) : Inv t := by
  rcases h.idle_cases hp with h | ⟨maxr, b, _, hl, hb, rfl⟩ | ⟨ivl, maxWait, _, rfl⟩ | h
  · exact inv_of_answers hp hs h
  · exact inv_sendAccepted hs hl hb
  · exact inv_magicAccepted hs
  · exact inv_of_onlyEnvironmentDiffers hp hs h

theorem inv_of_idleStep (hp : s.ph = .idle) (hs : Inv s) (h : IdleStep s t) : Inv t := by
  cases h with
  | executed h => exact inv_of_executed hp hs h
  | refused => exact inv_of_answers hp hs (c := False) (.refuse s)
  | transmitted l => exact inv_of_onlyEnvironmentDiffers hp hs (hostTransmit_environment l s)
  | received => exact inv_of_onlyEnvironmentDiffers hp hs (hostReceive_environment s)
  | timeoutSet τ => exact inv_of_onlyEnvironmentDiffers hp hs (hostSetTimeout_environment τ s)
  | reacted h => exact inv_of_onlyEnvironmentDiffers hp hs h.environment
  | answersChanged o => exact hs.with_coming s.inputs o

end

/-- Reset needs nothing but that flushes have handed over no more than was sent. -/
theorem inv_resetInput {s : State} (h : s.handed ≤ s.tx.length) : Inv (resetInput s) :=
  inv_of_idle rfl ⟨wf_reset, Nat.zero_le _, fun _ => rfl, nofun, h⟩ rfl

/-! ### The statements -/

/-- Settles O45: the state after reset is reset's own result there. -/
theorem resetMeetsInvariant : Obligations.ResetMeetsInvariant :=
  inv_resetInput (s := State.reset) le_rfl

/-- Settles O44: at `IDLE` by what an instruction or an action of the host can do, while an operation runs by the
phases, and by reset in any phase. -/
theorem stepKeepsInvariant : Obligations.StepKeepsInvariant := by
  intro s t h hstep
  rcases step_cases hstep with ⟨rest, rfl⟩ | ⟨hp, is, hs⟩ | ⟨_, rest, o, rfl | rfl | ⟨n, rfl⟩⟩
  · exact inv_resetInput h.flushed
  · exact inv_of_idleStep (s := { s with inputs := is }) hp (h.with_coming is s.oracle) hs
  · exact h.with_coming rest o
  · exact inv_runPhase (h.with_coming rest o)
  · exact inv_waitPhase (h.with_coming rest o) n

end Sys2Proof.Machine
end

section
/-! PROOF. Which instructions write which registers: the CRC registers (R306) and the sequencers' (R307). -/

namespace Sys2Proof.Machine

theorem OnlyEnvironmentDiffers.crc_same {s t : State} (h : OnlyEnvironmentDiffers s t) :
    t.acc = s.acc ∧ t.cnt = s.cnt := by
  rw [h.1]
  exact ⟨rfl, rfl⟩

theorem PhaseFrame.crc_same {s t : State} (h : PhaseFrame s t) : t.acc = s.acc ∧ t.cnt = s.cnt := by
  obtain ⟨_, _, hacc, hcnt, _⟩ := h
  exact ⟨hacc, hcnt⟩

/-- An executed instruction that is none of the four leaves the CRC registers, in every phase. -/
theorem Executed.crc_same {i : Instr} {s t : State} (h : Executed i s t) (hi : ¬ writesCrc i) :
    t.acc = s.acc ∧ t.cnt = s.cnt := by
  by_cases hp : s.ph = .idle
  · rcases h.idle_cases hp with h | ⟨maxr, b, _, _, _, rfl⟩ | ⟨ivl, maxWait, _, rfl⟩ | h
    · exact h.crc_same hi
    · exact ⟨rfl, rfl⟩
    · exact ⟨rfl, rfl⟩
    · exact h.crc_same
  · cases h with
    | written _ => exact (runPhase_frame s).crc_same
    | arrived l => exact (peerSends_frame l s).crc_same
    | answered h | send _ _ _ h | magic _ _ _ h | transmitted _ h | exchangeFailed _ h | exchanged _ h =>
      exact absurd h hp

/-- Settles O50: what each instruction can do, and the four that `writesCrc` names. -/
theorem onlyCrcOperationsWriteCrcRegisters : Obligations.OnlyCrcOperationsWriteCrcRegisters := by
  intro i s t h hpush hfenc hclr h16
  refine (exec_executed h).crc_same fun hi => ?_
  cases i with
  | crcclr => exact hclr rfl
  | crcpush b => exact hpush b rfl
  | crc16 => exact h16 rfl
  | fenc idx rsv last => exact hfenc idx rsv last rfl
  | _ => exact hi

/-- Settles O52: at `IDLE` an instruction is answered, accepted, or touches the environment alone. -/
theorem onlySequencersWriteTheirRegisters : Obligations.OnlySequencersWriteTheirRegisters := by
  intro i s t hp h
  rcases (exec_executed h).idle_cases hp with h | ⟨maxr, b, hi, _, _, rfl⟩ | ⟨ivl, maxWait, hi, rfl⟩ | ⟨h, _⟩
  · rw [h.frame]
    exact ⟨rfl, rfl, rfl, fun _ => ⟨rfl, rfl, rfl⟩, fun _ => ⟨rfl, rfl, rfl⟩⟩
  · exact ⟨rfl, rfl, rfl, fun hn => absurd hi (hn maxr), fun _ => ⟨rfl, rfl, rfl⟩⟩
  · exact ⟨rfl, rfl, rfl, fun _ => ⟨rfl, rfl, rfl⟩, fun hn => absurd hi (hn ivl maxWait)⟩
  · rw [h]
    exact ⟨rfl, rfl, rfl, fun _ => ⟨rfl, rfl, rfl⟩, fun _ => ⟨rfl, rfl, rfl⟩⟩

end Sys2Proof.Machine
end

section
/-! PROOF. The clock (R41, R207): what one step adds to the history, and the time it takes. -/

namespace Sys2Proof.Machine

/-- From `s` to `t` events join the history, the clock does not go back, and it goes on by the timeout of `s` at least
if one of the events is a read that timed out. -/
def Timed (s t : State) : Prop :=
  s.clock ≤ t.clock ∧
  ∃ es, t.history = s.history ++ es ∧ (∀ e ∈ es, e.deed = .read .timeout → s.clock + s.rto.toNat ≤ t.clock)

section
variable {s t u : State}

/-- No event, no condition. -/
theorem timed_of_no_event (hc : s.clock ≤ t.clock) (hh : t.history = s.history) : Timed s t :=
  ⟨hc, [], by simp [hh], nofun⟩

/-- Events that are no read. -/
theorem timed_of_no_read {es : List Event} (hc : s.clock ≤ t.clock) (hh : t.history = s.history ++ es)
    (hn : ∀ e ∈ es, e.deed ≠ .read .timeout) : Timed s t :=
  ⟨hc, es, hh, fun e he hd => absurd hd (hn e he)⟩

/-- A read takes its time (R207), and what follows it is no timed-out read. -/
theorem timed_of_read {w : Owner} {r : ReadAnswer} {es : List Event} (hc : t.clock = s.clock + readTime r s)
    (hh : t.history = s.history ++ { who := w, deed := .read r } :: es)
    (hn : ∀ e ∈ es, e.deed ≠ .read .timeout) : Timed s t := by
  refine ⟨by omega, _, hh, fun e he hd => ?_⟩
  rcases List.mem_cons.mp he with rfl | he
  · cases hd
    simp [hc, readTime]
  · exact absurd hd (hn e he)

/-- One thing after another, the first without a change of the timeout. -/
theorem Timed.trans (h : Timed s t) (hr : t.rto = s.rto) (h' : Timed t u) : Timed s u := by
  obtain ⟨hc, es, hh, ht⟩ := h
  obtain ⟨hc', es', hh', ht'⟩ := h'
  refine ⟨hc.trans hc', es ++ es', by rw [hh', hh, List.append_assoc], fun e he hd => ?_⟩
  rcases List.mem_append.mp he with he | he
  · exact (ht e he hd).trans hc'
  · exact (by rw [hr]; omega : s.clock + s.rto.toNat ≤ t.clock + t.rto.toNat).trans (ht' e he hd)

/-! ### The phases -/

theorem timed_sRead (s : State) : Timed s (sRead s) := by
  obtain ⟨r, o, he⟩ := sRead_cases s
  rw [he]
  rcases sClassify_cases r (addEvent .core (.read r) { s with clock := s.clock + readTime r s, oracle := o })
    with ⟨k, n, b, he, _⟩ | ⟨_, _, he⟩ <;> rw [he]
  · exact timed_of_read (es := []) rfl rfl nofun
  · exact timed_of_read (es := []) rfl rfl nofun

theorem timed_mRead (s : State) : Timed s (mRead s) := by
  obtain ⟨r, o, he⟩ := mRead_cases s
  rw [he]
  rcases mClassify_cases r (addEvent .core (.read r) { s with clock := s.clock + readTime r s, oracle := o })
    with ⟨_, he⟩ | ⟨_, he⟩ | ⟨_, he⟩ | ⟨l, n, b, _, he⟩ <;> rw [he]
  · exact timed_of_read (es := []) rfl rfl nofun
  · exact timed_of_read (es := []) rfl rfl nofun
  · exact timed_of_read (w := .core) (es := [{ who := .core, deed := .progress }]) rfl (by simp) (by simp)
  · exact timed_of_read (es := []) rfl rfl nofun

theorem timed_runPhase (s : State) : Timed s (runPhase s) := by
  have event {t : State} {d : Deed} (hc : s.clock ≤ t.clock)
      (hh : t.history = s.history ++ [{ who := .core, deed := d }]) (hd : d ≠ .read .timeout) : Timed s t :=
    timed_of_no_read hc hh (by simpa using hd)
  cases hp : s.ph with
  | idle => rw [runPhase_idle hp]; exact timed_of_no_event le_rfl rfl
  | sWrite =>
    rw [runPhase_sWrite hp]
    rcases sWrite_cases s with ⟨o, he⟩ | ⟨n, o, he⟩ <;> rw [he] <;> exact event le_rfl rfl nofun
  | sFlush =>
    rw [runPhase_sFlush hp]
    rcases sFlush_cases s with ⟨o, he⟩ | ⟨n, o, he⟩ <;> rw [he] <;> exact event le_rfl rfl nofun
  | sRead => rw [runPhase_sRead hp]; exact timed_sRead s
  | mSetup =>
    rw [runPhase_mSetup hp]
    rcases mSetup_cases s with ⟨n, o, he⟩ | ⟨o, he⟩ <;> rw [he]
    · exact event (Nat.le_add_right _ _) rfl nofun
    · exact event le_rfl rfl nofun
  | mWrite =>
    rw [runPhase_mWrite hp]
    rcases mWrite_cases s with ⟨o, he⟩ | ⟨n, o, he⟩ <;> rw [he] <;> exact event le_rfl rfl nofun
  | mFlush =>
    rw [runPhase_mFlush hp]
    rcases mFlush_cases s with ⟨o, he⟩ | ⟨n, o, he⟩ <;> rw [he] <;> exact event le_rfl rfl nofun
  | mRead => rw [runPhase_mRead hp]; exact timed_mRead s
  | mCheck =>
    rw [runPhase_mCheck hp]
    rcases mCheck_cases s with ⟨n, o, _, he⟩ | ⟨n, o, he⟩ <;> rw [he] <;>
      exact timed_of_no_event (Nat.le_add_right _ _) rfl

theorem timed_waitPhase (n : Nat) (s : State) : Timed s (waitPhase n s) := by
  rcases waitPhase_cases n s with he | ⟨_, he⟩ | ⟨_, he⟩ | ⟨_, he⟩ <;> rw [he]
  · exact timed_of_no_event le_rfl rfl
  · exact timed_runPhase s
  · exact timed_of_no_event le_rfl rfl
  · exact timed_of_no_event le_rfl rfl

/-! ### `IDLE` -/

theorem timed_hostTransmit (l : List Byte) (s : State) : Timed s (hostTransmit l s) := by
  obtain ⟨x, n, o, es, a, he, -, hn, -⟩ := hostTransmit_cases l s
  rw [he]
  exact timed_of_no_read le_rfl rfl fun e h => hn e h .timeout

theorem timed_hostReceive (s : State) : Timed s (hostReceive s) := by
  obtain ⟨r, o, he⟩ := hostReceive_cases s
  rw [he]
  exact timed_of_read (es := []) rfl rfl nofun

theorem timed_hostSetTimeout (τ : Ticks) (s : State) : Timed s (hostSetTimeout τ s) := by
  obtain ⟨a, o, he⟩ := hostSetTimeout_cases τ s
  rw [he]
  exact timed_of_no_read le_rfl rfl (by simp)

/-- The host's write leaves the timeout. -/
theorem hostTransmit_rto (l : List Byte) (s : State) : (hostTransmit l s).rto = s.rto := by
  obtain ⟨x, n, o, es, a, he, -⟩ := hostTransmit_cases l s
  rw [he]
  rfl

theorem timed_of_answers {c : Prop} (h : Answers c s t) : Timed s t := by
  rw [h.frame]
  exact timed_of_no_event le_rfl rfl

theorem timed_peerSends (l : List Byte) (s : State) : Timed s (peerSends l s) := by
  obtain ⟨o, he | ⟨_, he⟩⟩ := peerSends_cases l s <;> rw [he]
  · exact timed_of_no_event le_rfl rfl
  · exact timed_runPhase { s with oracle := o }

theorem timed_of_executed {i : Instr} (h : Executed i s t) : Timed s t := by
  cases h with
  | answered _ h => exact timed_of_answers h
  | send | magic => exact timed_of_no_event le_rfl rfl
  | transmitted l => exact timed_hostTransmit l s
  | exchangeFailed l => exact timed_hostTransmit l (forgetRead s)
  | exchanged l =>
    have first : Timed s (hostTransmit l (forgetRead s)) := timed_hostTransmit l (forgetRead s)
    exact first.trans (hostTransmit_rto l _) (timed_hostReceive _)
  | written => exact timed_runPhase s
  | arrived l => exact timed_peerSends l s

theorem timed_of_idleStep (h : IdleStep s t) : Timed s t := by
  cases h with
  | executed h => exact timed_of_executed h
  | refused => exact timed_of_no_event le_rfl rfl
  | transmitted l => exact timed_hostTransmit l s
  | received => exact timed_hostReceive s
  | timeoutSet τ => exact timed_hostSetTimeout τ s
  | reacted h => rw [h]; exact timed_of_no_event le_rfl rfl
  | answersChanged o => exact timed_of_no_event le_rfl rfl

/-! ### Every step -/

theorem timed_of_step (h : step s = .next t) : Timed s t := by
  rcases step_cases h with ⟨rest, rfl⟩ | ⟨_, is, hs⟩ | ⟨_, rest, o, rfl | rfl | ⟨n, rfl⟩⟩
  · exact timed_of_no_event le_rfl rfl
  · exact timed_of_idleStep (s := { s with inputs := is }) hs
  · exact timed_of_no_event le_rfl rfl
  · exact timed_runPhase { s with inputs := rest, oracle := o }
  · exact timed_waitPhase n { s with inputs := rest, oracle := o }

end

/-- Settles O55: the events a step adds are the ones `Timed` speaks of. -/
theorem clockNeverGoesBack : Obligations.ClockNeverGoesBack := by
  intro s t h
  obtain ⟨hc, es, hh, ht⟩ := timed_of_step h
  refine ⟨hc, fun l m w hl => ?_⟩
  rw [hh, List.append_assoc] at hl
  have he : es = l ++ { who := w, deed := .read .timeout } :: m := List.append_cancel_left hl
  exact ht { who := w, deed := .read .timeout } (by simp [he]) rfl

end Sys2Proof.Machine
end

section
/-! PROOF. The state after reset, and the reset input (R45, R46, R291). -/

namespace Sys2Proof.Machine

/-- After reset no byte of either buffer is readable (R33). -/
theorem readByte_reset (sp : Space) (i : Nat) : readByte sp i State.reset = none :=
  readByte_of_le (by cases sp <;> exact Nat.zero_le i)

/-- Settles O42: each register as `State.reset` gives it, and both buffers empty. -/
theorem resetStateMatchesSpec : Obligations.ResetStateMatchesSpec :=
  ⟨rfl, rfl, rfl, rfl, rfl, rfl, rfl, rfl, rfl, rfl, readByte_reset, rfl⟩

/-- Settles O43: reset is taken in any phase, and `resetInput` names what it leaves. -/
theorem resetAbandonsInAnyPhase : Obligations.ResetAbandonsInAnyPhase := fun _ _ h => step_of_reset h

end Sys2Proof.Machine
end

section
/-! PROOF. The peer's bytes: ACK and NAK arriving, and the grouping of unread bytes (R39, R69, R176 to R178, R201,
R202, R302). -/

namespace Sys2Proof.Machine

/-! ### The reads -/

/-- `S_READ` with an admissible answer scripted. -/
theorem sRead_of_cons {s : State} {r : ReadAnswer} {rest : List ReadAnswer} (h : s.oracle.reads = r :: rest)
    (ha : ReadAnswer.Admissible r) :
    sRead s = sClassify r (addEvent .core (.read r)
      { s with clock := s.clock + readTime r s, oracle := { s.oracle with reads := rest } }) := by
  rw [sRead, streamRead_of_cons h ha]

/-- `M_READ` with an admissible answer scripted. -/
theorem mRead_of_cons {s : State} {r : ReadAnswer} {rest : List ReadAnswer} (h : s.oracle.reads = r :: rest)
    (ha : ReadAnswer.Admissible r) :
    mRead s = mClassify r (addEvent .core (.read r)
      { s with clock := s.clock + readTime r s, oracle := { s.oracle with reads := rest } }) := by
  rw [mRead, streamRead_of_cons h ha]

/-- Classifying an answer in SEND adds no event and draws no answer. -/
theorem sClassify_stream (r : ReadAnswer) (s : State) :
    (sClassify r s).history = s.history ∧ (sClassify r s).oracle = s.oracle := by
  rcases sClassify_cases r s with ⟨k, n, b, h, _⟩ | ⟨_, _, h⟩ <;> rw [h] <;> exact ⟨rfl, rfl⟩

/-- Classifying an answer in MAGIC draws no answer, and adds at most the progress signal. -/
theorem mClassify_stream (r : ReadAnswer) (s : State) :
    (∃ es, (mClassify r s).history = s.history ++ es) ∧ (mClassify r s).oracle = s.oracle := by
  have quiet {t : State} (h : t.history = s.history) : ∃ es, t.history = s.history ++ es := ⟨[], by simp [h]⟩
  rcases mClassify_cases r s with ⟨_, h⟩ | ⟨_, h⟩ | ⟨_, h⟩ | ⟨l, n, b, _, h⟩ <;> rw [h]
  · exact ⟨quiet rfl, rfl⟩
  · exact ⟨quiet rfl, rfl⟩
  · exact ⟨⟨[_], rfl⟩, rfl⟩
  · exact ⟨quiet rfl, rfl⟩

/-- A phase that reads takes the oldest answer, and its event comes first. -/
theorem runPhase_of_reading {s : State} {r : ReadAnswer} {rest : List ReadAnswer}
    (hp : s.ph = .sRead ∨ s.ph = .mRead) (h : s.oracle.reads = r :: rest) (ha : ReadAnswer.Admissible r) :
    (runPhase s).oracle.reads = rest ∧
      ∃ es, (runPhase s).history = s.history ++ { who := .core, deed := .read r } :: es := by
  rcases hp with hp | hp
  · rw [runPhase_sRead hp, sRead_of_cons h ha]
    obtain ⟨hh, ho⟩ := sClassify_stream r (addEvent .core (.read r)
      { s with clock := s.clock + readTime r s, oracle := { s.oracle with reads := rest } })
    exact ⟨by rw [ho]; rfl, [], hh⟩
  · rw [runPhase_mRead hp, mRead_of_cons h ha]
    obtain ⟨⟨es, hh⟩, ho⟩ := mClassify_stream r (addEvent .core (.read r)
      { s with clock := s.clock + readTime r s, oracle := { s.oracle with reads := rest } })
    exact ⟨by rw [ho]; rfl, es, by simp [hh]⟩

/-! ### The coming inputs are not read -/

theorem sClassify_inputs (is : List Input) (r : ReadAnswer) (s : State) :
    sClassify r { s with inputs := is } = { sClassify r s with inputs := is } := by
  unfold sClassify attemptsRemain
  split
  case h_4 x =>
    by_cases ha : x = cfg.ack
    · simp only [if_pos ha]; rfl
    · by_cases hn : x = cfg.nak
      · by_cases hm : s.att.toNat ≤ s.maxr.toNat
        · simp only [if_neg ha, if_pos hn, hm, decide_true]; rfl
        · simp only [if_neg ha, if_pos hn, hm, decide_false]; rfl
      · simp only [if_neg ha, if_neg hn]; rfl
  all_goals rfl

theorem mClassify_inputs (is : List Input) (r : ReadAnswer) (s : State) :
    mClassify r { s with inputs := is } = { mClassify r s with inputs := is } := by
  unfold mClassify
  split
  case h_4 x => split <;> rfl
  all_goals rfl

/-- A phase that reads does not look at the coming inputs. -/
theorem runPhase_inputs_of_reading {s : State} (is : List Input) (hp : s.ph = .sRead ∨ s.ph = .mRead) :
    runPhase { s with inputs := is } = { runPhase s with inputs := is } := by
  rcases hp with hp | hp
  · rw [runPhase_sRead hp, runPhase_sRead (s := { s with inputs := is }) hp]
    exact sClassify_inputs is s.oracle.nextRead.1 (streamRead .core s).2
  · rw [runPhase_mRead hp, runPhase_mRead (s := { s with inputs := is }) hp]
    exact mClassify_inputs is s.oracle.nextRead.1 (streamRead .core s).2

/-! ### What each byte does -/

theorem sClassify_ack (s : State) :
    sClassify (.bytes [0x06]) s = respond .ok (attVal s) { s with rxn := 1, rxb := 0x06 } := rfl

theorem sClassify_nak_resend {s : State} (h : s.att.toNat ≤ s.maxr.toNat) :
    sClassify (.bytes [0x15]) s = { s with rxn := 1, rxb := 0x15, ph := .sWrite } := by
  simp [sClassify, attemptsRemain, h]

theorem sClassify_nak_exhausted {s : State} (h : s.maxr.toNat < s.att.toNat) :
    sClassify (.bytes [0x15]) s = respond .retryExhausted (attVal s) { s with rxn := 1, rxb := 0x15 } := by
  simp [sClassify, attemptsRemain, Nat.not_le_of_lt h, attVal]

theorem mClassify_ack (s : State) :
    mClassify (.bytes [0x06]) s = respond .ok 0 { s with rxn := 1, rxb := 0x06 } := rfl

theorem mClassify_nak (s : State) :
    mClassify (.bytes [0x15]) s = { s with rxn := 1, rxb := 0x15, ph := .mCheck } := rfl

/-- Nothing is unread and no time passes: the reads of a byte that answers a waiting read leave no trace but the
event. -/
theorem read_of_arrival {s : State} (x : Byte) (hr : s.oracle.reads = []) :
    { s with clock := s.clock + readTime (.bytes [x]) s, oracle := { s.oracle with reads := [] } } = s := by
  have ho : { s.oracle with reads := [] } = s.oracle := by rw [← hr]
  rw [ho]
  rfl

/-- A byte that finds SEND waiting is classified. -/
theorem peerSends_sRead {s : State} (x : Byte) (hp : s.ph = .sRead) (hr : s.oracle.reads = []) :
    peerSends [x] s = sClassify (.bytes [x]) (addEvent .core (.read (.bytes [x])) s) := by
  rw [peerSends_of_reading [x] (.inl hp), runPhase_sRead (by exact hp),
    sRead_of_cons (r := .bytes [x]) (rest := []) (by simp [hr]) (admissible_single x)]
  exact congrArg (fun u => sClassify (.bytes [x]) (addEvent .core (.read (.bytes [x])) u)) (read_of_arrival x hr)

/-- A byte that finds MAGIC waiting is classified. -/
theorem peerSends_mRead {s : State} (x : Byte) (hp : s.ph = .mRead) (hr : s.oracle.reads = []) :
    peerSends [x] s = mClassify (.bytes [x]) (addEvent .core (.read (.bytes [x])) s) := by
  rw [peerSends_of_reading [x] (.inr hp), runPhase_mRead (by exact hp),
    mRead_of_cons (r := .bytes [x]) (rest := []) (by simp [hr]) (admissible_single x)]
  exact congrArg (fun u => mClassify (.bytes [x]) (addEvent .core (.read (.bytes [x])) u)) (read_of_arrival x hr)

/-! ### The parts of the statement -/

/-- R176 to R178: a byte at SEND's waiting read. -/
theorem arrival_in_sRead {s : State} (hr : s.oracle.reads = []) (hp : s.ph = .sRead) :
    exec .ack s = .next (answered .ok (s.att.setWidth 16) { s with
      rxn := 1, rxb := 0x06, ph := .idle,
      history := s.history ++ [{ who := .core, deed := .read (.bytes [0x06]) }] }) ∧
    (s.att.toNat ≤ s.maxr.toNat →
      exec .nak s = .next { s with
        rxn := 1, rxb := 0x15, ph := .sWrite,
        history := s.history ++ [{ who := .core, deed := .read (.bytes [0x15]) }] }) ∧
    (s.maxr.toNat < s.att.toNat →
      exec .nak s = .next (answered .retryExhausted (s.att.setWidth 16) { s with
        rxn := 1, rxb := 0x15, ph := .idle,
        history := s.history ++ [{ who := .core, deed := .read (.bytes [0x15]) }] })) := by
  refine ⟨?_, fun h => ?_, fun h => ?_⟩ <;> refine congrArg Host.Outcome.next ((peerSends_sRead _ hp hr).trans ?_)
  · exact sClassify_ack _
  · exact sClassify_nak_resend h
  · exact sClassify_nak_exhausted h

/-- R201 and R202: a byte at MAGIC's waiting read. -/
theorem arrival_in_mRead {s : State} (hr : s.oracle.reads = []) (hp : s.ph = .mRead) :
    exec .ack s = .next (answered .ok 0 { s with
      rxn := 1, rxb := 0x06, ph := .idle,
      history := s.history ++ [{ who := .core, deed := .read (.bytes [0x06]) }] }) ∧
    exec .nak s = .next { s with
      rxn := 1, rxb := 0x15, ph := .mCheck,
      history := s.history ++ [{ who := .core, deed := .read (.bytes [0x15]) }] } := by
  refine ⟨?_, ?_⟩ <;> refine congrArg Host.Outcome.next ((peerSends_mRead _ hp hr).trans ?_)
  · exact mClassify_ack _
  · exact mClassify_nak _

/-- R39: the oldest unread answer is read, the new byte joins the end, and the arrival is the phase's own step. -/
theorem arrival_after_unread {s : State} {r : ReadAnswer} {rest : List ReadAnswer} (x : Byte)
    (hp : s.ph = .sRead ∨ s.ph = .mRead) (hr : s.oracle.reads = r :: rest) (ha : ReadAnswer.Admissible r) :
    ∃ es, (peerSends [x] s).inputs = s.inputs ∧ (peerSends [x] s).oracle.reads = rest ++ [.bytes [x]] ∧
      (peerSends [x] s).history = s.history ++ { who := .core, deed := .read r } :: es ∧
      step { s with inputs := [], oracle := { s.oracle with reads := s.oracle.reads ++ [.bytes [x]] } } =
        .next { peerSends [x] s with inputs := [] } := by
  obtain ⟨_, _, _, _, _, _, _, _, _, hin, _⟩ := peerSends_frame [x] s
  rw [peerSends_of_reading [x] hp] at hin ⊢
  obtain ⟨hrest, es, hh⟩ := runPhase_of_reading (r := r) (rest := rest ++ [.bytes [x]])
    (s := { s with oracle := { s.oracle with reads := s.oracle.reads ++ [.bytes [x]] } }) hp (by simp [hr]) ha
  exact ⟨es, hin, hrest, hh, (step_of_no_input rfl).trans (congrArg Host.Outcome.next
    (runPhase_inputs_of_reading [] (s := { s with
      oracle := { s.oracle with reads := s.oracle.reads ++ [.bytes [x]] } }) hp))⟩

/-- R69: of arrivals of at least one byte each, the next answer is the first `n` bytes. -/
theorem group_of_arrivals {o : Oracle} {n : Nat} {l : List (List Byte)} (h : o.reads = l.map .bytes)
    (hne : [] ∉ l) (hl : l ≠ []) (hn : 0 < n) : (o.group n).reads.head? = some (.bytes (l.flatten.take n)) := by
  have ht : (takeUnread n o.reads).1 = l.flatten.take n := by rw [h]; exact takeUnread_arrivals n l hne
  have hflat : l.flatten ≠ [] := by
    obtain ⟨a, ha⟩ := List.exists_mem_of_ne_nil l hl
    intro hf
    exact hne ((List.flatten_eq_nil_iff.mp hf a ha) ▸ ha)
  unfold Oracle.group
  split
  · rename_i hu
    rw [hu] at ht
    simp [List.take_eq_nil_iff, hflat, Nat.ne_of_gt hn] at ht
  · rename_i hu
    rw [hu] at ht
    rw [← ht]
    rfl

/-- R302: two stale bytes put together are a `FramingError`. -/
theorem two_stale_bytes {s : State} {x y : Byte} {more : List ReadAnswer} {is : List Input} (hp : s.ph = .sRead)
    (hr : s.oracle.reads = .bytes [x] :: .bytes [y] :: more) (hi : s.inputs = .group 2 :: .quiet :: is) :
    ∃ t : State, step s = .next t ∧
      step t = .next (answered .framingError (s.att.setWidth 16) { s with
        rxn := 2, rxb := x, ph := .idle, inputs := is, oracle := { s.oracle with reads := more },
        history := s.history ++ [{ who := .core, deed := .read (.bytes [x, y]) }] }) := by
  have hg : s.oracle.group 2 = { s.oracle with reads := .bytes [x, y] :: more } := group_two hr (by simp) (by simp)
  refine ⟨_, step_of_group hi, ?_⟩
  rw [step_of_quiet rfl, groupBytes, hg, runPhase_sRead (by exact hp),
    sRead_of_cons (r := .bytes [x, y]) (rest := more) rfl (fun l hl => by cases hl; simp)]
  rfl

/-- Settles O37: where CORE does not read, by `peerSends_of_not_reading`; at a waiting read, after unread answers, and
for groups, by the parts above. -/
theorem ackAndNakArrivals : Obligations.AckAndNakArrivals := by
  refine ⟨fun s h1 h2 => ?_, fun s hr => ⟨arrival_in_sRead hr, arrival_in_mRead hr⟩,
    fun s r rest i x hi hp hr ha => ?_, fun s n is hi => ?_, fun s x y more is => two_stale_bytes⟩
  · exact ⟨congrArg Host.Outcome.next (peerSends_of_not_reading [0x06] h1 h2),
      congrArg Host.Outcome.next (peerSends_of_not_reading [0x15] h1 h2)⟩
  · obtain ⟨es, h⟩ := arrival_after_unread x hp hr ha
    have he : exec i s = .next (peerSends [x] s) := by
      simp only [List.mem_cons, Prod.mk.injEq, List.not_mem_nil, or_false] at hi
      rcases hi with ⟨rfl, rfl⟩ | ⟨rfl, rfl⟩ <;> rfl
    exact ⟨_, es, he, h⟩
  · refine ⟨(s.oracle.group n).reads, ?_, group_keeps n s.oracle, fun l => group_of_arrivals⟩
    rw [step_of_group hi, groupBytes]
    exact congrArg (fun o => Host.Outcome.next { s with inputs := is, oracle := o }) (group_only_reads n s.oracle)

end Sys2Proof.Machine
end

section
/-! PROOF. The rows towards the peer: the host's at `IDLE`, CORE's in the phase that writes them (R77, R98, R173,
R198). -/

namespace Sys2Proof.Machine

/-! ### A transfer, by its owner -/

/-- At `IDLE` the host transfers. -/
theorem transferOut_of_idle {s : State} (l : List Byte) (ok : Bool) (phase : State → State) (h : s.ph = .idle) :
    transferOut l ok phase s = .next (hostTransmit l s) := if_pos h

/-- A phase of CORE that writes the bytes goes on. -/
theorem transferOut_of_written {s : State} {ok : Bool} (l : List Byte) (phase : State → State) (h : s.ph ≠ .idle)
    (hok : ok = true) : transferOut l ok phase s = .next (phase s) := by
  rw [transferOut, if_neg h, if_pos hok]

/-- A phase of CORE that does not write them faults. -/
theorem transferOut_of_not_written {s : State} {ok : Bool} (l : List Byte) (phase : State → State)
    (h : s.ph ≠ .idle) (hok : ok = false) : transferOut l ok phase s = .fault .notEmitted := by
  rw [transferOut, if_neg h, if_neg (by simp [hok])]

/-- A payload that is encoded makes FRAME the transfer of the frame. -/
theorem execFrame_of_encoded {idx rsv : Byte} {p : List Byte} {more : Bool} {f : Half × List Byte}
    (h : encodeFrame idx rsv p (!more) = some f) (s : State) :
    execFrame idx rsv p more s =
      transferOut f.2 (decide (s.ph = .sWrite ∧ memRead .out 0 cfg.frameLen s = f.2)) sWrite s := by
  rw [execFrame, h]

/-- A packet is transferred at `IDLE`. -/
theorem sendPacket_of_idle {s : State} (l : List Byte) (h : s.ph = .idle) :
    sendPacket (some l) s = .next (hostTransmit l s) :=
  whenIdle_of_idle (f := fun s => .next (hostTransmit l s)) h

/-- And held while an operation runs. -/
theorem sendPacket_of_busy {s : State} (l : List Byte) (h : s.ph ≠ .idle) :
    sendPacket (some l) s = .fault .hostHeld :=
  whenIdle_of_busy (f := fun s => .next (hostTransmit l s)) h

/-! ### At `IDLE` -/

/-- A packet has bytes. -/
theorem encodePacket_ne_nil {addr ins : Byte} {q l : List Byte} (h : encodePacket addr ins q = some l) : l ≠ [] := by
  rintro rfl
  exact absurd (encodePacket_length h) (by simp)

/-- A frame has bytes. -/
theorem encodeFrame_ne_nil {idx rsv : Byte} {p : List Byte} {last : Bool} {f : Half × List Byte}
    (h : encodeFrame idx rsv p last = some f) : f.2 ≠ [] := by
  intro hn
  have hl : f.2.length = 70 := encodeFrame_length h
  simp [hn] at hl

/-- At `IDLE` a row towards the peer is the host's transfer of its bytes, of which there is at least one; only INITBYTE
does more. -/
theorem exec_outbound_of_idle {i : Instr} {l : List Byte} {s : State} (he : encode i = some (.outbound l))
    (hi : i ≠ .initbyte) (hp : s.ph = .idle) : exec i s = .next (hostTransmit l s) ∧ l ≠ [] := by
  have packet (addr ins : Byte) (q : List Byte)
      (h : (encodePacket addr ins q).map PortWord.outbound = some (.outbound l)) :
      sendPacket (encodePacket addr ins q) s = .next (hostTransmit l s) ∧ l ≠ [] := by
    obtain ⟨_, hl, hm⟩ := Option.map_eq_some_iff.mp h
    cases hm
    exact ⟨by rw [hl]; exact sendPacket_of_idle l hp, encodePacket_ne_nil hl⟩
  cases i with
  | frame idx rsv p more =>
    obtain ⟨f, hf, hm⟩ := Option.map_eq_some_iff.mp he
    cases hm
    exact ⟨(execFrame_of_encoded hf s).trans (transferOut_of_idle _ _ _ hp), encodeFrame_ne_nil hf⟩
  | cmdpkt addr ins q =>
    simp only [encode] at he
    split at he
    · exact packet addr ins q he
    · cases he
  | pingpkt addr => exact packet addr cfg.insPing [] he
  | rebootpkt addr => exact packet addr cfg.insReboot [] he
  | stopLast | stopMore | magicseq =>
    cases he
    exact ⟨transferOut_of_idle _ _ _ hp, by simp⟩
  | initbyte => exact absurd rfl hi
  | _ => cases he

/-- Settles O35: the row is the host's transfer, whose cases `hostTransmit_cases` and `hostTransmit_of_done` give. -/
theorem hostTransfersWireRows : Obligations.HostTransfersWireRows := by
  intro i l s he hi hp
  obtain ⟨hx, hl⟩ := exec_outbound_of_idle he hi hp
  refine ⟨⟨_, hx, ?_⟩, fun ws fs hw hf => ?_⟩
  · obtain ⟨x, n, o, es, a, ht, -⟩ := hostTransmit_cases l s
    rw [ht]
    rfl
  · rw [hx, hostTransmit_of_done hl hw hf]
    rfl

/-! ### While an operation runs -/

/-- In `S_WRITE` a row that CORE writes there is the step. -/
theorem transferOut_eq_step_of_sWrite {s : State} (l : List Byte) {p : Prop} [Decidable p] (hin : s.inputs = [])
    (hp : s.ph = .sWrite) (h : p) : transferOut l (decide (s.ph = .sWrite ∧ p)) sWrite s = step s := by
  rw [transferOut_of_written l _ (by simp [hp]) (decide_eq_true ⟨hp, h⟩), step_of_no_input hin, runPhase_sWrite hp]

/-- In `M_WRITE` MAGICSEQ is the step. -/
theorem execMagicseq_eq_step {s : State} (hin : s.inputs = []) (hp : s.ph = .mWrite) : execMagicseq s = step s := by
  rw [execMagicseq, transferOut_of_written _ _ (by simp [hp]) (decide_eq_true hp), step_of_no_input hin,
    runPhase_mWrite hp]

/-- In a busy phase other than the two that write, none of CORE's rows is sent. -/
theorem wireRows_not_emitted {s : State} (h0 : s.ph ≠ .idle) (h1 : s.ph ≠ .sWrite) (h2 : s.ph ≠ .mWrite) :
    exec .stopLast s = .fault .notEmitted ∧ exec .stopMore s = .fault .notEmitted ∧
    exec .magicseq s = .fault .notEmitted ∧
    ∀ idx rsv p more, p.length = 64 → exec (.frame idx rsv p more) s = .fault .notEmitted := by
  have held (l : List Byte) (p : Prop) [Decidable p] :
      transferOut l (decide (s.ph = .sWrite ∧ p)) sWrite s = .fault .notEmitted :=
    transferOut_of_not_written l sWrite h0 (decide_eq_false fun h => h1 h.1)
  refine ⟨held _ _, held _ _, transferOut_of_not_written _ _ h0 (decide_eq_false h2), fun idx rsv p more hl => ?_⟩
  exact (execFrame_of_encoded (encodeFrame_of_length hl idx rsv !more) s).trans (held _ _)

/-- Settles O36: the frame in `OUT` is what `S_WRITE` writes, and offset 69 its last byte. -/
theorem coreEmitsWireRowsInItsPhases : Obligations.CoreEmitsWireRowsInItsPhases := by
  refine fun s hin => ⟨fun idx rsv p more he hp => ?_, fun hp h => ?_, fun hp h => ?_,
    execMagicseq_eq_step hin, fun h => ?_⟩
  · obtain ⟨f, hf, hm⟩ := Option.map_eq_some_iff.mp he
    have hout : f.2 = s.out := PortWord.outbound.inj hm
    have hl : f.2.length = 70 := encodeFrame_length hf
    have hmem : memRead .out 0 cfg.frameLen s = f.2 := by rw [memRead_out_all s (hout ▸ hl.le), hout]
    exact (execFrame_of_encoded hf s).trans (transferOut_eq_step_of_sWrite _ hin hp hmem)
  · exact transferOut_eq_step_of_sWrite _ hin hp h
  · exact transferOut_eq_step_of_sWrite _ hin hp h
  · refine wireRows_not_emitted ?_ ?_ ?_ <;> intro hp <;> simp [hp] at h

end Sys2Proof.Machine
end

section
/-! PROOF. What CORE's phases do not look at: the event history (R72) and the coming inputs. Putting another past
before the history and other inputs for the coming ones commutes with every phase. -/

namespace Sys2Proof.Machine

/-- The state with `past` put before its history, and `f` of its coming inputs in their place. -/
def reframe (past : List Event) (f : List Input → List Input) (s : State) : State :=
  { s with history := past ++ s.history, inputs := f s.inputs }

/-- How a writing or a flushing phase goes on from the answer: to the next phase, or `StreamError` with the value
`v`. Each of the four phases is, by definition, `goOn` after its primitive. -/
def goOn (next : Phase) (v : State → Half) : Answer × State → State
  | (.done, t) => { t with ph := next }
  | (.ioError, t) => raise .streamError (v t) t

section
variable (past : List Event) (f : List Input → List Input)

@[simp] theorem reframe_ph (s : State) : (reframe past f s).ph = s.ph := rfl

@[simp] theorem reframe_ivl (s : State) : (reframe past f s).ivl = s.ivl := rfl

@[simp] theorem reframe_bnd (s : State) : (reframe past f s).bnd = s.bnd := rfl

@[simp] theorem deadlineMet_reframe (n : Nat) (s : State) :
    deadlineMet n (reframe past f s) = deadlineMet n s := rfl

/-! ### The primitives -/

theorem addEvent_reframe (w : Owner) (d : Deed) (s : State) :
    addEvent w d (reframe past f s) = reframe past f (addEvent w d s) := by
  simp [addEvent, reframe]

theorem streamWrite_reframe (w : Owner) (l : List Byte) (k : Nat) (s : State) :
    streamWrite w l k (reframe past f s) =
      ((streamWrite w l k s).1, reframe past f (streamWrite w l k s).2) := by
  unfold streamWrite
  rcases h : s.oracle.nextWrite with ⟨_ | _, o⟩ <;> simp [reframe, addEvent, h]

theorem streamFlush_reframe (w : Owner) (s : State) :
    streamFlush w (reframe past f s) = ((streamFlush w s).1, reframe past f (streamFlush w s).2) := by
  unfold streamFlush
  rcases h : s.oracle.nextFlush with ⟨_ | _, o⟩ <;> simp [reframe, addEvent, h]

theorem streamRead_reframe (w : Owner) (s : State) :
    streamRead w (reframe past f s) = ((streamRead w s).1, reframe past f (streamRead w s).2) :=
  congrArg (Prod.mk _) (addEvent_reframe past f w _ { s with clock := s.clock + _, oracle := _ })

theorem streamSetTimeout_reframe (w : Owner) (t : Ticks) (s : State) :
    streamSetTimeout w t (reframe past f s) =
      ((streamSetTimeout w t s).1, reframe past f (streamSetTimeout w t s).2) :=
  congrArg (Prod.mk _) (addEvent_reframe past f w _ { s with rto := t, oracle := _ })

theorem now_reframe (s : State) : now (reframe past f s) = ((now s).1, reframe past f (now s).2) := rfl

theorem goOn_reframe {next : Phase} {v : State → Half} (hv : ∀ t, v (reframe past f t) = v t)
    (p : Answer × State) :
    goOn next v (p.1, reframe past f p.2) = reframe past f (goOn next v p) := by
  rcases p with ⟨_ | _, t⟩
  · rfl
  · simp only [goOn, hv]; rfl

/-! ### The phases, each by its primitive -/

@[simp] theorem sWrite_reframe (s : State) : sWrite (reframe past f s) = reframe past f (sWrite s) :=
  (congrArg (goOn .sFlush attVal) (streamWrite_reframe past f .core (memRead .out 0 cfg.frameLen s)
    (s.writing.getD 0) { s with att := countAttempt s, writing := none })).trans
    (goOn_reframe past f (fun _ => rfl) _)

@[simp] theorem sFlush_reframe (s : State) : sFlush (reframe past f s) = reframe past f (sFlush s) :=
  (congrArg (goOn .sRead attVal) (streamFlush_reframe past f .core s)).trans (goOn_reframe past f (fun _ => rfl) _)

@[simp] theorem mWrite_reframe (s : State) : mWrite (reframe past f s) = reframe past f (mWrite s) :=
  (congrArg (goOn .mFlush fun _ => 0) (streamWrite_reframe past f .core cfg.magicSeq (s.writing.getD 0)
    { s with writing := none })).trans (goOn_reframe past f (fun _ => rfl) _)

@[simp] theorem mFlush_reframe (s : State) : mFlush (reframe past f s) = reframe past f (mFlush s) :=
  (congrArg (goOn .mRead fun _ => 0) (streamFlush_reframe past f .core s)).trans
    (goOn_reframe past f (fun _ => rfl) _)

theorem sClassify_reframe (r : ReadAnswer) (s : State) :
    sClassify r (reframe past f s) = reframe past f (sClassify r s) := by
  unfold sClassify attemptsRemain
  split
  case h_4 x =>
    by_cases ha : x = cfg.ack
    · simp only [if_pos ha]; rfl
    · by_cases hn : x = cfg.nak
      · by_cases hm : s.att.toNat ≤ s.maxr.toNat <;> simp [hn, hm, reframe, attVal, respond]
      · simp only [if_neg ha, if_neg hn]; rfl
  all_goals rfl

@[simp] theorem sRead_reframe (s : State) : sRead (reframe past f s) = reframe past f (sRead s) := by
  rw [sRead, streamRead_reframe]
  exact sClassify_reframe past f _ _

@[simp] theorem mSetup_reframe (s : State) : mSetup (reframe past f s) = reframe past f (mSetup s) := by
  unfold mSetup
  rw [reframe_ivl, streamSetTimeout_reframe]
  rcases streamSetTimeout .core s.ivl s with ⟨_ | _, t⟩ <;> rfl

theorem mClassify_reframe (r : ReadAnswer) (s : State) :
    mClassify r (reframe past f s) = reframe past f (mClassify r s) := by
  unfold mClassify
  split
  case h_1 => simp [addEvent, reframe]
  case h_4 x => split <;> rfl
  all_goals rfl

@[simp] theorem mRead_reframe (s : State) : mRead (reframe past f s) = reframe past f (mRead s) := by
  rw [mRead, streamRead_reframe]
  exact mClassify_reframe past f _ _

@[simp] theorem mCheck_reframe (s : State) : mCheck (reframe past f s) = reframe past f (mCheck s) := by
  cases hb : s.bnd
  · simp only [mCheck, reframe_bnd, hb]; rfl
  · cases hd : deadlineMet (now s).1 (now s).2 <;>
      simp only [mCheck, reframe_bnd, now_reframe, deadlineMet_reframe, hb, hd] <;> rfl

/-- Every phase commutes with another past and other inputs. -/
theorem runPhase_reframe (s : State) : runPhase (reframe past f s) = reframe past f (runPhase s) := by
  cases hp : s.ph <;> simp [hp]

/-- And so does a wait. -/
theorem waitPhase_reframe (n : Nat) (s : State) : waitPhase n (reframe past f s) = reframe past f (waitPhase n s) := by
  simp only [waitPhase, reframe_ph]
  cases s.ph with
  | idle | mCheck => exact runPhase_reframe past f s
  | _ => rfl

end

/-- Other coming inputs change nothing about a phase. -/
theorem runPhase_inputs (is : List Input) (s : State) :
    runPhase { s with inputs := is } = { runPhase s with inputs := is } :=
  runPhase_reframe [] (fun _ => is) s

end Sys2Proof.Machine
end

section
/-! PROOF. While an operation runs the host is held (R76), and CORE waits for the stream (R66, R282). -/

namespace Sys2Proof.Machine

/-- A phase does not look at the coming inputs, and leaves them. -/
theorem step_no_input_eq_runPhase (is : List Input) (s : State) :
    step { s with inputs := [] } = .next { runPhase { s with inputs := is } with inputs := [] } :=
  (step_of_no_input rfl).trans (congrArg Host.Outcome.next (runPhase_inputs [] { s with inputs := is }))

/-- A wait in `M_CHECK` is the phase's own step (R282). -/
theorem waitPhase_mCheck {s : State} (n : Nat) (h : s.ph = .mCheck) : waitPhase n s = runPhase s := by
  simp only [waitPhase, h]

/-- Outside the writing phases and `M_CHECK` a wait changes nothing. -/
theorem waitPhase_of_not_writing {s : State} (n : Nat) (hs : s.ph ≠ .sWrite) (hm : s.ph ≠ .mWrite)
    (hc : s.ph ≠ .mCheck) : waitPhase n s = s := by
  rcases waitPhase_cases n s with h | ⟨hp, _⟩ | ⟨hp, _⟩ | ⟨hp, _⟩
  · exact h
  · exact absurd hp hc
  · exact absurd hp hs
  · exact absurd hp hm

/-- A wait elsewhere than in `M_CHECK` leaves the phase, performs no event, delivers no response and draws no
answer. -/
theorem waitPhase_keeps {s : State} (n : Nat) (hc : s.ph ≠ .mCheck) :
    (waitPhase n s).ph = s.ph ∧ (waitPhase n s).inputs = s.inputs ∧ (waitPhase n s).history = s.history ∧
      (waitPhase n s).responses = s.responses ∧ (waitPhase n s).oracle = s.oracle ∧
      (waitPhase n s).host = s.host := by
  rcases waitPhase_cases n s with h | ⟨hp, _⟩ | ⟨_, h⟩ | ⟨_, h⟩
  · rw [h]; exact ⟨rfl, rfl, rfl, rfl, rfl, rfl⟩
  · exact absurd hp hc
  · rw [h]; exact ⟨rfl, rfl, rfl, rfl, rfl, rfl⟩
  · rw [h]; exact ⟨rfl, rfl, rfl, rfl, rfl, rfl⟩

/-- The instructions that only the host gives, and that have a meaning whatever their operands: CMDPKT, which can be
ill-formed, is not one of them. -/
def hostOnly : Instr → Prop
  | .crcclr | .crcpush _ | .crc16 | .dclr | .dpush _ | .ocpy | .ord _ | .rdreg _ | .fenc _ _ _ | .penc _ _
  | .send _ | .magic _ _ | .ping _ | .reboot _ | .pingpkt _ | .rebootpkt _ | .initbyte => True
  | .frame _ _ _ _ | .cmdpkt _ _ _ | .ack | .nak | .stopLast | .stopMore | .magicseq => False

/-- They fault while an operation runs. -/
theorem exec_hostOnly_of_busy {i : Instr} {s : State} (hi : hostOnly i) (h : s.ph ≠ .idle) :
    exec i s = .fault .hostHeld := by
  cases i with
  | frame | cmdpkt | ack | nak | stopLast | stopMore | magicseq => exact hi.elim
  | pingpkt addr =>
    exact (congrArg (sendPacket · s) (encodePacket_of_le (q := []) (by simp) addr cfg.insPing)).trans
      (sendPacket_of_busy _ h)
  | rebootpkt addr =>
    exact (congrArg (sendPacket · s) (encodePacket_of_le (q := []) (by simp) addr cfg.insReboot)).trans
      (sendPacket_of_busy _ h)
  | ping addr => exact (whenIdle_of_busy h : dclrThenPenc addr cfg.insPing s = _)
  | reboot addr => exact (whenIdle_of_busy h : dclrThenPenc addr cfg.insReboot s = _)
  | _ => simp only [exec]; exact whenIdle_of_busy h

/-- Settles O41: the host's action is left and CORE's phase runs; a wait is `waitPhase`; the host's own instructions
fault. -/
theorem hostIsHeldWhileBusy : Obligations.HostIsHeldWhileBusy := by
  refine fun s hp => ⟨fun h rest hi => ?_, fun n rest hi => ⟨fun hc => ?_, fun hs hm hc => ?_, fun hc => ?_⟩,
    fun b r idx rsv addr ins maxr i9 last ivl mw i hi => exec_hostOnly_of_busy ?_ hp⟩
  · obtain ⟨_, _, _, _, _, _, _, _, _, hin, hhost⟩ := runPhase_frame s
    exact ⟨_, step_of_host_busy hi hp, hin, hhost, step_no_input_eq_runPhase s.inputs s⟩
  · exact ⟨_, step_of_wait hi, waitPhase_keeps n (by exact hc)⟩
  · rw [step_of_wait hi, waitPhase_of_not_writing n (by exact hs) (by exact hm) (by exact hc)]
  · obtain ⟨_, _, _, _, _, _, _, _, _, hin, _⟩ := runPhase_frame { s with inputs := rest }
    rw [step_of_wait hi, waitPhase_mCheck n (by exact hc)]
    exact ⟨_, rfl, hin, step_no_input_eq_runPhase rest s⟩
  · revert i
    simp [hostOnly]

end Sys2Proof.Machine
end

section
/-! PROOF. The history is never read (R72): putting another past before it commutes with every step. -/

namespace Sys2Proof.Machine

/-- The state with `past` put before its history. -/
def withPast (past : List Event) (s : State) : State := reframe past id s

/-- The next state changed by `g`, if there is one. -/
def mapNext (g : State → State) : Host.Outcome State Fault Refusal → Host.Outcome State Fault Refusal
  | .next s => .next (g s)
  | .fault r => .fault r
  | .refused r => .refused r

/-- Another past changes nothing but the past. -/
def PastBlind (m : State → Host.Outcome State Fault Refusal) : Prop :=
  ∀ past s, m (withPast past s) = mapNext (withPast past) (m s)

/-- The same of an operation that always has a next state. -/
def PastBlindNext (m : State → State) : Prop := ∀ past s, m (withPast past s) = withPast past (m s)

/-! ### Ways to build an operation -/

theorem PastBlindNext.outcome {m : State → State} (h : PastBlindNext m) : PastBlind fun s => .next (m s) :=
  fun past s => congrArg Host.Outcome.next (h past s)

theorem PastBlindNext.comp {m n : State → State} (hm : PastBlindNext m) (hn : PastBlindNext n) :
    PastBlindNext fun s => m (n s) :=
  fun past s => (congrArg m (hn past s)).trans (hm past (n s))

theorem pastBlindNext_ite {c : State → Prop} [DecidablePred c] {m n : State → State}
    (hc : ∀ past s, c (withPast past s) ↔ c s) (hm : PastBlindNext m) (hn : PastBlindNext n) :
    PastBlindNext fun s => if c s then m s else n s := by
  intro past s
  by_cases h : c s
  · simp only [if_pos h, if_pos ((hc past s).mpr h)]
    exact hm past s
  · simp only [if_neg h, if_neg ((hc past s).not.mpr h)]
    exact hn past s

theorem pastBlind_whenIdle {m : State → Host.Outcome State Fault Refusal} (h : PastBlind m) :
    PastBlind fun s => whenIdle s m := by
  intro past s
  by_cases hp : s.ph = .idle
  · simp only [whenIdle_of_idle hp, whenIdle_of_idle (s := withPast past s) hp]
    exact h past s
  · simp only [whenIdle_of_busy hp, whenIdle_of_busy (s := withPast past s) hp]
    rfl

theorem pastBlind_checked {ok : State → Bool} {m : State → State} (hok : ∀ past s, ok (withPast past s) = ok s)
    (h : PastBlindNext m) : PastBlind fun s => checked (ok s) s m := by
  intro past s
  simp only [checked, hok]
  cases ok s
  · rfl
  · exact h.outcome past s

/-! ### The host's path, the phases and arrivals -/

theorem pastBlindNext_hostTransmit (l : List Byte) : PastBlindNext (hostTransmit l) := by
  intro past s
  unfold hostTransmit withPast
  split
  · rfl
  · rw [streamWrite_reframe]
    rcases streamWrite .host l 0 s with ⟨_ | _, t⟩
    · simp only [streamFlush_reframe]; rfl
    · rfl

theorem pastBlindNext_hostReceive : PastBlindNext hostReceive := by
  intro past s
  unfold hostReceive withPast
  rw [streamRead_reframe]
  rfl

theorem pastBlindNext_hostSetTimeout (τ : Ticks) : PastBlindNext (hostSetTimeout τ) := by
  intro past s
  unfold hostSetTimeout withPast
  rw [streamSetTimeout_reframe]
  rfl

theorem pastBlindNext_runPhase : PastBlindNext runPhase := fun past s => runPhase_reframe past id s

theorem pastBlindNext_peerSends (l : List Byte) : PastBlindNext (peerSends l) := by
  intro past s
  by_cases h : s.ph = .sRead ∨ s.ph = .mRead
  · rw [peerSends_of_reading l h, peerSends_of_reading (s := withPast past s) l h]
    exact pastBlindNext_runPhase past
      { s with oracle := { s.oracle with reads := s.oracle.reads ++ [.bytes l] } }
  · obtain ⟨h1, h2⟩ := not_or.mp h
    rw [peerSends_of_not_reading l h1 h2, peerSends_of_not_reading (s := withPast past s) l h1 h2]
    rfl

/-! ### The instructions -/

@[simp] theorem withPast_ph (past : List Event) (s : State) : (withPast past s).ph = s.ph := rfl

@[simp] theorem withPast_din (past : List Event) (s : State) : (withPast past s).din = s.din := rfl

@[simp] theorem withPast_host (past : List Event) (s : State) : (withPast past s).host = s.host := rfl

@[simp] theorem withPast_reply (past : List Event) (s : State) : (withPast past s).reply = s.reply := rfl

@[simp] theorem withPast_inputs (past : List Event) (s : State) : (withPast past s).inputs = s.inputs := rfl

@[simp] theorem readByte_withPast (sp : Space) (i : Nat) (past : List Event) (s : State) :
    readByte sp i (withPast past s) = readByte sp i s := by cases sp <;> rfl

@[simp] theorem regRead_withPast (r : Byte) (past : List Event) (s : State) :
    regRead r (withPast past s) = regRead r s := rfl

theorem pastBlind_execPenc (addr ins : Byte) : PastBlind (execPenc addr ins) :=
  pastBlind_whenIdle fun past s => by simp only [withPast_din]; split <;> rfl

theorem pastBlind_dclrThenPenc (addr ins : Byte) : PastBlind (dclrThenPenc addr ins) :=
  pastBlind_whenIdle fun past s => pastBlind_execPenc addr ins past (completeOk 0 (clearDin s))

theorem pastBlind_sendPacket (p : Option (List Byte)) : PastBlind (sendPacket p) := by
  cases p with
  | none => exact fun _ _ => rfl
  | some l => exact pastBlind_whenIdle (pastBlindNext_hostTransmit l).outcome

theorem pastBlind_transferOut (l : List Byte) {ok : State → Bool} {phase : State → State}
    (hok : ∀ past s, ok (withPast past s) = ok s) (h : PastBlindNext phase) :
    PastBlind fun s => transferOut l (ok s) phase s := by
  intro past s
  simp only [transferOut, hok, withPast_ph]
  split
  · exact (pastBlindNext_hostTransmit l).outcome past s
  · split
    · exact h.outcome past s
    · rfl

theorem pastBlind_execFrame (idx rsv : Byte) (p : List Byte) (more : Bool) :
    PastBlind (execFrame idx rsv p more) := by
  unfold execFrame
  split
  · exact pastBlind_transferOut _ (fun _ _ => rfl) fun past s => sWrite_reframe past id s
  · exact fun _ _ => rfl

theorem pastBlind_execInitbyte : PastBlind execInitbyte := by
  have read : PastBlindNext fun t => if t.host.lastAnswer = some .done then hostReceive t else t :=
    pastBlindNext_ite (fun _ _ => Iff.rfl) pastBlindNext_hostReceive fun _ _ => rfl
  have sent : PastBlindNext fun s => hostTransmit [cfg.initByte] (forgetRead s) :=
    (pastBlindNext_hostTransmit [cfg.initByte]).comp fun _ _ => rfl
  exact pastBlind_whenIdle (read.comp sent).outcome

/-- No instruction looks at the past. -/
theorem pastBlind_exec (i : Instr) : PastBlind (exec i) := by
  cases i with
  | crcclr | crcpush | dclr | ocpy | magic => exact pastBlind_whenIdle fun _ _ => rfl
  | crc16 => exact pastBlind_whenIdle fun past s => by simp only [withPast_din]; split <;> rfl
  | ord i => exact pastBlind_whenIdle fun past s => by simp only [readByte_withPast]; split <;> rfl
  | rdreg r => exact pastBlind_whenIdle fun past s => by simp only [regRead_withPast]; split <;> rfl
  | fenc idx rsv last => exact pastBlind_whenIdle fun past s => by simp only [withPast_din]; split <;> rfl
  | dpush b => exact pastBlind_whenIdle (pastBlind_checked (fun _ _ => rfl) fun _ _ => rfl)
  | send maxr =>
    refine pastBlind_whenIdle (pastBlind_checked (fun _ _ => rfl) fun past s => ?_)
    simp only [readByte_withPast]
    split <;> rfl
  | penc addr ins => exact pastBlind_execPenc addr ins
  | ping addr => exact pastBlind_dclrThenPenc addr cfg.insPing
  | reboot addr => exact pastBlind_dclrThenPenc addr cfg.insReboot
  | frame idx rsv p more => exact pastBlind_execFrame idx rsv p more
  | cmdpkt addr ins q => exact pastBlind_sendPacket (encodePacket addr ins q)
  | pingpkt addr => exact pastBlind_sendPacket (encodePacket addr cfg.insPing [])
  | rebootpkt addr => exact pastBlind_sendPacket (encodePacket addr cfg.insReboot [])
  | ack => exact (pastBlindNext_peerSends [cfg.ack]).outcome
  | nak => exact (pastBlindNext_peerSends [cfg.nak]).outcome
  | stopLast | stopMore =>
    exact pastBlind_transferOut _ (fun _ _ => rfl) fun past s => sWrite_reframe past id s
  | magicseq => exact pastBlind_transferOut _ (fun _ _ => rfl) fun past s => mWrite_reframe past id s
  | initbyte => exact pastBlind_execInitbyte

/-! ### Every step -/

theorem pastBlind_runRequest (r : Request) : PastBlind (runRequest r) := by
  unfold runRequest
  split
  · exact pastBlind_exec _
  · exact fun _ _ => rfl

theorem pastBlind_runPair (r1 r2 : Request) : PastBlind (runPair r1 r2) := by
  unfold runPair
  split
  · exact pastBlind_exec _
  · exact fun past s => pastBlind_runRequest r1 past { s with inputs := .host (.request r2) :: s.inputs }

theorem pastBlind_runTransmit (l : List Byte) : PastBlind (runTransmit l) := by
  unfold runTransmit
  split
  · exact pastBlind_exec _
  · exact (pastBlindNext_hostTransmit l).outcome

theorem pastBlindNext_expectOk : PastBlindNext expectOk := by
  intro past s
  simp only [expectOk, withPast_reply]
  split
  · split <;> rfl
  · rfl

theorem pastBlindNext_expectDone : PastBlindNext expectDone :=
  pastBlindNext_ite (fun _ _ => Iff.rfl) (fun _ _ => rfl) fun _ _ => rfl

theorem pastBlindNext_expectAck : PastBlindNext expectAck :=
  pastBlindNext_ite (fun _ _ => Iff.rfl) (fun _ _ => rfl) fun _ _ => rfl

theorem pastBlindNext_noteReply (addr : Byte) : PastBlindNext (noteReply addr) := by
  intro past s
  simp only [noteReply, withPast_host]
  split <;> rfl

theorem pastBlindNext_endScan : PastBlindNext endScan := by
  intro past s
  simp only [endScan, withPast_host]
  split <;> rfl

theorem pastBlind_rebootFound (k : Nat) : PastBlind (rebootFound k) := by
  intro past s
  simp only [rebootFound, foundAddress, withPast_host]
  split
  · exact pastBlind_runPair _ _ past s
  · rfl

theorem pastBlind_fencChunk : PastBlind fencChunk := by
  intro past s
  simp only [fencChunk, withPast_host]
  split
  · exact pastBlind_runRequest _ past s
  · rfl

theorem pastBlind_runHost (a : HostOp) : PastBlind (runHost a) := by
  cases a with
  | request r => exact pastBlind_runRequest r
  | pair r1 r2 => exact pastBlind_runPair r1 r2
  | transmit l => exact pastBlind_runTransmit l
  | transmitPacket => exact fun past s => (pastBlindNext_hostTransmit s.host.packet).outcome past s
  | receive => exact pastBlindNext_hostReceive.outcome
  | setTimeout τ => exact (pastBlindNext_hostSetTimeout τ).outcome
  | expectOk => exact pastBlindNext_expectOk.outcome
  | expectDone => exact pastBlindNext_expectDone.outcome
  | expectAck => exact pastBlindNext_expectAck.outcome
  | noteReply addr => exact (pastBlindNext_noteReply addr).outcome
  | endScan => exact pastBlindNext_endScan.outcome
  | rebootFound k => exact pastBlind_rebootFound k
  | fencChunk => exact pastBlind_fencChunk
  | clearPacket | collect | beginScan | openSession | chunkSent | report | reportIndex => exact fun _ _ => rfl

/-- A step, by its next input. -/
theorem pastBlind_step : PastBlind step := by
  intro past s
  simp only [step, withPast_inputs]
  split
  · exact pastBlindNext_runPhase.outcome past s
  · rename_i i rest _
    cases i with
    | quiet => exact pastBlindNext_runPhase.outcome past { s with inputs := rest }
    | reset => rfl
    | wait n => exact congrArg Host.Outcome.next (waitPhase_reframe past id n { s with inputs := rest })
    | peer l =>
      simp only [takeInput, runArrival_eq]
      exact (pastBlindNext_peerSends l).outcome past { s with inputs := rest }
    | group n => rfl
    | host a =>
      by_cases hp : s.ph = .idle
      · simp only [takeInput, if_pos hp, if_pos (show (withPast past s).ph = .idle from hp)]
        exact pastBlind_runHost a past { s with inputs := rest }
      · simp only [takeInput, if_neg hp, if_neg (show (withPast past s).ph ≠ .idle from hp)]
        exact pastBlindNext_runPhase.outcome past s

/-- Settles O53: both states are the one without a past, with two pasts. -/
theorem historyIsNeverRead : Obligations.HistoryIsNeverRead := by
  intro s t h hst
  have hs : s = withPast s.history { s with history := [] } := by simp [withPast, reframe]
  have hh : { s with history := h } = withPast h { s with history := [] } := by simp [withPast, reframe]
  rw [hs, pastBlind_step] at hst
  cases hu : step { s with history := [] } with
  | next u =>
    rw [hu] at hst
    cases hst
    refine ⟨u.history, rfl, ?_⟩
    rw [hh, pastBlind_step, hu]
    rfl
  | fault r | refused r => rw [hu] at hst; cases hst

end Sys2Proof.Machine
end

section
/-! PROOF. Which instructions write the buffers (R31, R32, R60). -/

namespace Sys2Proof.Machine

/-- Both buffers stay. -/
def SameBuffers (s t : State) : Prop := t.din = s.din ∧ t.out = s.out

section
variable {s t : State}

theorem PhaseFrame.sameBuffers (h : PhaseFrame s t) : SameBuffers s t := by
  obtain ⟨hdin, hout, _⟩ := h
  exact ⟨hdin, hout⟩

theorem OnlyEnvironmentDiffers.sameBuffers (h : OnlyEnvironmentDiffers s t) : SameBuffers s t := by
  rw [h.1]
  exact ⟨rfl, rfl⟩

theorem sWrite_sameBuffers (s : State) : SameBuffers s (sWrite s) := by
  rcases sWrite_cases s with ⟨o, h⟩ | ⟨n, o, h⟩ <;> rw [h] <;> exact ⟨rfl, rfl⟩

theorem mWrite_sameBuffers (s : State) : SameBuffers s (mWrite s) := by
  rcases mWrite_cases s with ⟨o, h⟩ | ⟨n, o, h⟩ <;> rw [h] <;> exact ⟨rfl, rfl⟩

theorem hostTransmit_sameBuffers (l : List Byte) (s : State) : SameBuffers s (hostTransmit l s) :=
  (hostTransmit_environment l s).sameBuffers

/-- The bytes are transferred by the host's path, or by a phase that leaves the buffers. -/
theorem transferOut_sameBuffers {l : List Byte} {ok : Bool} {phase : State → State}
    (hphase : SameBuffers s (phase s)) (h : transferOut l ok phase s = .next t) : SameBuffers s t := by
  unfold transferOut at h
  split at h
  · cases h; exact hostTransmit_sameBuffers l s
  · split at h <;> cases h
    exact hphase

theorem sendPacket_sameBuffers {p : Option (List Byte)} (h : sendPacket p s = .next t) : SameBuffers s t := by
  cases p with
  | none => cases h
  | some l =>
    obtain ⟨_, h⟩ := whenIdle_next (f := fun s => .next (hostTransmit l s)) h
    cases h
    exact hostTransmit_sameBuffers l s

theorem execFrame_sameBuffers {idx rsv : Byte} {p : List Byte} {more : Bool}
    (h : execFrame idx rsv p more s = .next t) : SameBuffers s t := by
  unfold execFrame at h
  split at h
  · exact transferOut_sameBuffers (sWrite_sameBuffers s) h
  · cases h

theorem execInitbyte_sameBuffers (h : execInitbyte s = .next t) : SameBuffers s t := by
  have hs : SameBuffers s (hostTransmit [cfg.initByte] (forgetRead s)) := hostTransmit_sameBuffers _ (forgetRead s)
  obtain ⟨_, h⟩ := whenIdle_next h
  simp only [Host.Outcome.next.injEq] at h
  split at h <;> rw [← h] <;> exact hs

end

/-- A checked operation is done, or refused. -/
theorem checked_cases {ok : Bool} {s t : State} {f : State → State} (h : checked ok s f = .next t) :
    t = f s ∨ t = refuse s := by
  cases ok <;> cases h
  · exact .inr rfl
  · exact .inl rfl

/-- What an executed instruction leaves of the buffers (R60): DCLR and DPUSH leave `OUT`; OCPY, PENC and FENC leave
`DIN`; the pseudo-operations, which issue DCLR and PENC, may write both; every other leaves both. -/
def LeavesBuffers (i : Instr) (s t : State) : Prop :=
  match i with
  | .dclr | .dpush _ => t.out = s.out
  | .ocpy | .penc _ _ | .fenc _ _ _ => t.din = s.din
  | .ping _ | .reboot _ => True
  | _ => SameBuffers s t

theorem execSend_sameBuffers {maxr : Byte} {s t : State} (h : execSend maxr s = .next t) : SameBuffers s t := by
  obtain ⟨_, h⟩ := whenIdle_next h
  rcases checked_cases h with rfl | rfl
  · split <;> exact ⟨rfl, rfl⟩
  · exact ⟨rfl, rfl⟩

theorem exec_leavesBuffers {i : Instr} {s t : State} (h : exec i s = .next t) : LeavesBuffers i s t := by
  cases i with
  | crcclr | crcpush | magic =>
    simp only [exec] at h
    obtain ⟨_, h⟩ := whenIdle_next h
    cases h
    exact ⟨rfl, rfl⟩
  | crc16 | ord | rdreg =>
    simp only [exec] at h
    obtain ⟨_, h⟩ := whenIdle_next h
    split at h <;> cases h <;> exact ⟨rfl, rfl⟩
  | dclr | ocpy =>
    simp only [exec] at h
    obtain ⟨_, h⟩ := whenIdle_next h
    cases h
    exact rfl
  | dpush b =>
    simp only [exec] at h
    obtain ⟨_, h⟩ := whenIdle_next h
    rcases checked_cases h with rfl | rfl <;> exact rfl
  | penc | fenc =>
    simp only [exec] at h
    obtain ⟨_, h⟩ := whenIdle_next h
    split at h <;> cases h <;> exact rfl
  | ping | reboot => trivial
  | send maxr => exact execSend_sameBuffers h
  | frame idx rsv p more => exact execFrame_sameBuffers h
  | cmdpkt addr ins q => exact sendPacket_sameBuffers h
  | pingpkt addr => exact sendPacket_sameBuffers (p := encodePacket addr cfg.insPing []) h
  | rebootpkt addr => exact sendPacket_sameBuffers (p := encodePacket addr cfg.insReboot []) h
  | ack | nak => cases h; exact (peerSends_frame _ s).sameBuffers
  | stopLast | stopMore => exact transferOut_sameBuffers (sWrite_sameBuffers s) h
  | magicseq => exact transferOut_sameBuffers (mWrite_sameBuffers s) h
  | initbyte => exact execInitbyte_sameBuffers h

/-- Settles O51: each byte is read from its buffer, and `exec_leavesBuffers` says who leaves it. -/
theorem onlyListedOperationsWriteBuffers : Obligations.OnlyListedOperationsWriteBuffers := by
  intro i s t h hping hreboot
  have hb := exec_leavesBuffers h
  refine ⟨fun hclr hpush k => ?_, fun hcpy hpenc hfenc k => ?_⟩
  · have hdin : t.din = s.din := by
      cases i with
      | dclr => exact absurd rfl hclr
      | dpush b => exact absurd rfl (hpush b)
      | ping a => exact absurd rfl (hping a)
      | reboot a => exact absurd rfl (hreboot a)
      | ocpy | penc | fenc => exact hb
      | _ => exact hb.1
    exact congrArg (·[k]?) hdin
  · have hout : t.out = s.out := by
      cases i with
      | ocpy => exact absurd rfl hcpy
      | penc a i => exact absurd rfl (hpenc a i)
      | fenc a r l => exact absurd rfl (hfenc a r l)
      | ping a => exact absurd rfl (hping a)
      | reboot a => exact absurd rfl (hreboot a)
      | dclr | dpush => exact hb
      | _ => exact hb.2
    exact congrArg (·[k]?) hout

end Sys2Proof.Machine
end

section
/-! PROOF. Whose the events of a step are (R77, R276): the host's at `IDLE`, CORE's while an operation runs. -/

namespace Sys2Proof.Machine

/-- From `s` to `t` events of `w` alone join the history. -/
def AddsOnly (w : Owner) (s t : State) : Prop :=
  ∃ es, t.history = s.history ++ es ∧ ∀ e ∈ es, e.who = w

section
variable {w : Owner} {s t u : State}

theorem addsOnly_none (w : Owner) (h : t.history = s.history) : AddsOnly w s t := ⟨[], by simp [h], nofun⟩

theorem addsOnly_one {d : Deed} (h : t.history = s.history ++ [{ who := w, deed := d }]) : AddsOnly w s t :=
  ⟨_, h, by simp⟩

theorem AddsOnly.trans (h : AddsOnly w s t) (h' : AddsOnly w t u) : AddsOnly w s u := by
  obtain ⟨es, hh, hw⟩ := h
  obtain ⟨es', hh', hw'⟩ := h'
  refine ⟨es ++ es', by rw [hh', hh, List.append_assoc], fun e he => ?_⟩
  exact (List.mem_append.mp he).elim (hw e) (hw' e)

/-! ### CORE's phases -/

theorem addsOnly_sClassify (r : ReadAnswer) (s : State) : AddsOnly .core s (sClassify r s) :=
  addsOnly_none .core (sClassify_stream r s).1

theorem addsOnly_mClassify (r : ReadAnswer) (s : State) : AddsOnly .core s (mClassify r s) := by
  rcases mClassify_cases r s with ⟨_, h⟩ | ⟨_, h⟩ | ⟨_, h⟩ | ⟨l, n, b, _, h⟩ <;> rw [h]
  · exact addsOnly_none .core rfl
  · exact addsOnly_none .core rfl
  · exact addsOnly_one (d := .progress) rfl
  · exact addsOnly_none .core rfl

theorem addsOnly_runPhase (s : State) : AddsOnly .core s (runPhase s) := by
  cases hp : s.ph with
  | idle => rw [runPhase_idle hp]; exact addsOnly_none .core rfl
  | sWrite =>
    rw [runPhase_sWrite hp]
    rcases sWrite_cases s with ⟨o, h⟩ | ⟨n, o, h⟩ <;> rw [h] <;> exact addsOnly_one rfl
  | sFlush =>
    rw [runPhase_sFlush hp]
    rcases sFlush_cases s with ⟨o, h⟩ | ⟨n, o, h⟩ <;> rw [h] <;> exact addsOnly_one rfl
  | sRead =>
    rw [runPhase_sRead hp]
    obtain ⟨r, o, h⟩ := sRead_cases s
    rw [h]
    exact AddsOnly.trans (addsOnly_one (d := .read r) rfl) (addsOnly_sClassify r _)
  | mSetup =>
    rw [runPhase_mSetup hp]
    rcases mSetup_cases s with ⟨n, o, h⟩ | ⟨o, h⟩ <;> rw [h] <;> exact addsOnly_one rfl
  | mWrite =>
    rw [runPhase_mWrite hp]
    rcases mWrite_cases s with ⟨o, h⟩ | ⟨n, o, h⟩ <;> rw [h] <;> exact addsOnly_one rfl
  | mFlush =>
    rw [runPhase_mFlush hp]
    rcases mFlush_cases s with ⟨o, h⟩ | ⟨n, o, h⟩ <;> rw [h] <;> exact addsOnly_one rfl
  | mRead =>
    rw [runPhase_mRead hp]
    obtain ⟨r, o, h⟩ := mRead_cases s
    rw [h]
    exact AddsOnly.trans (addsOnly_one (d := .read r) rfl) (addsOnly_mClassify r _)
  | mCheck =>
    rw [runPhase_mCheck hp]
    rcases mCheck_cases s with ⟨n, o, _, h⟩ | ⟨n, o, h⟩ <;> rw [h] <;> exact addsOnly_none .core rfl

theorem addsOnly_waitPhase (n : Nat) (s : State) : AddsOnly .core s (waitPhase n s) := by
  by_cases hc : s.ph = .mCheck
  · rw [waitPhase_mCheck n hc]
    exact addsOnly_runPhase s
  · obtain ⟨_, _, hh, _⟩ := waitPhase_keeps n hc
    exact addsOnly_none .core hh

/-! ### The host's path -/

theorem addsOnly_hostTransmit (l : List Byte) (s : State) : AddsOnly .host s (hostTransmit l s) := by
  obtain ⟨x, n, o, es, a, h, hw, -⟩ := hostTransmit_cases l s
  rw [h]
  exact ⟨es, rfl, hw⟩

theorem addsOnly_hostReceive (s : State) : AddsOnly .host s (hostReceive s) := by
  obtain ⟨r, o, h⟩ := hostReceive_cases s
  rw [h]
  exact addsOnly_one (d := .read r) rfl

theorem addsOnly_hostSetTimeout (τ : Ticks) (s : State) : AddsOnly .host s (hostSetTimeout τ s) := by
  obtain ⟨a, o, h⟩ := hostSetTimeout_cases τ s
  rw [h]
  exact addsOnly_one (d := .setTimeout τ a) rfl

/-- An instruction executed at `IDLE` makes no event of CORE's. -/
theorem addsOnly_of_executed {i : Instr} (h : Executed i s t) (hp : s.ph = .idle) : AddsOnly .host s t := by
  cases h with
  | answered _ h => exact addsOnly_none .host (by rw [h.frame])
  | send | magic => exact addsOnly_none .host rfl
  | transmitted l => exact addsOnly_hostTransmit l s
  | exchangeFailed l => exact addsOnly_hostTransmit l (forgetRead s)
  | exchanged l =>
    have sent : AddsOnly .host s (hostTransmit l (forgetRead s)) := addsOnly_hostTransmit l (forgetRead s)
    exact sent.trans (addsOnly_hostReceive _)
  | written h => simp [hp] at h
  | arrived l =>
    rw [peerSends_of_not_reading l (by simp [hp]) (by simp [hp])]
    exact addsOnly_none .host rfl

theorem addsOnly_of_idleStep (h : IdleStep s t) (hp : s.ph = .idle) : AddsOnly .host s t := by
  cases h with
  | executed h => exact addsOnly_of_executed h hp
  | refused => exact addsOnly_none .host rfl
  | transmitted l => exact addsOnly_hostTransmit l s
  | received => exact addsOnly_hostReceive s
  | timeoutSet τ => exact addsOnly_hostSetTimeout τ s
  | reacted h => rw [h]; exact addsOnly_none .host rfl
  | answersChanged o => exact addsOnly_none .host rfl

/-! ### Every step -/

/-- Who owns the stream (R77). -/
def streamOwner (s : State) : Owner := if s.ph = .idle then .host else .core

theorem addsOnly_of_step (h : step s = .next t) : AddsOnly (streamOwner s) s t := by
  rcases step_cases h with ⟨rest, rfl⟩ | ⟨hp, is, hs⟩ | ⟨hp, hs⟩
  · exact addsOnly_none _ rfl
  · rw [streamOwner, if_pos hp]
    exact addsOnly_of_idleStep (s := { s with inputs := is }) hs hp
  · rw [streamOwner, if_neg hp]
    obtain ⟨rest, o, rfl | rfl | ⟨n, rfl⟩⟩ := hs
    · exact addsOnly_none .core rfl
    · exact addsOnly_runPhase { s with inputs := rest, oracle := o }
    · exact addsOnly_waitPhase n { s with inputs := rest, oracle := o }

theorem streamOwner_eq_host_iff (s : State) : streamOwner s = .host ↔ s.ph = .idle := by
  by_cases h : s.ph = .idle <;> simp [streamOwner, h]

end

/-- Settles O54: the events a step adds are the stream owner's. -/
theorem streamHasOneOwner : Obligations.StreamHasOneOwner := by
  intro s t h
  obtain ⟨es, hh, hw⟩ := addsOnly_of_step h
  exact ⟨es, hh, fun e he => by rw [hw e he]; exact streamOwner_eq_host_iff s⟩

end Sys2Proof.Machine
end

section
/-! PROOF. The decoder reads back what the encoder gives (R92 to R109): the operand fields of a request, the bytes of a
frame, the bytes of a packet, and then every row. -/

namespace Sys2Proof

open Machine

/-! ### The operand fields of a request -/

/-- The bit a flag is carried in is the flag (R91, R95). -/
theorem flag_of_flagByte {r : Request} {f : Bool} (h : r.c = flagByte f) : r.flag = f := by
  cases f <;> simp [Request.flag, flagByte, h]

/-- Bit 0 of a flag's byte is the top bit of ORD's index (R93). -/
theorem flagByte_low_bit (i : BitVec 9) : (flagByte (i.getLsbD 8)).extractLsb' 0 1 = i.extractLsb' 8 1 := by
  ext k hk
  obtain rfl : k = 0 := by omega
  cases h : i.getLsbD 8 <;> simp_all [flagByte]

/-- The two fields of ORD's index make the index again (R93). -/
theorem index9_of_split {r : Request} {i : BitVec 9} (ha : r.a = i.extractLsb' 0 8)
    (hb : r.b = flagByte (i.getLsbD 8)) : r.index9 = i := by
  rw [Request.index9, ha, hb, flagByte_low_bit]
  exact (BitVec.extractLsb'_append_extractLsb'_eq_extractLsb' rfl).trans BitVec.extractLsb'_eq_self

/-- MAGIC's flag and wait field make the optional wait again (R36, R91). -/
theorem maxWait_of_split {r : Request} {mw : Option Ticks} (hc : r.c = flagByte mw.isSome) (ht : r.t1 = mw.getD 0) :
    r.maxWait = mw := by
  rw [Request.maxWait, flag_of_flagByte hc, ht]
  cases mw <;> rfl

/-! ### The bytes towards the peer -/

/-- More bytes than the fixed rows have are no fixed row. -/
theorem decodeOutbound_of_long {l : List Byte} (h : 5 < l.length) :
    (∀ i, readFrame l = some i → decodeOutbound l = .ok i) ∧
    (readFrame l = none → decodeOutbound l = readPacket l) := by
  have ne (m : List Byte) (hm : m.length ≤ 5) : l ≠ m := by
    rintro rfl
    omega
  unfold decodeOutbound
  rw [if_neg (ne _ (by simp)), if_neg (ne _ (by simp)), if_neg (ne _ (by simp)), if_neg (ne _ (by simp))]
  constructor
  · intro i hi
    rw [hi]
  · intro hn
    rw [hn]

/-- A frame's bytes, with the two bytes of the checksum left open (R96). -/
theorem encodeFrame_layout {idx rsv : Byte} {p : List Byte} {last : Bool} {f : Half × List Byte}
    (h : encodeFrame idx rsv p last = some f) :
    p.length = 64 ∧ ∃ hi lo, f.2 = idx :: ~~~idx :: rsv :: (p ++ [hi, lo, stopMarker last]) := by
  by_cases hp : p.length = 64
  · rw [encodeFrame_of_length hp] at h
    cases h
    exact ⟨hp, _, _, rfl⟩
  · simp [encodeFrame_of_ne hp] at h

/-- The stop marker tells whether the frame is the last (R98). -/
theorem stopMarker_beq_stopLast (last : Bool) : (stopMarker last == cfg.stopLast) = last := by
  cases last <;> rfl

/-- The reader of frames gives a frame's free fields back: the payload stands before the three bytes of checksum and
stop marker, and the marker is the last byte (R96). -/
theorem readFrame_of_encodeFrame {idx rsv : Byte} {p : List Byte} {last : Bool} {f : Half × List Byte}
    (h : encodeFrame idx rsv p last = some f) : readFrame f.2 = some (.frame idx rsv p !last) := by
  obtain ⟨hp, hi, lo, hf⟩ := encodeFrame_layout h
  have marker : (f.2.getLast? == some cfg.stopLast) = last := by
    rw [hf]
    simpa [List.getLast?_cons, List.getLast?_append] using stopMarker_beq_stopLast last
  rw [hf] at marker ⊢
  simp only [readFrame, marker, cfg_payloadLen, List.take_left' hp, h, Option.map_some, hf, if_true]

/-- A packet's bytes, with its last byte left open (R100). -/
theorem encodePacket_layout {addr ins : Byte} {q l : List Byte} (h : encodePacket addr ins q = some l) :
    ∃ n sum, l = 0xFF :: 0xFF :: addr :: n :: ins :: (q ++ [sum]) := by
  unfold encodePacket at h
  split at h <;> cases h
  exact ⟨_, _, rfl⟩

/-- No packet is a frame: its second byte is not the inverse of its first (R96, R100). -/
theorem readFrame_of_encodePacket {addr ins : Byte} {q l : List Byte} (h : encodePacket addr ins q = some l) :
    readFrame l = none := by
  obtain ⟨n, sum, rfl⟩ := encodePacket_layout h
  refine if_neg fun he => ?_
  obtain ⟨f, hf, he⟩ := Option.map_eq_some_iff.mp he
  obtain ⟨-, _, _, hl⟩ := encodeFrame_layout hf
  exact absurd ((List.cons.inj (List.cons.inj (he.symm.trans hl)).2).1) (by decide)

/-- The reader of packets gives a packet's row back. -/
theorem readPacket_of_encodePacket {addr ins : Byte} {q l : List Byte} (h : encodePacket addr ins q = some l) :
    readPacket l = .ok (packetRow addr ins q) := by
  obtain ⟨n, sum, rfl⟩ := encodePacket_layout h
  simp only [readPacket, List.dropLast_concat, h, if_true]

/-- A packet is decoded to its row. -/
theorem decode_of_encodePacket {addr ins : Byte} {q l : List Byte} (h : encodePacket addr ins q = some l) :
    decode (.outbound l) = .ok (packetRow addr ins q) := by
  have long : 5 < l.length := by
    rw [encodePacket_length h]
    omega
  exact ((decodeOutbound_of_long long).2 (readFrame_of_encodePacket h)).trans (readPacket_of_encodePacket h)

/-- A frame is decoded to its row. -/
theorem decode_of_encodeFrame {idx rsv : Byte} {p : List Byte} {last : Bool} {f : Half × List Byte}
    (h : encodeFrame idx rsv p last = some f) : decode (.outbound f.2) = .ok (.frame idx rsv p !last) := by
  have long : 5 < f.2.length := by
    have : f.2.length = 70 := encodeFrame_length h
    omega
  exact (decodeOutbound_of_long long).1 _ (readFrame_of_encodeFrame h)

/-- The row of a well-formed command packet is CMDPKT: ping and reboot packets are ill-formed as such (R103, R160). -/
theorem packetRow_of_wellFormed {addr ins : Byte} {q : List Byte} (h : (Instr.cmdpkt addr ins q).wellFormed = true) :
    packetRow addr ins q = .cmdpkt addr ins q := by
  simp only [Instr.wellFormed, Bool.and_eq_true, Bool.not_eq_true', Bool.and_eq_false_iff, Bool.or_eq_false_iff] at h
  obtain ⟨-, hq | ⟨hping, hreboot⟩⟩ := h
  · simp [packetRow, hq]
  · simp only [packetRow, hping, hreboot, Bool.and_false, Bool.false_eq_true, if_false]

/-! ### Every row -/

/-- The encoder answers for exactly the well-formed instructions. -/
theorem encode_isSome (i : Instr) : (encode i).isSome = i.wellFormed := by
  cases i with
  | frame idx rsv p more => exact Laws.EncodeDefined.frame idx rsv p more
  | cmdpkt addr ins q => exact Laws.EncodeDefined.cmdpkt addr ins q
  | pingpkt addr => exact Laws.EncodeDefined.pingpkt addr
  | rebootpkt addr => exact Laws.EncodeDefined.rebootpkt addr
  | _ => rfl

/-- Whatever the encoder gives, the decoder reads back. -/
theorem decode_of_encode {i : Instr} {w : PortWord} (h : encode i = some w) : decode w = .ok i := by
  have packet (addr ins : Byte) (q : List Byte) (hp : (encodePacket addr ins q).map .outbound = some w) :
      decode w = .ok (packetRow addr ins q) := by
    obtain ⟨l, hl, rfl⟩ := Option.map_eq_some_iff.mp hp
    exact decode_of_encodePacket hl
  cases i with
  | ord i =>
    cases h
    exact congrArg (Except.ok <| Instr.ord ·) (index9_of_split rfl rfl)
  | fenc idx rsv last =>
    cases h
    exact congrArg (Except.ok <| Instr.fenc idx rsv ·) (flag_of_flagByte rfl)
  | magic ivl mw =>
    cases h
    exact congrArg (Except.ok <| Instr.magic ivl ·) (maxWait_of_split rfl rfl)
  | frame idx rsv p more =>
    obtain ⟨f, hf, rfl⟩ := Option.map_eq_some_iff.mp h
    rw [decode_of_encodeFrame hf, Bool.not_not]
  | cmdpkt addr ins q =>
    simp only [encode] at h
    split at h
    · rw [packet addr ins q h, packetRow_of_wellFormed ‹_›]
    · cases h
  | pingpkt addr => exact packet addr cfg.insPing [] h
  | rebootpkt addr => exact packet addr cfg.insReboot [] h
  | _ =>
    cases h
    rfl

/-- Settles O46: a well-formed instruction has words, and they are read back. -/
theorem decodeOfEncodeIsIdentity : Obligations.DecodeOfEncodeIsIdentity := by
  intro i hi
  obtain ⟨w, hw⟩ := Option.isSome_iff_exists.mp ((encode_isSome i).trans hi)
  exact ⟨w, hw, decode_of_encode hw⟩

/-- A table word the encoder gives is decoded. -/
theorem decodeTableWord_of_encode {i : Instr} {nbits w : Nat} (h : encode i = some (portWordOf nbits w)) :
    decodeTableWord nbits w = some i := by
  rw [decodeTableWord, decode_of_encode h]
  rfl

/-- Settles O56: the words with unused bits set are decoded field by field, the others are what the encoder gives. -/
theorem knownWordsDecode : Obligations.KnownWordsDecode :=
  ⟨rfl, rfl, rfl,
    decodeTableWord_of_encode (i := .ping 0x01) rfl,
    decodeTableWord_of_encode (i := .reboot 0x01) rfl,
    decodeTableWord_of_encode (i := .pingpkt 0x01) rfl,
    decodeTableWord_of_encode (i := .rebootpkt 0x01) rfl,
    decode_of_encode (i := .cmdpkt 0x05 0x03 [0x1E, 0x00, 0x02]) rfl,
    decodeTableWord_of_encode (i := .magicseq) rfl,
    decode_of_encode (i := .ack) rfl, decode_of_encode (i := .nak) rfl,
    decode_of_encode (i := .stopLast) rfl, decode_of_encode (i := .stopMore) rfl,
    decode_of_encode (i := .initbyte) rfl⟩

end Sys2Proof
end

section
/-! PROOF. A word at a port and what it runs (R76, R90, R94), and the two requests of a pseudo-operation (R109). -/

namespace Sys2Proof.Machine

/-! ### A word taken at its port -/

/-- Settles O39: the port's own path runs what its word decodes to. -/
theorem stepRunsTheDecodedInstruction : Obligations.StepRunsTheDecodedInstruction := by
  intro s w i rest hd hin hidle
  cases w with
  | request r =>
    rw [step_of_host hin (hidle rfl)]
    simp only [runHost, runRequest, hd]
  | pair r1 r2 =>
    rw [step_of_host hin (hidle rfl)]
    simp only [runHost, runPair, hd]
  | outbound l =>
    rw [step_of_host hin (hidle rfl)]
    simp only [runHost, runTransmit, hd]
  | inbound l =>
    rw [step_of_peer hin]
    simp only [runArrival, hd]

/-- An `op` outside the twelve codes decodes to nothing (R94). -/
theorem decodeRequest_of_unassigned {r : Request}
    (h : r.op ∉ ([0x01, 0x02, 0x03, 0x10, 0x11, 0x12, 0x13, 0x14, 0x20, 0x30, 0x40, 0x50] : List Byte)) :
    decodeRequest r = .error (.unassignedOp r.op) := by
  simp only [List.mem_cons, List.not_mem_nil, or_false, not_or] at h
  unfold decodeRequest
  split
  case h_13 => rfl
  all_goals bv_omega

/-- Settles O40: such a request is refused, and at `IDLE` a refusal writes `STATUS` alone. -/
theorem unassignedOpIsRefused : Obligations.UnassignedOpIsRefused := by
  intro s r rest hp hin hop
  have refused : runRequest r { s with inputs := rest } = .next (refuse { s with inputs := rest }) := by
    simp only [runRequest, decode, decodeRequest_of_unassigned hop]
  rw [step_of_host hin hp]
  exact refused.trans (congrArg Host.Outcome.next (respond_of_idle _ _ _ hp))

/-! ### The pseudo-operations -/

/-- At `IDLE` a success is the response and no more (R266). -/
theorem completeOk_of_idle {s : State} (v : Half) (h : s.ph = .idle) : completeOk v s = answered .ok v s :=
  respond_of_idle .ok v s h

/-- The packet without parameters (R160). -/
def bareCommand (addr ins : Byte) : List Byte := [0xFF, 0xFF, addr, 0x02, ins, ~~~(addr + (ins + 2))]

/-- It is what the encoder gives. -/
theorem encodePacket_nil (addr ins : Byte) : encodePacket addr ins [] = some (bareCommand addr ins) := by
  have sum : byteSum (packetBody addr ins []) = addr + (ins + 2) := by
    simp [byteSum, packetBody, BitVec.add_comm]
  rw [encodePacket_of_le (by simp), sum]
  rfl

/-- DCLR at `IDLE` (R221). -/
theorem execDclr_of_idle {s : State} (hp : s.ph = .idle) : execDclr s = .next (completeOk 0 (clearDin s)) :=
  whenIdle_of_idle (f := fun s => .next (completeOk 0 (clearDin s))) hp

/-- PENC on an empty `DIN` (R156). -/
theorem execPenc_of_empty {s : State} (addr ins : Byte) (hp : s.ph = .idle) (hd : s.din = []) :
    execPenc addr ins s = .next (completeOk 0 (writeOut (bareCommand addr ins) s)) := by
  rw [execPenc, whenIdle_of_idle hp, hd, encodePacket_nil]

/-- DCLR and then PENC at `IDLE` (R109). -/
theorem dclrThenPenc_of_idle {s : State} (addr ins : Byte) (hp : s.ph = .idle) :
    dclrThenPenc addr ins s =
      .next (completeOk 0 (writeOut (bareCommand addr ins) (completeOk 0 (clearDin s)))) := by
  rw [dclrThenPenc, whenIdle_of_idle hp]
  exact execPenc_of_empty addr ins rfl rfl

/-- What they leave: `DIN` empty, the packet in `OUT`, and two responses (R109, R161). -/
theorem dclrThenPenc_answered {s : State} (addr ins : Byte) (hp : s.ph = .idle) :
    dclrThenPenc addr ins s =
      .next (answered .ok 0 (answered .ok 0 { s with din := [], out := bareCommand addr ins })) := by
  rw [dclrThenPenc_of_idle addr ins hp, completeOk_of_idle (s := clearDin s) 0 hp]
  exact congrArg Host.Outcome.next (completeOk_of_idle 0 hp)

/-- Settles O17: PING and REBOOT are DCLR and PENC, with instruction 0x01 and 0x08. -/
theorem pingAndRebootLeavePackets : Obligations.PingAndRebootLeavePackets := by
  intro s addr hp
  exact ⟨dclrThenPenc_answered addr cfg.insPing hp, dclrThenPenc_answered addr cfg.insReboot hp⟩

/-- DCLR's code selects DCLR (R92). -/
theorem decode_dclr {r : Request} (h : r.op = 0x10) : decode (.request r) = .ok .dclr := by
  simp [decode, decodeRequest, h]

/-- PENC's code selects PENC (R92). -/
theorem decode_penc {r : Request} (h : r.op = 0x30) : decode (.request r) = .ok (.penc r.a r.b) := by
  simp [decode, decodeRequest, h]

/-- One of them issued as a pair is DCLR and then PENC (R109). -/
theorem runPair_of_pseudo {r1 r2 : Request} (s : State) (h1 : r1.op = 0x10) (h2 : r2.op = 0x30)
    (hi : r2.b = 0x01 ∨ r2.b = 0x08) : runPair r1 r2 s = dclrThenPenc r2.a r2.b s := by
  have d1 : decodeRequest r1 = .ok .dclr := decode_dclr h1
  have d2 : decodeRequest r2 = .ok (.penc r2.a r2.b) := decode_penc h2
  rcases hi with hi | hi <;> simp [runPair, decode, decodePair, d1, d2, hi, exec, execPing, execReboot]

/-- A request put next at `IDLE` is executed as what it decodes to. -/
theorem step_of_decoded_request {s : State} {r : Request} {i : Instr} (rest : List Input) (hp : s.ph = .idle)
    (hd : decode (.request r) = .ok i) :
    step { s with inputs := .host (.request r) :: rest } = exec i { s with inputs := rest } :=
  stepRunsTheDecodedInstruction { s with inputs := _ } (.request r) i rest hd rfl fun _ => hp

/-- Settles O18: the pair ends where PENC ends after DCLR, and so do the two requests. -/
theorem pseudoOperationEqualsItsTwoRequests : Obligations.PseudoOperationEqualsItsTwoRequests := by
  rintro s _ _ r1 r2 hp hi h1 h2 rfl rfl
  refine ⟨completeOk 0 (writeOut (bareCommand r2.a r2.b) (completeOk 0 (clearDin s))), ?_, ?_⟩
  · rw [step_of_host rfl (by exact hp)]
    exact (runPair_of_pseudo s h1 h2 hi).trans (dclrThenPenc_of_idle r2.a r2.b hp)
  · have first := (step_of_decoded_request (.host (.request r2) :: s.inputs) hp (decode_dclr h1)).trans
      (execDclr_of_idle (by exact hp))
    have second := (step_of_decoded_request (s := completeOk 0 (clearDin s)) s.inputs rfl (decode_penc h2)).trans
      (execPenc_of_empty r2.a r2.b rfl rfl)
    exact (run_succ 1 first).trans (run_succ 0 second)

end Sys2Proof.Machine
end

section
/-! PROOF. The CRC unit (`40_crc.md`): the update as eight rounds, the window, the three operations at `IDLE`, and the
pushes of a stream of bytes one after another. -/

namespace Sys2Proof.Machine

/-! ### The update -/

/-- A round, with the top bit tested as such (R121). -/
theorem crcRound_eq (x : Half) : crcRound x = if x.msb then (x <<< 1) ^^^ 0x1021 else x <<< 1 := by
  rw [BitVec.msb_eq_getLsbD_last]
  rfl

/-- `n` rounds are the round iterated. -/
theorem crcRounds_eq_iterate (n : Nat) (x : Half) : crcRounds n x = crcRound^[n] x := by
  induction n generalizing x with
  | zero => rfl
  | succ n ih => exact ih (crcRound x)

/-- A byte before eight 0 bits is the byte shifted left by eight. -/
theorem byte_append_zero (b : Byte) : b ++ (0 : BitVec 8) = b.setWidth 16 <<< 8 := by
  rw [BitVec.append_def, BitVec.shiftLeftZeroExtend_eq]
  exact BitVec.or_zero

/-- Settles O1: the model's round is the statement's, and its recursion on the count is the iteration. -/
theorem crcStepIsEightShiftRounds : Obligations.CrcStepIsEightShiftRounds := by
  intro acc b
  rw [crcStep, crcRounds_eq_iterate, byte_append_zero, funext crcRound_eq]

/-! ### The window -/

/-- While the window is not full a byte is absorbed and counted (R122). -/
theorem crcAbsorb_of_lt {n : BitVec 7} (h : n.toNat < 64) (k : Half) (b : Byte) :
    crcAbsorb k n b = (crcStep k b, n + 1) := if_pos h

/-- When it is full a byte changes nothing (R122). -/
theorem crcAbsorb_of_full {n : BitVec 7} (h : 64 ≤ n.toNat) (k : Half) (b : Byte) : crcAbsorb k n b = (k, n) :=
  if_neg (Nat.not_lt.mpr h)

/-- `ACC` and `CNT` after the bytes of a list are absorbed one after another. -/
def crcAbsorbAll : List Byte → Half × BitVec 7 → Half × BitVec 7
  | [], r => r
  | b :: l, r => crcAbsorbAll l (crcAbsorb r.1 r.2 b)

/-- Bytes enough to fill the window leave it full, and those that found room are the ones absorbed. -/
theorem crcAbsorbAll_of_fills {l : List Byte} {k : Half} {n : BitVec 7} (hn : n.toNat ≤ 64)
    (hl : 64 ≤ n.toNat + l.length) :
    crcAbsorbAll l (k, n) = ((l.take (64 - n.toNat)).foldl crcStep k, 64) := by
  induction l generalizing k n with
  | nil =>
    obtain rfl : n = 64 := BitVec.eq_of_toNat_eq (Nat.le_antisymm hn hl)
    rfl
  | cons b l ih =>
    rw [List.length_cons] at hl
    rw [crcAbsorbAll]
    by_cases h : n.toNat < 64
    · have next : (n + 1).toNat = n.toNat + 1 := by bv_omega
      have room : 64 - n.toNat = (64 - (n + 1).toNat) + 1 := by omega
      rw [crcAbsorb_of_lt h, ih (by omega) (by omega), room, List.take_succ_cons, List.foldl_cons]
    · obtain rfl : n = 64 := BitVec.eq_of_toNat_eq (Nat.le_antisymm hn (Nat.not_lt.mp h))
      rw [crcAbsorb_of_full (n := 64) (Nat.le_refl 64)]
      exact ih (Nat.le_refl 64) (Nat.le_add_right 64 l.length)

/-- Into an empty window go the first 64 bytes. -/
theorem crcAbsorbAll_of_empty {l : List Byte} (hl : 64 ≤ l.length) :
    crcAbsorbAll l (0, 0) = ((l.take 64).foldl crcStep 0, 64) :=
  crcAbsorbAll_of_fills (n := 0) (Nat.zero_le 64) (by simpa using hl)

/-- Settles O5: the checksum is over the first 64 bytes, and what is cut below 64 is too short for one. -/
theorem checksumIgnoresBytesPastWindow : Obligations.ChecksumIgnoresBytesPastWindow := by
  intro l m hl
  refine ⟨⟨_, crc16_64_of_le hl⟩, ?_, fun n hn => crc16_64_of_lt ?_⟩
  · have window : 64 ≤ (l.take 64).length := (List.length_take_of_le hl).ge
    calc crc16_64 (l ++ m) = crc16_64 (l.take 64 ++ (l.drop 64 ++ m)) := by
          rw [← List.append_assoc, List.take_append_drop]
      _ = crc16_64 (l.take 64) := crc16_64_append window
  · exact Nat.lt_of_le_of_lt (List.length_take_le n l) hn

/-! ### The operations at `IDLE` -/

/-- CRCCLR's code selects CRCCLR (R92). -/
theorem decode_crcclr {r : Request} (h : r.op = 0x01) : decode (.request r) = .ok .crcclr := by
  simp [decode, decodeRequest, h]

/-- CRCPUSH's code selects CRCPUSH of the field `a` (R92). -/
theorem decode_crcpush {r : Request} (h : r.op = 0x02) : decode (.request r) = .ok (.crcpush r.a) := by
  simp [decode, decodeRequest, h]

/-- CRC16's code selects CRC16 (R92). -/
theorem decode_crc16 {r : Request} (h : r.op = 0x03) : decode (.request r) = .ok .crc16 := by
  simp [decode, decodeRequest, h]

/-- CRCCLR at `IDLE` (R123). -/
theorem exec_crcclr_of_idle {s : State} (hp : s.ph = .idle) :
    exec .crcclr s = .next (answered .ok 0 { s with acc := 0, cnt := 0 }) := by
  rw [exec, execCrcclr, whenIdle_of_idle hp]
  exact congrArg Host.Outcome.next (completeOk_of_idle (s := setCrc _ _ s) 0 hp)

/-- CRCPUSH at `IDLE`: what R122's absorption gives, stored (R124). -/
theorem exec_crcpush_of_idle {s : State} (hp : s.ph = .idle) (b : Byte) :
    exec (.crcpush b) s =
      .next (answered .ok 0 { s with acc := (crcAbsorb s.acc s.cnt b).1, cnt := (crcAbsorb s.acc s.cnt b).2 }) := by
  rw [exec, execCrcpush, whenIdle_of_idle hp]
  exact congrArg Host.Outcome.next (completeOk_of_idle (s := setCrc _ _ s) 0 hp)

/-- CRC16 at `IDLE` with enough data: the checksum is stored and answered, and the window is full (R125). -/
theorem exec_crc16_of_le {s : State} (hp : s.ph = .idle) (hl : 64 ≤ s.din.length) :
    exec .crc16 s =
      .next (answered .ok ((s.din.take 64).foldl crcStep 0)
        { s with acc := (s.din.take 64).foldl crcStep 0, cnt := 64 }) := by
  rw [exec, execCrc16, whenIdle_of_idle hp, crc16_64_of_le hl]
  exact congrArg Host.Outcome.next (completeOk_of_idle (s := setCrc _ _ s) _ hp)

/-- CRC16 at `IDLE` with less (R128). -/
theorem exec_crc16_of_lt {s : State} (hp : s.ph = .idle) (hl : s.din.length < 64) :
    exec .crc16 s = .next (answered .operandError 0 s) := by
  rw [exec, execCrc16, whenIdle_of_idle hp, crc16_64_of_lt hl]
  exact congrArg Host.Outcome.next (respond_of_idle _ _ s hp)

/-- Settles O2: at `IDLE` CRCCLR completes with 0 after clearing the CRC registers. -/
theorem crcclrClearsAccumulator : Obligations.CrcclrClearsAccumulator :=
  ⟨fun _ => decode_crcclr, fun _ => exec_crcclr_of_idle⟩

/-- Settles O3: the two cases are those of the absorption. -/
theorem crcpushAbsorbsUntilWindowFull : Obligations.CrcpushAbsorbsUntilWindowFull := by
  refine ⟨fun _ => decode_crcpush, fun s b hp => ⟨fun h => ?_, fun h => ?_⟩⟩
  · rw [exec_crcpush_of_idle hp, crcAbsorb_of_lt h]
  · rw [exec_crcpush_of_idle hp, crcAbsorb_of_full h]

/-- Settles O4: `DIN` has a checksum or is too short for one. -/
theorem crc16ChecksumsDinOrRefuses : Obligations.Crc16ChecksumsDinOrRefuses :=
  ⟨fun _ => decode_crc16, fun _ hp => ⟨exec_crc16_of_le hp, exec_crc16_of_lt hp⟩⟩

/-! ### A stream of pushes -/

/-- An instruction issued next at `IDLE` is executed. -/
theorem step_of_issued {s : State} {i : Instr} {w : PortWord} {rest : List Input} (hw : encode i = some w)
    (hp : s.ph = .idle) (hin : s.inputs = issue i ++ rest) : step s = exec i { s with inputs := rest } :=
  stepRunsTheDecodedInstruction s w i rest (decode_of_encode hw) (by rw [hin, issue, hw]; rfl) fun _ => hp

/-- CRCCLR issued next at `IDLE`: an empty window, and the inputs after it. -/
theorem step_of_crcclr {s : State} {rest : List Input} (hp : s.ph = .idle)
    (hin : s.inputs = issue .crcclr ++ rest) :
    ∃ t, step s = .next t ∧ t.ph = .idle ∧ (t.acc, t.cnt) = (0, 0) ∧ t.din = s.din ∧ t.inputs = rest :=
  ⟨_, (step_of_issued rfl hp hin).trans (exec_crcclr_of_idle (by exact hp)), hp, rfl, rfl, rfl⟩

/-- CRCPUSH issued next at `IDLE`: its byte absorbed, and the inputs after it. -/
theorem step_of_crcpush {s : State} {b : Byte} {rest : List Input} (hp : s.ph = .idle)
    (hin : s.inputs = issue (.crcpush b) ++ rest) :
    ∃ t, step s = .next t ∧ t.ph = .idle ∧ (t.acc, t.cnt) = crcAbsorb s.acc s.cnt b ∧ t.din = s.din ∧
      t.inputs = rest :=
  ⟨_, (step_of_issued rfl hp hin).trans (exec_crcpush_of_idle (by exact hp) b), hp, rfl, rfl, rfl⟩

/-- One CRCPUSH a byte, one request a step: the bytes are absorbed in order, and `DIN` is left alone. -/
theorem run_crcpushes {l : List Byte} {s : State} (hp : s.ph = .idle)
    (hin : s.inputs = l.flatMap fun b => issue (.crcpush b)) :
    ∃ t, Sys2Proof.core.run l.length s = .next t ∧ (t.acc, t.cnt) = crcAbsorbAll l (s.acc, s.cnt) ∧
      t.din = s.din ∧ t.inputs = [] := by
  induction l generalizing s with
  | nil => exact ⟨s, run_zero s, rfl, rfl, hin⟩
  | cons b l ih =>
    obtain ⟨u, push, hu, absorbed, hdin, hrest⟩ := step_of_crcpush hp hin
    obtain ⟨t, pushes, crc, din, inputs⟩ := ih hu hrest
    exact ⟨t, (run_succ l.length push).trans pushes, by rw [crc, absorbed, crcAbsorbAll], din.trans hdin, inputs⟩

/-- Settles O6: after CRCCLR the pushes absorb `DIN` into an empty window, which keeps its first 64 bytes. -/
theorem streamedPushesEqualCrc16 : Obligations.StreamedPushesEqualCrc16 := by
  intro s hp hl
  obtain ⟨u, clear, hu, cleared, hdin, hrest⟩ := step_of_crcclr
    (s := { s with inputs := issue .crcclr ++ s.din.flatMap fun b => issue (.crcpush b) }) hp rfl
  obtain ⟨t, pushes, crc, din, inputs⟩ := run_crcpushes hu hrest
  rw [cleared, crcAbsorbAll_of_empty hl] at crc
  obtain ⟨acc, cnt⟩ := Prod.mk.inj crc
  exact ⟨t, _, (run_succ s.din.length clear).trans pushes, exec_crc16_of_le hp hl, acc, cnt, din.trans hdin, inputs⟩

end Sys2Proof.Machine
end

section
/-! PROOF. FENC (`41_frame.md`): the bytes of a frame and where each stands, what its checksum covers, and the
operation at `IDLE`. -/

namespace Sys2Proof.Machine

/-! ### The bytes of a frame -/

/-- A frame: index, complement, reserved byte, payload, checksum high byte first, stop marker (R96, R141). -/
def frameBytes (idx rsv : Byte) (p : List Byte) (last : Bool) : List Byte :=
  frameHead idx rsv p ++ [hiByte (frameCrc idx rsv p), loByte (frameCrc idx rsv p), stopMarker last]

/-- It is what the encoder gives, with its checksum. -/
theorem encodeFrame_eq_frameBytes {p : List Byte} (h : p.length = 64) (idx rsv : Byte) (last : Bool) :
    encodeFrame idx rsv p last = some (frameCrc idx rsv p, frameBytes idx rsv p last) :=
  encodeFrame_of_length h idx rsv last

/-- Always 70 bytes (R143). -/
theorem frameBytes_length {p : List Byte} (h : p.length = 64) (idx rsv : Byte) (last : Bool) :
    (frameBytes idx rsv p last).length = 70 :=
  encodeFrame_length (encodeFrame_eq_frameBytes h idx rsv last)

/-- After the payload, from offset 67 on, come the checksum and the stop marker (R96). -/
theorem frameBytes_getElem?_trailer {p : List Byte} (h : p.length = 64) (idx rsv : Byte) (last : Bool) (j : Nat) :
    (frameBytes idx rsv p last)[67 + j]? =
      [hiByte (frameCrc idx rsv p), loByte (frameCrc idx rsv p), stopMarker last][j]? := by
  have head : (frameHead idx rsv p).length = 67 := by rw [frameHead_length, h]
  rw [frameBytes, List.getElem?_append_right (by omega), head, Nat.add_sub_cancel_left]

/-- The checksum covers the three bytes of the header and the first 61 of the payload (R97). -/
theorem frameCrc_eq_of_take_eq {p q : List Byte} (h : p.take 61 = q.take 61) (idx rsv : Byte) :
    frameCrc idx rsv p = frameCrc idx rsv q := by
  have covered (l : List Byte) : (frameHead idx rsv l).take 64 = frameHead idx rsv (l.take 61) := rfl
  rw [frameCrc, frameCrc, covered, covered, h]

/-- They are the first 64 bytes of the frame itself (R97, R141). -/
theorem frameCrc_eq_foldl_frameBytes {p : List Byte} (h : p.length = 64) (idx rsv : Byte) (last : Bool) :
    frameCrc idx rsv p = ((frameBytes idx rsv p last).take 64).foldl crcStep 0 := by
  have head : 64 ≤ (frameHead idx rsv p).length := by rw [frameHead_length, h]; decide
  rw [frameBytes, List.take_append_of_le_length head, frameCrc]

/-! ### The operation at `IDLE` -/

/-- FENC's code selects FENC of the fields `a` and `b` and the flag `c[0]` (R92). -/
theorem decode_fenc {r : Request} (h : r.op = 0x20) : decode (.request r) = .ok (.fenc r.a r.b r.flag) := by
  simp [decode, decodeRequest, h]

/-- FENC at `IDLE` with a payload of 64 bytes: the frame is stored, and its checksum stored and answered (R141). -/
theorem exec_fenc_of_length {s : State} (hp : s.ph = .idle) (hl : s.din.length = 64) (idx rsv : Byte) (last : Bool) :
    exec (.fenc idx rsv last) s =
      .next (answered .ok (frameCrc idx rsv s.din)
        { s with out := frameBytes idx rsv s.din last, acc := frameCrc idx rsv s.din, cnt := 64 }) := by
  rw [exec, execFenc, whenIdle_of_idle hp, encodeFrame_eq_frameBytes hl]
  exact congrArg Host.Outcome.next (completeOk_of_idle (s := setCrc _ _ (writeOut _ s)) _ hp)

/-- FENC at `IDLE` with any other `DIN` (R142). -/
theorem exec_fenc_of_ne {s : State} (hp : s.ph = .idle) (hl : s.din.length ≠ 64) (idx rsv : Byte) (last : Bool) :
    exec (.fenc idx rsv last) s = .next (answered .operandError 0 s) := by
  rw [exec, execFenc, whenIdle_of_idle hp, encodeFrame_of_ne hl]
  exact congrArg Host.Outcome.next (respond_of_idle _ _ s hp)

/-- Settles O12: the payload has 64 bytes, and the frame with its checksum is stored, or it has not. -/
theorem fencEncodesFrameOrRefuses : Obligations.FencEncodesFrameOrRefuses := by
  refine ⟨fun _ => decode_fenc, fun s idx rsv last hp => ⟨fun hl => ?_, fun hl => ?_⟩⟩
  · exact ⟨frameCrc idx rsv s.din, frameBytes idx rsv s.din last, rfl,
      frameCrc_eq_foldl_frameBytes hl idx rsv last, exec_fenc_of_length hp hl idx rsv last⟩
  · exact exec_fenc_of_ne hp hl idx rsv last

/-- A byte and its complement differ in every bit (R143). -/
theorem xor_complement (b : Byte) : b ^^^ ~~~b = 0xFF := by
  calc b ^^^ ~~~b = ~~~(b ^^^ b) := BitVec.not_xor_right.symm
    _ = 0xFF := by rw [BitVec.xor_self]; rfl

/-- Settles O13: bytes 0 and 1 are the index and its complement, and byte 69 is the stop marker. -/
theorem encodedFrameInvariants : Obligations.EncodedFrameInvariants := by
  intro s idx rsv last hp hl
  have marker : (frameBytes idx rsv s.din last)[69]? = some (stopMarker last) :=
    frameBytes_getElem?_trailer hl idx rsv last 2
  refine ⟨_, exec_fenc_of_length hp hl idx rsv last, frameBytes_length hl idx rsv last,
    ⟨idx, ~~~idx, rfl, rfl, rfl, xor_complement idx⟩, ?_⟩
  simp only [answered, marker]
  cases last <;> decide

/-- Settles O14: the checksums are equal, and offsets 67 and 68 hold their bytes. -/
theorem checksumIgnoresLastThreePayloadBytes : Obligations.ChecksumIgnoresLastThreePayloadBytes := by
  intro s s' idx rsv last last' hp hp' hl hl' hd
  have crc : frameCrc idx rsv s.din = frameCrc idx rsv s'.din := frameCrc_eq_of_take_eq hd idx rsv
  have trailer (j : Nat) (hj : j < 2) :
      (frameBytes idx rsv s.din last)[67 + j]? = (frameBytes idx rsv s'.din last')[67 + j]? := by
    rw [frameBytes_getElem?_trailer hl, frameBytes_getElem?_trailer hl', crc]
    interval_cases j <;> rfl
  exact ⟨_, _, exec_fenc_of_length hp hl idx rsv last, exec_fenc_of_length hp' hl' idx rsv last', crc,
    trailer 0 (by decide), trailer 1 (by decide)⟩

end Sys2Proof.Machine
end

section
/-! PROOF. PENC (`42_command.md`): the bytes of a packet, what they sum to, and the operation at `IDLE`. -/

namespace Sys2Proof.Machine

/-! ### The bytes of a packet -/

/-- A packet: the two lead bytes, address, length, instruction, parameters, checksum (R100, R156). -/
def packetBytes (addr ins : Byte) (params : List Byte) : List Byte :=
  [0xFF, 0xFF] ++ packetBody addr ins params ++ [~~~byteSum (packetBody addr ins params)]

/-- It is what the encoder gives. -/
theorem encodePacket_eq_packetBytes {q : List Byte} (h : q.length ≤ 253) (addr ins : Byte) :
    encodePacket addr ins q = some (packetBytes addr ins q) :=
  encodePacket_of_le h addr ins

/-- Always N + 6 bytes (R156). -/
theorem packetBytes_length {q : List Byte} (h : q.length ≤ 253) (addr ins : Byte) :
    (packetBytes addr ins q).length = q.length + 6 :=
  encodePacket_length (encodePacket_eq_packetBytes h addr ins)

/-- From the address on: the body and the complement of its sum. -/
theorem packetBytes_drop_lead (addr ins : Byte) (q : List Byte) :
    (packetBytes addr ins q).drop 2 = packetBody addr ins q ++ [~~~byteSum (packetBody addr ins q)] := rfl

/-! ### The sum -/

theorem byteSum_append (l m : List Byte) : byteSum (l ++ m) = byteSum l + byteSum m := List.sum_append

@[simp] theorem byteSum_singleton (b : Byte) : byteSum [b] = b := List.sum_singleton

/-- A body followed by its checksum, the complement of its byte sum, sums to 0xFF (R158). -/
theorem byteSum_append_checksum (l : List Byte) : byteSum (l ++ [~~~byteSum l]) = 0xFF := by
  calc byteSum (l ++ [~~~byteSum l]) = byteSum l + ~~~byteSum l := by
        rw [byteSum_append, byteSum_singleton]
    _ = 0xFF := BitVec.add_not_self (byteSum l)

/-- The byte sum read as a number. -/
theorem toNat_byteSum (l : List Byte) : (byteSum l).toNat = (l.map BitVec.toNat).sum % 256 := by
  rw [byteSum_eq, BitVec.toNat_ofNat]

/-! ### The operation at `IDLE` -/

/-- PENC at `IDLE` with at most 253 parameters: the packet is stored (R156). -/
theorem exec_penc_of_le {s : State} (hp : s.ph = .idle) (hl : s.din.length ≤ 253) (addr ins : Byte) :
    exec (.penc addr ins) s = .next (answered .ok 0 { s with out := packetBytes addr ins s.din }) := by
  rw [exec, execPenc, whenIdle_of_idle hp, encodePacket_eq_packetBytes hl]
  exact congrArg Host.Outcome.next (completeOk_of_idle (s := writeOut _ s) 0 hp)

/-- PENC at `IDLE` with more (R157). -/
theorem exec_penc_of_gt {s : State} (hp : s.ph = .idle) (hl : 253 < s.din.length) (addr ins : Byte) :
    exec (.penc addr ins) s = .next (answered .operandError 0 s) := by
  rw [exec, execPenc, whenIdle_of_idle hp, encodePacket_of_gt hl]
  exact congrArg Host.Outcome.next (respond_of_idle _ _ s hp)

/-- Settles O15: the parameters fit and their packet is stored, or they do not. -/
theorem pencEncodesPacketOrRefuses : Obligations.PencEncodesPacketOrRefuses := by
  refine ⟨fun _ => decode_penc, fun s addr ins hp => ⟨fun hl => ?_, fun hl => exec_penc_of_gt hp hl addr ins⟩⟩
  refine ⟨packetBody addr ins s.din, rfl, ?_⟩
  rw [exec_penc_of_le hp hl, packetBytes, byteSum_eq]

/-- Settles O16: past the lead stand the body and its checksum, which sum to 0xFF. -/
theorem packetBytesSumToFF : Obligations.PacketBytesSumToFF := by
  intro s addr ins hp hl
  refine ⟨_, exec_penc_of_le hp hl addr ins, ?_, packetBytes_length hl addr ins⟩
  calc (((packetBytes addr ins s.din).drop 2).map BitVec.toNat).sum % 256
      = (byteSum ((packetBytes addr ins s.din).drop 2)).toNat := (toNat_byteSum _).symm
    _ = 0xFF := by rw [packetBytes_drop_lead, byteSum_append_checksum]; rfl

end Sys2Proof.Machine
end

section
/-! PROOF. SEND (`43_transport.md`): its acceptance, and each of its three phases with a scripted answer. -/

namespace Sys2Proof.Machine

/-! ### The start -/

/-- SEND's code selects SEND of the field `a` (R92). -/
theorem decode_send {r : Request} (h : r.op = 0x40) : decode (.request r) = .ok (.send r.a) := by
  simp [decode, decodeRequest, h]

/-- With 70 bytes in `OUT`, SEND is accepted at `IDLE` (R172). -/
theorem exec_send_of_length {s : State} {b : Byte} (hp : s.ph = .idle) (hl : s.out.length = cfg.frameLen)
    (hb : s.out.head? = some b) (maxr : Byte) : exec (.send maxr) s = .next (sendAccepted maxr b s) := by
  have hb : readByte .out 0 s = some b := by rw [← hb, List.head?_eq_getElem?]; rfl
  rw [exec, execSend, whenIdle_of_idle hp, checked, if_pos (decide_eq_true hl), hb]
  rfl

/-- With any other length it is refused (R172). -/
theorem exec_send_of_ne {s : State} (hp : s.ph = .idle) (hl : s.out.length ≠ cfg.frameLen) (maxr : Byte) :
    exec (.send maxr) s = .next (answered .operandError 0 s) := by
  rw [exec, execSend, whenIdle_of_idle hp, checked, if_neg (ne_true_of_eq_false (decide_eq_false hl))]
  exact congrArg Host.Outcome.next (respond_of_idle _ _ s hp)

/-- Settles O19: `OUT` holds 70 bytes, of which the first is latched, or it does not. -/
theorem sendLatchesOrRefuses : Obligations.SendLatchesOrRefuses :=
  ⟨fun _ => decode_send, fun _ maxr hp =>
    ⟨fun _ _ ho hl => exec_send_of_length hp hl (by rw [ho]; rfl) maxr, fun hl => exec_send_of_ne hp hl maxr⟩⟩

/-! ### `S_WRITE` -/

/-- `S_WRITE` with `Done` scripted. -/
theorem sWrite_of_done {s : State} {rest : List Answer} (hl : s.out.length = 70)
    (h : s.oracle.writes = .done :: rest) :
    sWrite s = { s with
      att := countAttempt s, ph := .sFlush, writing := none, tx := s.tx ++ s.out.drop (s.writing.getD 0),
      history := s.history ++ [{ who := .core, deed := .write s.out .done }],
      oracle := { s.oracle with writes := rest } } := by
  rw [sWrite, memRead_out_all s hl.le, streamWrite_of_done (by exact h)]
  rfl

/-- `S_WRITE` with `IoError` scripted. -/
theorem sWrite_of_ioError {s : State} {rest : List Answer} (hl : s.out.length = 70)
    (h : s.oracle.writes = .ioError :: rest) :
    sWrite s = answered .streamError ((countAttempt s).setWidth 16) { s with
      att := countAttempt s, ph := .idle, writing := none,
      tx := s.tx ++ (s.out.drop (s.writing.getD 0)).take (Config.freeCount s.oracle.draws),
      history := s.history ++ [{ who := .core, deed := .write s.out .ioError }],
      oracle := { s.oracle with writes := rest, draws := s.oracle.draws + 1 } } := by
  rw [sWrite, memRead_out_all s hl.le, streamWrite_of_ioError (by exact h)]
  rfl

/-- `S_WRITE` while the stream does not answer. -/
theorem waitPhase_sWrite {s : State} (n : Nat) (hp : s.ph = .sWrite) (hl : s.out.length = 70) :
    waitPhase n s = { s with
      att := countAttempt s, writing := some (min (s.writing.getD 0 + n) 70),
      tx := s.tx ++ (s.out.drop (s.writing.getD 0)).take n } := by
  rw [← hl]
  simp only [waitPhase, hp, sWriteWaits, memRead_out_all s hl.le, writeUnderWay]

/-- Settles O20: the write is answered `Done` or `IoError`, or goes on. -/
theorem sendWritePhase : Obligations.SendWritePhase := by
  rintro s _ _ hp hl rfl rfl
  refine ⟨fun rest hin h => ?_, fun rest hin h => ?_, fun n rest hin => ?_⟩
  · rw [step_of_no_input hin, runPhase_sWrite hp, sWrite_of_done hl h]
    rfl
  · rw [step_of_no_input hin, runPhase_sWrite hp, sWrite_of_ioError hl h]
    exact ⟨_, _, rfl⟩
  · rw [step_of_wait hin, waitPhase_sWrite (s := { s with inputs := rest }) n hp hl]
    rfl

/-! ### `S_FLUSH` -/

/-- `S_FLUSH` with `Done` scripted. -/
theorem sFlush_of_done {s : State} {rest : List Answer} (h : s.oracle.flushes = .done :: rest) :
    sFlush s = { s with
      ph := .sRead, handed := s.tx.length,
      history := s.history ++ [{ who := .core, deed := .flush .done }],
      oracle := { s.oracle with flushes := rest } } := by
  rw [sFlush, streamFlush_of_done h]
  rfl

/-- `S_FLUSH` with `IoError` scripted. -/
theorem sFlush_of_ioError {s : State} {rest : List Answer} (h : s.oracle.flushes = .ioError :: rest) :
    sFlush s = answered .streamError (s.att.setWidth 16) { s with
      ph := .idle, handed := s.handed + min (Config.freeCount s.oracle.draws) (s.tx.length - s.handed),
      history := s.history ++ [{ who := .core, deed := .flush .ioError }],
      oracle := { s.oracle with flushes := rest, draws := s.oracle.draws + 1 } } := by
  rw [sFlush, streamFlush_of_ioError h]
  rfl

/-- Settles O21: the flush is answered `Done` or `IoError`. -/
theorem sendFlushPhase : Obligations.SendFlushPhase := by
  intro s rest hp hin
  rw [step_of_no_input hin, runPhase_sFlush hp]
  exact ⟨fun h => by rw [sFlush_of_done h],
    fun h => ⟨_, _, by omega, by omega, congrArg Host.Outcome.next (sFlush_of_ioError h)⟩⟩

/-! ### `S_READ` -/

/-- Any other single byte (R179). -/
theorem sClassify_unexpected {x : Byte} (ha : x ≠ 0x06) (hn : x ≠ 0x15) (s : State) :
    sClassify (.bytes [x]) s = respond .unexpectedResponse (attVal s) { s with rxn := 1, rxb := x } := by
  simp only [sClassify, cfg_ack, cfg_nak, if_neg ha, if_neg hn]
  rfl

/-- Settles O22: the answer is read, and then classified. -/
theorem sendReadPhase : Obligations.SendReadPhase := by
  intro s r rest hp hin hr ha
  have read {t : State} (h : sClassify r _ = t) : step s = .next t :=
    (step_of_no_input hin).trans (congrArg Host.Outcome.next
      ((runPhase_sRead hp).trans ((sRead_of_cons hr ha).trans h)))
  refine ⟨s.clock + readTime r s, _, Nat.le_add_right _ _, rfl, ?timeout, ?ioError, ?none, ?several, ?ack, ?resend,
    ?exhausted, ?other⟩
  case timeout | ioError | none | ack => rintro rfl; exact read rfl
  case several => rintro x y l rfl; exact read rfl
  case resend => rintro rfl h; exact read (sClassify_nak_resend h)
  case exhausted => rintro rfl h; exact read (sClassify_nak_exhausted h)
  case other => rintro x rfl ha hn; exact read (sClassify_unexpected ha hn _)

end Sys2Proof.Machine
end

section
/-! PROOF. What a step does to the phase (R183, R211), and what no step of a running SEND touches (R171, R37). -/

namespace Sys2Proof.Machine

/-! ### The transitions -/

/-- Where each phase goes (R183, R211). -/
def successors : Phase → List Phase
  | .idle => [.sWrite, .mSetup]
  | .sWrite => [.sFlush, .idle]
  | .sFlush => [.sRead, .idle]
  | .sRead => [.sWrite, .idle]
  | .mSetup => [.mWrite, .idle]
  | .mWrite => [.mFlush, .idle]
  | .mFlush => [.mRead, .idle]
  | .mRead => [.mCheck, .idle]
  | .mCheck => [.mWrite, .idle]

theorem sRead_ph (s : State) : (sRead s).ph ∈ successors .sRead := by
  obtain ⟨r, o, h⟩ := sRead_cases s
  rw [h]
  rcases sClassify_cases r (addEvent .core (.read r) { s with clock := s.clock + readTime r s, oracle := o })
    with ⟨k, n, b, h, -⟩ | ⟨-, -, h⟩ <;> rw [h] <;> simp [successors]

theorem mRead_ph (s : State) : (mRead s).ph ∈ successors .mRead := by
  obtain ⟨r, o, h⟩ := mRead_cases s
  rw [h]
  rcases mClassify_cases r (addEvent .core (.read r) { s with clock := s.clock + readTime r s, oracle := o })
    with ⟨-, h⟩ | ⟨-, h⟩ | ⟨-, h⟩ | ⟨l, n, b, -, h⟩ <;> rw [h] <;> simp [successors]

/-- A phase of an operation always goes on to the next one. -/
theorem runPhase_ph {s : State} (hp : s.ph ≠ .idle) : (runPhase s).ph ∈ successors s.ph := by
  cases h : s.ph with
  | idle => exact absurd h hp
  | sWrite =>
    rw [runPhase_sWrite h]
    rcases sWrite_cases s with ⟨o, h⟩ | ⟨n, o, h⟩ <;> rw [h] <;> simp [successors]
  | sFlush =>
    rw [runPhase_sFlush h]
    rcases sFlush_cases s with ⟨o, h⟩ | ⟨n, o, h⟩ <;> rw [h] <;> simp [successors]
  | sRead => rw [runPhase_sRead h]; exact sRead_ph s
  | mSetup =>
    rw [runPhase_mSetup h]
    rcases mSetup_cases s with ⟨n, o, h⟩ | ⟨o, h⟩ <;> rw [h] <;> simp [successors]
  | mWrite =>
    rw [runPhase_mWrite h]
    rcases mWrite_cases s with ⟨o, h⟩ | ⟨n, o, h⟩ <;> rw [h] <;> simp [successors]
  | mFlush =>
    rw [runPhase_mFlush h]
    rcases mFlush_cases s with ⟨o, h⟩ | ⟨n, o, h⟩ <;> rw [h] <;> simp [successors]
  | mRead => rw [runPhase_mRead h]; exact mRead_ph s
  | mCheck =>
    rw [runPhase_mCheck h]
    rcases mCheck_cases s with ⟨n, o, -, h⟩ | ⟨n, o, h⟩ <;> rw [h] <;> simp [successors]

/-- A wait keeps the phase, or awaits no primitive and goes on. -/
theorem waitPhase_ph {s : State} (n : Nat) (hp : s.ph ≠ .idle) :
    (waitPhase n s).ph = s.ph ∨ (waitPhase n s).ph ∈ successors s.ph := by
  rcases waitPhase_cases n s with h | ⟨-, h⟩ | ⟨-, h⟩ | ⟨-, h⟩ <;> rw [h]
  · exact .inl rfl
  · exact .inr (runPhase_ph hp)
  · exact .inl rfl
  · exact .inl rfl

/-- The host's path, the host's reactions and the coming answers leave the phase. -/
theorem OnlyEnvironmentDiffers.ph {s t : State} (h : OnlyEnvironmentDiffers s t) : t.ph = s.ph := by
  rw [h.1]

/-- From `IDLE` only SEND and MAGIC leave. -/
theorem IdleStep.ph {s t : State} (h : IdleStep s t) (hp : s.ph = .idle) :
    t.ph = .idle ∨ t.ph ∈ successors .idle := by
  have environment (h : OnlyEnvironmentDiffers s t) : t.ph = .idle ∨ t.ph ∈ successors .idle :=
    .inl (h.ph.trans hp)
  cases h with
  | executed h =>
    rcases h.idle_cases hp with h | ⟨maxr, b, -, -, -, rfl⟩ | ⟨ivl, maxWait, -, rfl⟩ | h
    · exact .inl (h.idle hp)
    · exact .inr (by simp [sendAccepted, successors])
    · exact .inr (by simp [magicAccepted, successors])
    · exact environment h
  | refused => exact .inl rfl
  | transmitted l => exact environment (hostTransmit_environment l s)
  | received => exact environment (hostReceive_environment s)
  | timeoutSet τ => exact environment (hostSetTimeout_environment τ s)
  | reacted h => exact environment h.environment
  | answersChanged o => exact .inl hp

/-- A step without reset keeps the phase or moves it along. -/
theorem step_ph {s t : State} (h : step s = .next t) (hr : s.inputs.head? ≠ some .reset) :
    t.ph = s.ph ∨ t.ph ∈ successors s.ph := by
  by_cases hp : s.ph = .idle
  · obtain ⟨is, h⟩ := step_idleStep h hp hr
    rw [hp]
    exact h.ph hp
  · obtain ⟨rest, o, he | he | ⟨n, he⟩⟩ := step_busy_cases hp hr <;> rw [he] at h <;> cases h
    · exact .inl rfl
    · exact .inr (runPhase_ph (s := { s with inputs := rest, oracle := o }) hp)
    · exact waitPhase_ph (s := { s with inputs := rest, oracle := o }) n hp

/-- Settles O48: a step that changes the phase moves it to a successor, and the list has every such pair. -/
theorem phaseMovesAlongListedTransitions : Obligations.PhaseMovesAlongListedTransitions := by
  intro s t h hr hne
  have moved : t.ph ∈ successors s.ph := (step_ph h hr).resolve_left (Ne.symm hne)
  refine (?listed : ∀ q ∈ successors s.ph, (s.ph, q) ∈ _) t.ph moved
  cases s.ph <;> decide

/-! ### What SEND leaves alone -/

/-- The stream's timeout and MAGIC's start time stay. -/
def SameTimes (s t : State) : Prop := t.rto = s.rto ∧ t.t0 = s.t0

theorem sRead_sameTimes (s : State) : SameTimes s (sRead s) := by
  obtain ⟨r, o, h⟩ := sRead_cases s
  rw [h]
  rcases sClassify_cases r (addEvent .core (.read r) { s with clock := s.clock + readTime r s, oracle := o })
    with ⟨k, n, b, h, -⟩ | ⟨-, -, h⟩ <;> rw [h] <;> exact ⟨rfl, rfl⟩

/-- SEND sets no timeout (R304), and `T0` is MAGIC's. -/
theorem runPhase_sameTimes {s : State} (hp : s.ph.sending = true) : SameTimes s (runPhase s) := by
  cases h : s.ph with
  | sWrite =>
    rw [runPhase_sWrite h]
    rcases sWrite_cases s with ⟨o, h⟩ | ⟨n, o, h⟩ <;> rw [h] <;> exact ⟨rfl, rfl⟩
  | sFlush =>
    rw [runPhase_sFlush h]
    rcases sFlush_cases s with ⟨o, h⟩ | ⟨n, o, h⟩ <;> rw [h] <;> exact ⟨rfl, rfl⟩
  | sRead => rw [runPhase_sRead h]; exact sRead_sameTimes s
  | _ => rw [h] at hp; cases hp

theorem waitPhase_sameTimes {s : State} (n : Nat) (hp : s.ph.sending = true) : SameTimes s (waitPhase n s) := by
  rcases waitPhase_cases n s with h | ⟨-, h⟩ | ⟨-, h⟩ | ⟨-, h⟩ <;> rw [h]
  · exact ⟨rfl, rfl⟩
  · exact runPhase_sameTimes hp
  · exact ⟨rfl, rfl⟩
  · exact ⟨rfl, rfl⟩

/-- What SEND leaves alone (R171, R37). -/
def SendFrame (s t : State) : Prop :=
  t.out = s.out ∧ t.din = s.din ∧ t.acc = s.acc ∧ t.cnt = s.cnt ∧ t.rto = s.rto ∧ t.maxr = s.maxr ∧
    t.eidx = s.eidx ∧ t.ivl = s.ivl ∧ t.bnd = s.bnd ∧ t.maxw = s.maxw ∧ t.t0 = s.t0

/-- It is what every phase leaves, and the times. -/
theorem PhaseFrame.sendFrame {s t : State} (h : PhaseFrame s t) (times : SameTimes s t) : SendFrame s t := by
  obtain ⟨din, out, acc, cnt, eidx, maxr, ivl, bnd, maxw, -, -⟩ := h
  obtain ⟨rto, t0⟩ := times
  exact ⟨out, din, acc, cnt, rto, maxr, eidx, ivl, bnd, maxw, t0⟩

/-- Settles O25: a step of a running SEND is a phase or a wait, or changes the coming answers alone. -/
theorem sendStepsKeepFrame : Obligations.SendStepsKeepFrame := by
  intro s t hp hr h
  have busy : s.ph ≠ .idle := fun hi => by rw [hi] at hp; cases hp
  obtain ⟨rest, o, he | he | ⟨n, he⟩⟩ := step_busy_cases busy hr <;> rw [he] at h <;> cases h
  · exact ⟨rfl, rfl, rfl, rfl, rfl, rfl, rfl, rfl, rfl, rfl, rfl⟩
  · exact (runPhase_frame { s with inputs := rest, oracle := o }).sendFrame (runPhase_sameTimes hp)
  · exact (waitPhase_frame n { s with inputs := rest, oracle := o }).sendFrame (waitPhase_sameTimes n hp)

end Sys2Proof.Machine
end

section
/-! PROOF. SEND ends (R180): an attempt is at most three steps, and a NAK at the last one is not answered by another. -/

namespace Sys2Proof.Machine

/-! ### One attempt -/

/-- SEND in phase `p` with bound `m` and `a` attempts, no write under way and no input coming. -/
structure Attempted (m : Byte) (a : BitVec 9) (p : Phase) (s : State) : Prop where
  maxr : s.maxr = m
  att : s.att = a
  ph : s.ph = p
  writing : s.writing = none
  inputs : s.inputs = []

section
variable {m : Byte} {a : BitVec 9} {s : State}

theorem step_sWrite_attempted (hp : s.ph = .sWrite) (hin : s.inputs = []) :
    ∃ t, step s = .next t ∧ (Attempted s.maxr (countAttempt s) .sFlush t ∨
      Attempted s.maxr (countAttempt s) .idle t) := by
  refine ⟨sWrite s, by rw [step_of_no_input hin, runPhase_sWrite hp], ?_⟩
  rcases sWrite_cases s with ⟨o, h⟩ | ⟨n, o, h⟩ <;> rw [h]
  · exact .inl ⟨rfl, rfl, rfl, rfl, hin⟩
  · exact .inr ⟨rfl, rfl, rfl, rfl, hin⟩

theorem step_sFlush_attempted (h : Attempted m a .sFlush s) :
    ∃ t, step s = .next t ∧ (Attempted m a .sRead t ∨ Attempted m a .idle t) := by
  obtain ⟨hm, ha, hp, hw, hin⟩ := h
  refine ⟨sFlush s, by rw [step_of_no_input hin, runPhase_sFlush hp], ?_⟩
  rcases sFlush_cases s with ⟨o, h⟩ | ⟨n, o, h⟩ <;> rw [h]
  · exact .inl ⟨hm, ha, rfl, hw, hin⟩
  · exact .inr ⟨hm, ha, rfl, hw, hin⟩

theorem step_sRead_attempted (h : Attempted m a .sRead s) :
    ∃ t, step s = .next t ∧ (Attempted m a .sWrite t ∧ a.toNat ≤ m.toNat ∨ Attempted m a .idle t) := by
  obtain ⟨hm, ha, hp, hw, hin⟩ := h
  refine ⟨sRead s, by rw [step_of_no_input hin, runPhase_sRead hp], ?_⟩
  obtain ⟨r, o, h⟩ := sRead_cases s
  rw [h]
  rcases sClassify_cases r (addEvent .core (.read r) { s with clock := s.clock + readTime r s, oracle := o })
    with ⟨k, n, b, h, -⟩ | ⟨-, hle, h⟩ <;> rw [h]
  · exact .inr ⟨hm, ha, rfl, hw, hin⟩
  · exact .inl ⟨⟨hm, ha, rfl, hw, hin⟩, hm ▸ ha ▸ hle⟩

/-- An attempt ends SEND, or a NAK ends it while attempts remain. -/
theorem run_attempt (hp : s.ph = .sWrite) (hin : s.inputs = []) :
    ∃ (n : Nat) (t : State), n ≤ 3 ∧ Sys2Proof.core.run n s = .next t ∧
      (Attempted s.maxr (countAttempt s) .sWrite t ∧ (countAttempt s).toNat ≤ s.maxr.toNat ∨
        Attempted s.maxr (countAttempt s) .idle t) := by
  obtain ⟨u, write, hu | hu⟩ := step_sWrite_attempted hp hin
  · obtain ⟨v, flush, hv | hv⟩ := step_sFlush_attempted hu
    · obtain ⟨t, read, ht⟩ := step_sRead_attempted hv
      exact ⟨3, t, le_rfl, (run_succ 2 write).trans ((run_succ 1 flush).trans (run_succ 0 read)), ht⟩
    · exact ⟨2, v, by decide, (run_succ 1 write).trans (run_succ 0 flush), .inr hv⟩
  · exact ⟨1, u, by decide, run_succ 0 write, .inr hu⟩

/-! ### All attempts -/

/-- A write not begun is counted (R173). -/
theorem countAttempt_of_none (h : s.writing = none) : countAttempt s = s.att + 1 := if_pos h

/-- With `d` attempts left after this one, SEND ends within `d + 1` of them. -/
theorem run_attempts {d : Nat} (hp : s.ph = .sWrite) (hin : s.inputs = [])
    (hd : (countAttempt s).toNat + d = s.maxr.toNat + 1) :
    ∃ (n : Nat) (t : State), n ≤ 3 * (d + 1) ∧ Sys2Proof.core.run n s = .next t ∧ t.ph = .idle ∧
      t.att.toNat ≤ s.maxr.toNat + 1 := by
  induction d generalizing s with
  | zero =>
    obtain ⟨n, t, hn, run, ⟨-, hle⟩ | ht⟩ := run_attempt hp hin
    · omega
    · exact ⟨n, t, hn, run, ht.ph, by rw [ht.att]; omega⟩
  | succ d ih =>
    obtain ⟨n, t, hn, run, ⟨ht, hle⟩ | ht⟩ := run_attempt hp hin
    · have next : (countAttempt t).toNat = (countAttempt s).toNat + 1 := by
        rw [countAttempt_of_none ht.writing, ht.att]
        bv_omega
      obtain ⟨n', t', hn', run', idle, att⟩ := ih ht.ph ht.inputs (by rw [next, ht.maxr]; omega)
      exact ⟨n + n', t', by omega, (run_add n n' run).trans run', idle, ht.maxr ▸ att⟩
    · exact ⟨n, t, by omega, run, ht.ph, by rw [ht.att]; omega⟩

end

/-- Settles O24: `b` is the count with this attempt, and `MAXR + 1 - b` are left after it. -/
theorem sendCompletesWithinBound : Obligations.SendCompletesWithinBound := by
  intro s b hp hin hb hle
  have count : (countAttempt s).toNat = b := by
    unfold countAttempt
    split at hb
    · rw [if_pos ‹_›]
      bv_omega
    · rw [if_neg ‹_›, hb]
  obtain ⟨n, t, hn, run, idle, att⟩ := run_attempts (d := s.maxr.toNat + 1 - b) hp hin (by omega)
  exact ⟨n, t, by omega, run, idle, att⟩

end Sys2Proof.Machine
end

section
/-! PROOF. The document's testable property (R181): NAKs and then an ACK. -/

namespace Sys2Proof.Machine

/-! ### One attempt, answered at once with one byte -/

/-- One step of CORE with no input coming, and then the others. -/
theorem run_phase {s : State} (n : Nat) (hin : s.inputs = []) :
    Sys2Proof.core.run (n + 1) s = Sys2Proof.core.run n (runPhase s) :=
  run_succ n (step_of_no_input hin)

/-- An attempt made and answered with `x`, which is not classified yet. -/
def attemptAnswered (x : Byte) (ws fs : List Answer) (rs : List ReadAnswer) (s : State) : State :=
  { s with
    att := s.att + 1, ph := .sRead, writing := none, tx := s.tx ++ s.out, handed := (s.tx ++ s.out).length,
    history := s.history ++ attemptEvents s.out x,
    oracle := { s.oracle with writes := ws, flushes := fs, reads := rs } }

/-- SEND accepted at `s₀` with bound `maxr` and answered with NAK `a` times: the next attempt begins, with these
answers to come. -/
structure Resending (s₀ : State) (maxr : Byte) (a : Nat) (ws fs : List Answer) (rs : List ReadAnswer) (s : State) :
    Prop where
  ph : s.ph = .sWrite
  writing : s.writing = none
  inputs : s.inputs = []
  maxr : s.maxr = maxr
  att : s.att.toNat = a
  out : s.out = s₀.out
  responses : s.responses = s₀.responses
  history : s.history = s₀.history ++ (List.replicate a (attemptEvents s₀.out 0x15)).flatten
  writes : s.oracle.writes = ws
  flushes : s.oracle.flushes = fs
  reads : s.oracle.reads = rs

/-- SEND issued at `s₀` has ended with status `k` after `n` attempts, with these events and these answers unread. -/
structure Ended (s₀ : State) (k : Status) (n : Nat) (es : List Event) (rs : List ReadAnswer) (t : State) : Prop where
  ph : t.ph = .idle
  out : t.out = s₀.out
  att : t.att.toNat = n
  status : t.status = k
  responses : t.responses = s₀.responses ++ [{ status := k, val := BitVec.ofNat 16 n }]
  history : t.history = s₀.history ++ es
  reads : t.oracle.reads = rs

section
variable {s₀ s : State} {maxr x : Byte} {a : Nat} {ws fs : List Answer} {rs : List ReadAnswer}

/-- The three steps of an attempt. -/
theorem run_attempt_answered (hl : s₀.out.length = 70)
    (h : Resending s₀ maxr a (.done :: ws) (.done :: fs) (.bytes [x] :: rs) s) :
    Sys2Proof.core.run 3 s = .next (sClassify (.bytes [x]) (attemptAnswered x ws fs rs s)) := by
  have events : s.history ++ attemptEvents s.out x =
      s.history ++ [{ who := .core, deed := .write s.out .done }] ++ [{ who := .core, deed := .flush .done }] ++
        [{ who := .core, deed := .read (.bytes [x]) }] := by
    simp [attemptEvents]
  rw [run_phase 2 h.inputs, runPhase_sWrite h.ph, sWrite_of_done (by rw [h.out, hl]) h.writes,
    countAttempt_of_none h.writing, h.writing,
    run_phase 1 (by exact h.inputs), runPhase_sFlush rfl, sFlush_of_done (by exact h.flushes),
    run_phase 0 (by exact h.inputs), runPhase_sRead rfl, sRead_of_cons (by exact h.reads) (admissible_single x),
    attemptAnswered, events]
  rfl

/-- The attempt is counted: `ATT` has room for `MAXR + 1` (R182). -/
theorem Resending.att_succ (h : Resending s₀ maxr a ws fs rs s) (ha : a ≤ maxr.toNat) :
    (s.att + 1).toNat = a + 1 := by
  have := h.att
  bv_omega

/-- A NAK while attempts remain: the next attempt begins (R177). -/
theorem Resending.run_nak (hl : s₀.out.length = 70)
    (h : Resending s₀ maxr a (.done :: ws) (.done :: fs) (.bytes [0x15] :: rs) s) (ha : a < maxr.toNat) :
    ∃ t : State, Sys2Proof.core.run 3 s = .next t ∧ Resending s₀ maxr (a + 1) ws fs rs t := by
  have count : (s.att + 1).toNat = a + 1 := h.att_succ ha.le
  have remain : (attemptAnswered 0x15 ws fs rs s).att.toNat ≤ (attemptAnswered 0x15 ws fs rs s).maxr.toNat := by
    rw [attemptAnswered, count, h.maxr]
    exact ha
  refine ⟨_, (run_attempt_answered hl h).trans (congrArg Host.Outcome.next (sClassify_nak_resend remain)),
    rfl, rfl, h.inputs, h.maxr, count, h.out, h.responses, ?_, rfl, rfl, rfl⟩
  simp [attemptAnswered, h.history, h.out, List.replicate_succ']

/-- `j` NAKs while attempts remain. -/
theorem Resending.run_naks {j : Nat} (hl : s₀.out.length = 70)
    (h : Resending s₀ maxr a (List.replicate j Answer.done ++ ws) (List.replicate j Answer.done ++ fs)
      (List.replicate j (ReadAnswer.bytes [0x15]) ++ rs) s) (hj : a + j ≤ maxr.toNat) :
    ∃ t : State, Sys2Proof.core.run (3 * j) s = .next t ∧ Resending s₀ maxr (a + j) ws fs rs t := by
  induction j generalizing a s with
  | zero => exact ⟨s, run_zero s, h⟩
  | succ j ih =>
    obtain ⟨u, nak, hu⟩ := h.run_nak hl (by omega)
    obtain ⟨t, naks, ht⟩ := ih hu (by omega)
    exact ⟨t, by rw [Nat.mul_succ, Nat.add_comm, run_add 3 (3 * j) nak, naks],
      by rwa [Nat.add_right_comm, Nat.add_assoc] at ht⟩

/-- SEND with the answer `x` read, and ended with status `k`. -/
def endedOn (x : Byte) (k : Status) (s : State) : State := respond k (attVal s) { s with rxn := 1, rxb := x }

/-- An answer that ends SEND is the last one read. -/
theorem Resending.run_last {k : Status} (hl : s₀.out.length = 70)
    (h : Resending s₀ maxr a (.done :: ws) (.done :: fs) (.bytes [x] :: rs) s) (ha : a ≤ maxr.toNat)
    (hx : sClassify (.bytes [x]) (attemptAnswered x ws fs rs s) = endedOn x k (attemptAnswered x ws fs rs s)) :
    ∃ t : State, Sys2Proof.core.run 3 s = .next t ∧ Ended s₀ k (a + 1)
      ((List.replicate a (attemptEvents s₀.out 0x15)).flatten ++ attemptEvents s₀.out x) rs t := by
  have count : (s.att + 1).toNat = a + 1 := h.att_succ ha
  have value : attVal (attemptAnswered x ws fs rs s) = BitVec.ofNat 16 (a + 1) := by
    rw [← count]
    exact (BitVec.ofNat_toNat 16 (s.att + 1)).symm
  refine ⟨_, (run_attempt_answered hl h).trans (congrArg Host.Outcome.next hx), rfl, h.out, count, rfl, ?_, ?_, rfl⟩
  · rw [endedOn, respond_responses, value]
    exact congrArg (· ++ _) h.responses
  · simp [endedOn, attemptAnswered, h.history, h.out]

/-- SEND issued at `IDLE`, answered with `m` NAKs, at most `MAXR`, and then with an `x` that ends it. -/
theorem run_send {m : Nat} {k : Status} (hp : s.ph = .idle) (hl : s.out.length = 70) (hm : m ≤ maxr.toNat)
    (hw : s.oracle.writes = List.replicate m Answer.done ++ Answer.done :: ws)
    (hf : s.oracle.flushes = List.replicate m Answer.done ++ Answer.done :: fs)
    (hr : s.oracle.reads = List.replicate m (ReadAnswer.bytes [0x15]) ++ ReadAnswer.bytes [x] :: rs)
    (hx : ∀ u, Resending s maxr m (.done :: ws) (.done :: fs) (.bytes [x] :: rs) u →
      sClassify (.bytes [x]) (attemptAnswered x ws fs rs u) = endedOn x k (attemptAnswered x ws fs rs u)) :
    ∃ t : State, Sys2Proof.core.run (3 * (m + 1) + 1) { s with inputs := issue (.send maxr) } = .next t ∧
      Ended s k (m + 1) ((List.replicate m (attemptEvents s.out 0x15)).flatten ++ attemptEvents s.out x) rs t := by
  obtain ⟨b, hb⟩ : ∃ b, s.out.head? = some b := by
    cases h : s.out with
    | nil => simp [h] at hl
    | cons b l => exact ⟨b, rfl⟩
  have accepted : step { s with inputs := issue (.send maxr) } = .next (sendAccepted maxr b { s with inputs := [] }) :=
    (step_of_decoded_request (r := { op := 0x40, a := maxr }) [] hp (decode_send rfl)).trans
      (exec_send_of_length (s := { s with inputs := [] }) hp hl hb maxr)
  have start : Resending s maxr 0 _ _ _ (sendAccepted maxr b { s with inputs := [] }) :=
    ⟨rfl, rfl, rfl, rfl, rfl, rfl, rfl, (List.append_nil _).symm, hw, hf, hr⟩
  obtain ⟨u, naks, hu⟩ := start.run_naks hl (by omega)
  rw [Nat.zero_add] at hu
  obtain ⟨t, last, ended⟩ := hu.run_last hl hm (hx u hu)
  exact ⟨t, by rw [run_succ _ accepted, Nat.mul_succ, run_add _ 3 naks, last], ended⟩

end

/-- Settles O23: up to the bound the NAKs are all read and the ACK ends SEND; past it the last allowed one does. -/
theorem sendNakThenAckProperty : Obligations.SendNakThenAckProperty := by
  intro s maxr k n ws fs rest hp hl hn hw hf hr
  have last {α : Type} (m : Nat) (x : α) (l : List α) :
      List.replicate (m + 1) x ++ l = List.replicate m x ++ x :: l := by
    simp [List.replicate_succ']
  rw [hn, last] at hw hf
  by_cases hk : k ≤ maxr.toNat
  · rw [min_eq_left hk] at hn hw hf
    subst hn
    obtain ⟨t, run, ended⟩ := run_send (k := .ok) hp hl hk hw hf hr fun _ _ => sClassify_ack _
    refine ⟨t, run, ended.ph, ended.out, ended.att, fun _ => ⟨ended.status, rfl, ended.responses, ?_, ended.reads⟩,
      fun h => absurd hk (Nat.not_le_of_lt h)⟩
    rw [ended.history, List.append_assoc]
  · have hlt : maxr.toNat < k := Nat.lt_of_not_le hk
    rw [min_eq_right hlt.le] at hn hw hf
    subst hn
    have reads : s.oracle.reads = List.replicate maxr.toNat (ReadAnswer.bytes [0x15]) ++ ReadAnswer.bytes [0x15] ::
          (List.replicate (k - (maxr.toNat + 1)) (ReadAnswer.bytes [0x15]) ++ ReadAnswer.bytes [0x06] :: rest) := by
      rw [hr, ← last, ← List.append_assoc, List.replicate_append_replicate, Nat.add_sub_of_le hlt]
    obtain ⟨t, run, ended⟩ := run_send (k := .retryExhausted) hp hl le_rfl hw hf reads fun u hu =>
      sClassify_nak_exhausted (by
        rw [attemptAnswered, hu.maxr, hu.att_succ le_rfl]
        exact Nat.lt_succ_self _)
    refine ⟨t, run, ended.ph, ended.out, ended.att, fun h => absurd h hk,
      fun _ => ⟨ended.status, rfl, ended.responses, ?_, ended.reads⟩⟩
    rw [ended.history, List.replicate_succ', List.flatten_append, List.flatten_singleton]

end Sys2Proof.Machine
end

section
/-! PROOF. MAGIC (`44_handshake.md`): its acceptance, and each of its five phases with a scripted answer. -/

namespace Sys2Proof.Machine

/-! ### The start -/

/-- MAGIC's code selects MAGIC of `t0` and, with `c[0]` set, of `t1` (R91, R92). -/
theorem decode_magic {r : Request} (h : r.op = 0x50) : decode (.request r) = .ok (.magic r.t0 r.maxWait) := by
  simp [decode, decodeRequest, h]

/-- MAGIC is accepted in every idle state (R196). -/
theorem exec_magic_of_idle {s : State} (hp : s.ph = .idle) (ivl : Ticks) (maxWait : Option Ticks) :
    exec (.magic ivl maxWait) s = .next (magicAccepted ivl maxWait s) :=
  whenIdle_of_idle (f := fun s => .next (magicAccepted ivl maxWait s)) hp

/-- Settles O26: the operands are latched, an absent deadline as none. -/
theorem magicLatchesOperands : Obligations.MagicLatchesOperands :=
  ⟨fun _ => decode_magic, fun _ ivl maxw hp =>
    ⟨exec_magic_of_idle hp ivl (some maxw), exec_magic_of_idle hp ivl none⟩⟩

/-! ### `M_SETUP` -/

/-- A scripted answer answers the timeout setting. -/
theorem streamSetTimeout_of_cons {w : Owner} {t : Ticks} {s : State} {a : Answer} {rest : List Answer}
    (h : s.oracle.sets = a :: rest) :
    streamSetTimeout w t s =
      (a, addEvent w (.setTimeout t a) { s with rto := t, oracle := { s.oracle with sets := rest } }) := by
  simp [streamSetTimeout, Oracle.nextSet, h]

/-- A scripted advance of the clock is the next one. -/
theorem nextTicks_of_cons {o : Oracle} {n : Nat} {ns : List Nat} (h : o.ticks = n :: ns) :
    o.nextTicks = (n, { o with ticks := ns }) := by
  simp [Oracle.nextTicks, h]

/-- `M_SETUP` with `Done` scripted, and the clock reading that comes then. -/
theorem mSetup_of_done {s : State} {rest : List Answer} {n : Nat} {o : Oracle}
    (hs : s.oracle.sets = .done :: rest) (hn : Oracle.nextTicks { s.oracle with sets := rest } = (n, o)) :
    mSetup s = { s with
      rto := s.ivl, clock := s.clock + n, t0 := s.clock + n, ph := .mWrite,
      history := s.history ++ [{ who := .core, deed := .setTimeout s.ivl .done }], oracle := o } := by
  simp only [mSetup, streamSetTimeout_of_cons hs, now, addEvent, hn]

/-- `M_SETUP` with `IoError` scripted. -/
theorem mSetup_of_ioError {s : State} {rest : List Answer} (h : s.oracle.sets = .ioError :: rest) :
    mSetup s = answered .streamError 0 { s with
      rto := s.ivl, ph := .idle,
      history := s.history ++ [{ who := .core, deed := .setTimeout s.ivl .ioError }],
      oracle := { s.oracle with sets := rest } } := by
  rw [mSetup, streamSetTimeout_of_cons h]
  rfl

/-- Settles O27: the setting is answered `Done` or `IoError`. -/
theorem magicSetupPhase : Obligations.MagicSetupPhase := by
  intro s rest hp hin
  rw [step_of_no_input hin, runPhase_mSetup hp]
  exact ⟨fun n ns hs ht => congrArg Host.Outcome.next (mSetup_of_done hs (nextTicks_of_cons (by exact ht))),
    fun h => congrArg Host.Outcome.next (mSetup_of_ioError h)⟩

/-! ### `M_WRITE` -/

/-- `M_WRITE` with `Done` scripted. -/
theorem mWrite_of_done {s : State} {rest : List Answer} (h : s.oracle.writes = .done :: rest) :
    mWrite s = { s with
      ph := .mFlush, writing := none, tx := s.tx ++ cfg.magicSeq.drop (s.writing.getD 0),
      history := s.history ++ [{ who := .core, deed := .write cfg.magicSeq .done }],
      oracle := { s.oracle with writes := rest } } := by
  rw [mWrite, streamWrite_of_done (by exact h)]
  rfl

/-- `M_WRITE` with `IoError` scripted. -/
theorem mWrite_of_ioError {s : State} {rest : List Answer} (h : s.oracle.writes = .ioError :: rest) :
    mWrite s = answered .streamError 0 { s with
      ph := .idle, writing := none,
      tx := s.tx ++ (cfg.magicSeq.drop (s.writing.getD 0)).take (Config.freeCount s.oracle.draws),
      history := s.history ++ [{ who := .core, deed := .write cfg.magicSeq .ioError }],
      oracle := { s.oracle with writes := rest, draws := s.oracle.draws + 1 } } := by
  rw [mWrite, streamWrite_of_ioError (by exact h)]
  rfl

/-- `M_WRITE` while the stream does not answer. -/
theorem waitPhase_mWrite {s : State} (n : Nat) (hp : s.ph = .mWrite) :
    waitPhase n s = { s with
      writing := some (min (s.writing.getD 0 + n) cfg.magicSeq.length),
      tx := s.tx ++ (cfg.magicSeq.drop (s.writing.getD 0)).take n } := by
  simp only [waitPhase, hp, writeUnderWay]

/-! ### `M_FLUSH` -/

/-- `M_FLUSH` with `Done` scripted. -/
theorem mFlush_of_done {s : State} {rest : List Answer} (h : s.oracle.flushes = .done :: rest) :
    mFlush s = { s with
      ph := .mRead, handed := s.tx.length,
      history := s.history ++ [{ who := .core, deed := .flush .done }],
      oracle := { s.oracle with flushes := rest } } := by
  rw [mFlush, streamFlush_of_done h]
  rfl

/-- `M_FLUSH` with `IoError` scripted. -/
theorem mFlush_of_ioError {s : State} {rest : List Answer} (h : s.oracle.flushes = .ioError :: rest) :
    mFlush s = answered .streamError 0 { s with
      ph := .idle, handed := s.handed + min (Config.freeCount s.oracle.draws) (s.tx.length - s.handed),
      history := s.history ++ [{ who := .core, deed := .flush .ioError }],
      oracle := { s.oracle with flushes := rest, draws := s.oracle.draws + 1 } } := by
  rw [mFlush, streamFlush_of_ioError h]
  rfl

/-- Settles O28: the write is answered `Done` or `IoError`, or goes on; the flush is answered `Done` or `IoError`. -/
theorem magicWriteAndFlushPhases : Obligations.MagicWriteAndFlushPhases := by
  rintro s rest _ _ rfl rfl
  refine ⟨fun hp hin h => ?writeDone, fun hp hin h => ?writeFails, fun n is hp hin => ?writeWaits,
    fun hp hin h => ?flushDone, fun hp hin h => ?flushFails⟩
  case writeDone =>
    rw [step_of_no_input hin, runPhase_mWrite hp, mWrite_of_done h]
    rfl
  case writeFails =>
    rw [step_of_no_input hin, runPhase_mWrite hp, mWrite_of_ioError h]
    exact ⟨_, _, rfl⟩
  case writeWaits =>
    rw [step_of_wait hin, waitPhase_mWrite (s := { s with inputs := is }) n hp]
    rfl
  case flushDone => rw [step_of_no_input hin, runPhase_mFlush hp, mFlush_of_done h]
  case flushFails =>
    rw [step_of_no_input hin, runPhase_mFlush hp]
    exact ⟨_, _, by omega, by omega, congrArg Host.Outcome.next (mFlush_of_ioError h)⟩

/-! ### `M_READ` -/

/-- Bytes other than the single 0x06 are counted, and passed over (R201). -/
theorem mClassify_other {x : Byte} {l : List Byte} (h : ReadAnswer.bytes (x :: l) ≠ .bytes [0x06]) (s : State) :
    mClassify (.bytes (x :: l)) s =
      { s with rxn := BitVec.ofNat 8 (min (l.length + 1) 255), rxb := x, ph := .mCheck } := by
  cases l with
  | nil =>
    have hx : x ≠ cfg.ack := fun hx => h (by rw [hx]; rfl)
    rw [mClassify, if_neg hx]
    rfl
  | cons y l => rfl

/-- Settles O29: the answer is read, and then classified. -/
theorem magicReadPhase : Obligations.MagicReadPhase := by
  intro s r rest hp hin hr ha
  have read {t : State} (h : mClassify r _ = t) : step s = .next t :=
    (step_of_no_input hin).trans (congrArg Host.Outcome.next
      ((runPhase_mRead hp).trans ((mRead_of_cons hr ha).trans h)))
  refine ⟨s.clock + readTime r s, _, Nat.le_add_right _ _, rfl, ?ack, ?timeout, ?ioError, ?none, ?other⟩
  case ack | timeout | ioError | none => rintro rfl; exact read rfl
  case other => rintro x l rfl hne; exact read (mClassify_other hne _)

/-! ### `M_CHECK` -/

/-- `M_CHECK` without a deadline: the clock is not read (R205). -/
theorem mCheck_of_unbounded {s : State} (hb : s.bnd = false) : mCheck s = { s with ph := .mWrite } := by
  simp [mCheck, hb]

/-- `M_CHECK` with a deadline that the clock reading meets (R205). -/
theorem mCheck_of_met {s : State} {n : Nat} {o : Oracle} (hb : s.bnd = true) (hn : s.oracle.nextTicks = (n, o))
    (h : s.maxw.toNat ≤ s.clock + n - s.t0) :
    mCheck s = respond .timeout 0 { s with clock := s.clock + n, oracle := o } := by
  simp [mCheck, now, deadlineMet, hb, hn, h]

/-- `M_CHECK` with a deadline that the clock reading does not meet (R205). -/
theorem mCheck_of_not_met {s : State} {n : Nat} {o : Oracle} (hb : s.bnd = true) (hn : s.oracle.nextTicks = (n, o))
    (h : s.clock + n - s.t0 < s.maxw.toNat) :
    mCheck s = { s with clock := s.clock + n, oracle := o, ph := .mWrite } := by
  simp [mCheck, now, deadlineMet, hb, hn, Nat.not_le_of_lt h]

/-- Settles O30: there is no deadline, or the clock reading meets it, or not. -/
theorem magicCheckPhase : Obligations.MagicCheckPhase := by
  intro s n ns hp hin
  rw [step_of_no_input hin, runPhase_mCheck hp]
  exact ⟨fun hb => congrArg Host.Outcome.next (mCheck_of_unbounded hb),
    fun hb ht h => congrArg Host.Outcome.next (mCheck_of_met hb (nextTicks_of_cons ht) h),
    fun hb ht h => congrArg Host.Outcome.next (mCheck_of_not_met hb (nextTicks_of_cons ht) h)⟩

end Sys2Proof.Machine
end

section
/-! PROOF. What no step of a running MAGIC touches (R196), and how its loop is left without a deadline (R206). -/

namespace Sys2Proof.Machine

/-! ### What MAGIC leaves alone -/

theorem mRead_att (s : State) : (mRead s).att = s.att := by
  obtain ⟨r, o, h⟩ := mRead_cases s
  rw [h]
  rcases mClassify_cases r (addEvent .core (.read r) { s with clock := s.clock + readTime r s, oracle := o })
    with ⟨-, h⟩ | ⟨-, h⟩ | ⟨-, h⟩ | ⟨l, n, b, -, h⟩ <;> rw [h] <;> rfl

/-- Only SEND counts attempts (R307). -/
theorem runPhase_att {s : State} (hp : s.ph.sending = false) : (runPhase s).att = s.att := by
  cases h : s.ph with
  | idle => rw [runPhase_idle h]
  | mSetup =>
    rw [runPhase_mSetup h]
    rcases mSetup_cases s with ⟨n, o, h⟩ | ⟨o, h⟩ <;> rw [h] <;> rfl
  | mWrite =>
    rw [runPhase_mWrite h]
    rcases mWrite_cases s with ⟨o, h⟩ | ⟨n, o, h⟩ <;> rw [h] <;> rfl
  | mFlush =>
    rw [runPhase_mFlush h]
    rcases mFlush_cases s with ⟨o, h⟩ | ⟨n, o, h⟩ <;> rw [h] <;> rfl
  | mRead => rw [runPhase_mRead h, mRead_att]
  | mCheck =>
    rw [runPhase_mCheck h]
    rcases mCheck_cases s with ⟨n, o, -, h⟩ | ⟨n, o, h⟩
    · rw [h]; rfl
    · rw [h]
  | sWrite | sFlush | sRead => rw [h] at hp; cases hp

theorem waitPhase_att {s : State} (n : Nat) (hp : s.ph.sending = false) : (waitPhase n s).att = s.att := by
  rcases waitPhase_cases n s with h | ⟨-, h⟩ | ⟨h, -⟩ | ⟨-, h⟩
  · rw [h]
  · rw [h, runPhase_att hp]
  · rw [h] at hp; cases hp
  · rw [h]; rfl

/-- What MAGIC leaves alone once it is accepted (R196). -/
def MagicFrame (s t : State) : Prop :=
  t.att = s.att ∧ t.eidx = s.eidx ∧ t.din = s.din ∧ t.out = s.out ∧ t.acc = s.acc ∧ t.cnt = s.cnt ∧
    t.ivl = s.ivl ∧ t.bnd = s.bnd ∧ t.maxw = s.maxw ∧ t.maxr = s.maxr

/-- It is what every phase leaves, and the attempts. -/
theorem PhaseFrame.magicFrame {s t : State} (h : PhaseFrame s t) (att : t.att = s.att) : MagicFrame s t := by
  obtain ⟨din, out, acc, cnt, eidx, maxr, ivl, bnd, maxw, -, -⟩ := h
  exact ⟨att, eidx, din, out, acc, cnt, ivl, bnd, maxw, maxr⟩

/-- Settles O34: a step of a running MAGIC is a phase or a wait, or changes the coming answers alone. -/
theorem magicStepsKeepBuffers : Obligations.MagicStepsKeepBuffers := by
  intro s t hp hr h
  obtain ⟨busy, magic⟩ : s.ph ≠ .idle ∧ s.ph.sending = false := by
    cases hs : s.ph <;> simp [hs, Phase.looping, Phase.sending] at hp ⊢
  obtain ⟨rest, o, he | he | ⟨n, he⟩⟩ := step_busy_cases busy hr <;> rw [he] at h <;> cases h
  · exact ⟨rfl, rfl, rfl, rfl, rfl, rfl, rfl, rfl, rfl, rfl⟩
  · exact (runPhase_frame { s with inputs := rest, oracle := o }).magicFrame (runPhase_att magic)
  · exact (waitPhase_frame n { s with inputs := rest, oracle := o }).magicFrame (waitPhase_att n magic)

/-! ### How the loop is left -/

/-- MAGIC has ended on an ACK, or on a stream error, which was the last event (R202, R204). -/
def EndedOnAckOrError (t : State) : Prop :=
  t.ph = .idle ∧
  ((t.status = .ok ∧ t.history.getLast? = some { who := .core, deed := .read (.bytes [0x06]) }) ∨
    (t.status = .streamError ∧ ∃ l,
      t.history.getLast? = some { who := .core, deed := .write l .ioError } ∨
      t.history.getLast? = some { who := .core, deed := .flush .ioError } ∨
      t.history.getLast? = some { who := .core, deed := .read .ioError }))

theorem mRead_stays_or_ends (s : State) : (mRead s).ph.looping = true ∨ EndedOnAckOrError (mRead s) := by
  obtain ⟨r, o, h⟩ := mRead_cases s
  rw [h]
  rcases mClassify_cases r (addEvent .core (.read r) { s with clock := s.clock + readTime r s, oracle := o })
    with ⟨rfl, h⟩ | ⟨rfl, h⟩ | ⟨-, h⟩ | ⟨l, n, b, -, h⟩ <;> rw [h]
  · exact .inr ⟨rfl, .inl ⟨rfl, List.getLast?_concat⟩⟩
  · exact .inr ⟨rfl, .inr ⟨rfl, [], .inr (.inr List.getLast?_concat)⟩⟩
  · exact .inl rfl
  · exact .inl rfl

/-- Without a deadline a phase of the loop stays in the loop, or ends on an ACK or a stream error (R206). -/
theorem runPhase_stays_or_ends {s : State} (hp : s.ph.looping = true) (hb : s.bnd = false) :
    (runPhase s).ph.looping = true ∨ EndedOnAckOrError (runPhase s) := by
  cases h : s.ph with
  | mWrite =>
    rw [runPhase_mWrite h]
    rcases mWrite_cases s with ⟨o, h⟩ | ⟨n, o, h⟩ <;> rw [h]
    · exact .inl rfl
    · exact .inr ⟨rfl, .inr ⟨rfl, cfg.magicSeq, .inl List.getLast?_concat⟩⟩
  | mFlush =>
    rw [runPhase_mFlush h]
    rcases mFlush_cases s with ⟨o, h⟩ | ⟨n, o, h⟩ <;> rw [h]
    · exact .inl rfl
    · exact .inr ⟨rfl, .inr ⟨rfl, [], .inr (.inl List.getLast?_concat)⟩⟩
  | mRead => rw [runPhase_mRead h]; exact mRead_stays_or_ends s
  | mCheck =>
    rw [runPhase_mCheck h, mCheck_of_unbounded hb]
    exact .inl rfl
  | idle | sWrite | sFlush | sRead | mSetup => rw [h] at hp; cases hp

/-- And so does a wait. -/
theorem waitPhase_stays_or_ends {s : State} (n : Nat) (hp : s.ph.looping = true) (hb : s.bnd = false) :
    (waitPhase n s).ph.looping = true ∨ EndedOnAckOrError (waitPhase n s) := by
  rcases waitPhase_cases n s with h | ⟨-, h⟩ | ⟨h, -⟩ | ⟨-, h⟩
  · rw [h]; exact .inl hp
  · rw [h]; exact runPhase_stays_or_ends hp hb
  · rw [h] at hp; cases hp
  · rw [h]; exact .inl hp

/-- Settles O33: a step that leaves the loop is a phase of it, or a wait, that ends MAGIC. -/
theorem unboundedMagicLeavesOnlyOnAckOrError : Obligations.UnboundedMagicLeavesOnlyOnAckOrError := by
  intro s t hp hb hr h left
  have busy : s.ph ≠ .idle := fun hi => by rw [hi] at hp; cases hp
  have stays : ¬ t.ph.looping = true := ne_true_of_eq_false left
  obtain ⟨rest, o, he | he | ⟨n, he⟩⟩ := step_busy_cases busy hr <;> rw [he] at h <;> cases h
  · exact absurd hp stays
  · exact (runPhase_stays_or_ends (s := { s with inputs := rest, oracle := o }) hp hb).resolve_left stays
  · exact (waitPhase_stays_or_ends (s := { s with inputs := rest, oracle := o }) n hp hb).resolve_left stays

end Sys2Proof.Machine
end

section
/-! PROOF. MAGIC against a peer that only times out for a while: each iteration is four steps, and the deadline ends it
(R207), or an ACK does (R208). -/

namespace Sys2Proof.Machine

/-! ### One iteration, answered at once -/

/-- The five bytes written, flushed and answered with `r`, which is not classified yet. -/
def magicAnswered (r : ReadAnswer) (ws fs : List Answer) (rs : List ReadAnswer) (s : State) : State :=
  { s with
    ph := .mRead, writing := none, tx := s.tx ++ cfg.magicSeq.drop (s.writing.getD 0),
    handed := (s.tx ++ cfg.magicSeq.drop (s.writing.getD 0)).length, clock := s.clock + readTime r s,
    history := s.history ++ [{ who := .core, deed := .write cfg.magicSeq .done },
      { who := .core, deed := .flush .done }, { who := .core, deed := .read r }],
    oracle := { s.oracle with writes := ws, flushes := fs, reads := rs } }

/-- MAGIC in phase `p` of its loop, entered at `s₀`, after `i` reads that timed out, with these answers to come. -/
structure Unanswered (s₀ : State) (i : Nat) (p : Phase) (ws fs : List Answer) (rs : List ReadAnswer) (s : State) :
    Prop where
  ph : s.ph = p
  inputs : s.inputs = []
  rto : s.rto = s₀.rto
  bnd : s.bnd = s₀.bnd
  maxw : s.maxw = s₀.maxw
  t0 : s.t0 = s₀.t0
  responses : s.responses = s₀.responses
  history : s.history = s₀.history ++ (List.replicate i timedOutEvents).flatten
  writes : s.oracle.writes = ws
  flushes : s.oracle.flushes = fs
  reads : s.oracle.reads = rs

/-- The loop entered at `s₀` has ended with status `k` after these events. -/
structure LoopEnded (s₀ : State) (k : Status) (es : List Event) (t : State) : Prop where
  ph : t.ph = .idle
  status : t.status = k
  responses : t.responses = s₀.responses ++ [{ status := k, val := 0 }]
  rto : t.rto = s₀.rto
  history : t.history = s₀.history ++ es

/-- A clock reading draws no answer of the stream. -/
theorem nextTicks_stream {o o' : Oracle} {n : Nat} (h : o.nextTicks = (n, o')) :
    o'.writes = o.writes ∧ o'.flushes = o.flushes ∧ o'.reads = o.reads := by
  unfold Oracle.nextTicks at h
  split at h <;> cases h <;> exact ⟨rfl, rfl, rfl⟩

section
variable {s₀ s : State} {i n : Nat} {ws fs : List Answer} {r : ReadAnswer} {rs : List ReadAnswer} {o : Oracle}

/-- The write, the flush and the read of an iteration. -/
theorem Unanswered.run_answered (h : Unanswered s₀ i .mWrite (.done :: ws) (.done :: fs) (r :: rs) s)
    (ha : ReadAnswer.Admissible r) :
    Sys2Proof.core.run 3 s = .next (mClassify r (magicAnswered r ws fs rs s)) := by
  have events : s.history ++ [{ who := .core, deed := .write cfg.magicSeq .done },
        { who := .core, deed := .flush .done }, { who := .core, deed := .read r }] =
      s.history ++ [{ who := .core, deed := .write cfg.magicSeq .done }] ++
        [{ who := .core, deed := .flush .done }] ++ [{ who := .core, deed := .read r }] := by
    simp
  rw [run_phase 2 h.inputs, runPhase_mWrite h.ph, mWrite_of_done h.writes,
    run_phase 1 (by exact h.inputs), runPhase_mFlush rfl, mFlush_of_done (by exact h.flushes),
    run_phase 0 (by exact h.inputs), runPhase_mRead rfl, mRead_of_cons (by exact h.reads) ha, magicAnswered, events]
  rfl

/-- A read that times out takes the timeout, and the deadline is tested next (R203, R207). -/
theorem Unanswered.run_timeout (h : Unanswered s₀ i .mWrite (.done :: ws) (.done :: fs) (.timeout :: rs) s) :
    ∃ t : State, Sys2Proof.core.run 3 s = .next t ∧ Unanswered s₀ (i + 1) .mCheck ws fs rs t ∧
      t.clock = s.clock + s₀.rto.toNat ∧ t.oracle.ticks = s.oracle.ticks := by
  refine ⟨_, h.run_answered nofun,
    ⟨rfl, h.inputs, h.rto, h.bnd, h.maxw, h.t0, h.responses, ?_, rfl, rfl, rfl⟩, by rw [← h.rto]; rfl, rfl⟩
  simp [mClassify, magicAnswered, addEvent, h.history, List.replicate_succ', timedOutEvents]

/-- An ACK ends the loop, and the deadline is not consulted (R202). -/
theorem Unanswered.run_ack (h : Unanswered s₀ i .mWrite (.done :: ws) (.done :: fs) (.bytes [0x06] :: rs) s) :
    ∃ t : State, Sys2Proof.core.run 3 s = .next t ∧ t.rxb = 0x06 ∧ t.rxn = 1 ∧
      LoopEnded s₀ .ok ((List.replicate i timedOutEvents).flatten ++ attemptEvents cfg.magicSeq 0x06) t := by
  refine ⟨_, h.run_answered (admissible_single 0x06), rfl, rfl, rfl, rfl, ?_, h.rto, ?_⟩
  · exact congrArg (· ++ _) h.responses
  · rw [← List.append_assoc, ← h.history]
    rfl

/-! ### The deadline test -/

theorem Unanswered.step_check (h : Unanswered s₀ i .mCheck ws fs rs s) : step s = .next (mCheck s) := by
  rw [step_of_no_input h.inputs, runPhase_mCheck h.ph]

/-- Without a deadline the next iteration begins. -/
theorem Unanswered.step_unbounded (h : Unanswered s₀ i .mCheck ws fs rs s) (hb : s.bnd = false) :
    step s = .next { s with ph := .mWrite } ∧ Unanswered s₀ i .mWrite ws fs rs { s with ph := .mWrite } :=
  ⟨h.step_check.trans (congrArg Host.Outcome.next (mCheck_of_unbounded hb)),
    rfl, h.inputs, h.rto, h.bnd, h.maxw, h.t0, h.responses, h.history, h.writes, h.flushes, h.reads⟩

/-- So it does if the clock reading does not meet the deadline. -/
theorem Unanswered.step_not_met (h : Unanswered s₀ i .mCheck ws fs rs s) (hb : s.bnd = true)
    (hn : s.oracle.nextTicks = (n, o)) (hlt : s.clock + n - s.t0 < s.maxw.toNat) :
    ∃ t, step s = .next t ∧ Unanswered s₀ i .mWrite ws fs rs t ∧ t.clock = s.clock + n ∧ t.oracle = o := by
  obtain ⟨writes, flushes, reads⟩ := nextTicks_stream hn
  exact ⟨_, h.step_check.trans (congrArg Host.Outcome.next (mCheck_of_not_met hb hn hlt)),
    ⟨rfl, h.inputs, h.rto, h.bnd, h.maxw, h.t0, h.responses, h.history, writes.trans h.writes,
      flushes.trans h.flushes, reads.trans h.reads⟩, rfl, rfl⟩

/-- A deadline that is met ends the loop. -/
theorem Unanswered.step_met (h : Unanswered s₀ i .mCheck ws fs rs s) (hb : s.bnd = true)
    (hn : s.oracle.nextTicks = (n, o)) (hle : s.maxw.toNat ≤ s.clock + n - s.t0) :
    ∃ t, step s = .next t ∧ LoopEnded s₀ .timeout (List.replicate i timedOutEvents).flatten t :=
  ⟨_, h.step_check.trans (congrArg Host.Outcome.next (mCheck_of_met hb hn hle)),
    rfl, rfl, congrArg (· ++ _) h.responses, h.rto, h.history⟩

/-! ### A deadline far enough away, or none -/

/-- Without a deadline, or with one that the next `n` deadline tests do not meet if every read before them times
out. -/
def NotDue (n : Nat) (s : State) : Prop :=
  s.bnd = false ∨ s.bnd = true ∧ ∃ ds ts, s.oracle.ticks = ds ++ ts ∧ ds.length = n ∧
    s.clock + (n * s.rto.toNat + ds.sum) - s.t0 < s.maxw.toNat

/-- An iteration that times out before the deadline. -/
theorem Unanswered.run_again (h : Unanswered s₀ i .mWrite (.done :: ws) (.done :: fs) (.timeout :: rs) s)
    (hd : NotDue (n + 1) s) :
    ∃ t : State, Sys2Proof.core.run 4 s = .next t ∧ Unanswered s₀ (i + 1) .mWrite ws fs rs t ∧ NotDue n t := by
  obtain ⟨u, read, hu, clock, ticks⟩ := h.run_timeout
  have bnd : u.bnd = s.bnd := hu.bnd.trans h.bnd.symm
  rcases hd with hb | ⟨hb, ds, ts, hds, hlen, hlt⟩
  · obtain ⟨check, ht⟩ := hu.step_unbounded (bnd.trans hb)
    exact ⟨_, (run_add 3 1 read).trans (run_succ 0 check), ht, .inl (bnd.trans hb)⟩
  · obtain ⟨d, ds, rfl⟩ := List.exists_cons_of_length_eq_add_one hlen
    rw [List.length_cons, Nat.add_right_cancel_iff] at hlen
    rw [List.sum_cons, Nat.succ_mul, h.rto, h.t0, h.maxw] at hlt
    obtain ⟨t, check, ht, clock', oracle⟩ := hu.step_not_met (bnd.trans hb) (nextTicks_of_cons (ticks.trans hds))
      (by rw [hu.t0, hu.maxw, clock]; omega)
    refine ⟨t, (run_add 3 1 read).trans (run_succ 0 check), ht,
      .inr ⟨ht.bnd.trans (h.bnd.symm.trans hb), ds, ts, ?_, hlen, ?_⟩⟩
    · rw [oracle]
      rfl
    · rw [ht.rto, ht.t0, ht.maxw, clock', clock]; omega

/-- `n` iterations that time out before the deadline. -/
theorem Unanswered.run_all_again (h : Unanswered s₀ i .mWrite (List.replicate n Answer.done ++ ws)
      (List.replicate n Answer.done ++ fs) (List.replicate n ReadAnswer.timeout ++ rs) s) (hd : NotDue n s) :
    ∃ t : State, Sys2Proof.core.run (4 * n) s = .next t ∧ Unanswered s₀ (i + n) .mWrite ws fs rs t := by
  induction n generalizing i s with
  | zero => exact ⟨s, run_zero s, h⟩
  | succ n ih =>
    obtain ⟨u, again, hu, hdu⟩ := h.run_again hd
    obtain ⟨t, others, ht⟩ := ih hu hdu
    exact ⟨t, by rw [Nat.mul_succ, Nat.add_comm, run_add 4 (4 * n) again, others],
      by rwa [Nat.add_right_comm, Nat.add_assoc] at ht⟩

end

/-- MAGIC accepted, its timeout set, and the clock read `d` later: the loop begins. -/
def magicBegun (ivl : Ticks) (maxWait : Option Ticks) (d : Nat) (o : Oracle) (s : State) : State :=
  { magicAccepted ivl maxWait s with
    inputs := [], rto := ivl, clock := s.clock + d, t0 := s.clock + d, ph := .mWrite,
    history := s.history ++ [{ who := .core, deed := .setTimeout ivl .done }], oracle := o }

/-- The two steps from `IDLE` into the loop. -/
theorem run_magic_begun {s : State} {ivl : Ticks} {maxWait : Option Ticks} {d : Nat} {o : Oracle} {ss : List Answer}
    (hp : s.ph = .idle) (hs : s.oracle.sets = .done :: ss)
    (hd : Oracle.nextTicks { s.oracle with sets := ss } = (d, o)) :
    Sys2Proof.core.run 2 { s with inputs := issue (.magic ivl maxWait) } =
      .next (magicBegun ivl maxWait d o s) := by
  have accepted : step { s with inputs := issue (.magic ivl maxWait) } =
      .next (magicAccepted ivl maxWait { s with inputs := [] }) :=
    (step_of_issued (rest := []) rfl (by exact hp) (by rfl)).trans
      (exec_magic_of_idle (s := { s with inputs := [] }) hp ivl maxWait)
  rw [run_succ 1 accepted, run_phase 0 rfl, runPhase_mSetup rfl, mSetup_of_done (by exact hs) (by exact hd)]
  rfl

/-- Settles O31: with the deadline none or far enough away, `n` iterations time out and the next one is answered. -/
theorem magicSucceedsAfterTimeouts : Obligations.MagicSucceedsAfterTimeouts := by
  intro s ivl mw n ws fs ss rest hp hmw hs hw hf hr
  rw [List.replicate_succ', List.append_assoc] at hw hf
  obtain ⟨d, o, hd⟩ : ∃ d o, Oracle.nextTicks { s.oracle with sets := ss } = (d, o) := ⟨_, _, rfl⟩
  obtain ⟨writes, flushes, reads⟩ := nextTicks_stream hd
  have begun : Unanswered (magicBegun ivl mw d o s) 0 .mWrite _ _ _ (magicBegun ivl mw d o s) :=
    ⟨rfl, rfl, rfl, rfl, rfl, rfl, rfl, (List.append_nil _).symm, writes.trans hw, flushes.trans hf, reads.trans hr⟩
  have notDue : NotDue n (magicBegun ivl mw d o s) := by
    rcases hmw with rfl | ⟨w, d', ds, ts, rfl, ht, hlen, hlt⟩
    · exact .inl rfl
    · rw [nextTicks_of_cons (by exact ht)] at hd
      cases hd
      refine .inr ⟨rfl, ds, ts, rfl, hlen, ?_⟩
      rw [magicBegun, Nat.add_sub_cancel_left]
      exact hlt
  obtain ⟨u, timeouts, hu⟩ := begun.run_all_again notDue
  rw [Nat.zero_add] at hu
  obtain ⟨t, ack, rxb, rxn, ended⟩ := hu.run_ack
  have count : 4 * n + 5 = 2 + (4 * n + 3) := by omega
  exact ⟨t, by rw [count, run_add 2 _ (run_magic_begun hp hs hd), run_add _ 3 timeouts, ack], ended.ph, ended.status,
    ended.responses, ended.rto, rxb, rxn, ended.history.trans (List.append_assoc _ _ _).symm⟩

section
variable {s₀ s : State} {i d : Nat} {ws fs : List Answer} {rs : List ReadAnswer}

/-- An iteration under a deadline: it ends the loop, or the clock has gone on by the timeout at least. -/
theorem Unanswered.run_bounded (h : Unanswered s₀ i .mWrite (.done :: ws) (.done :: fs) (.timeout :: rs) s)
    (hb : s₀.bnd = true) :
    ∃ (c : Nat) (t : State), s.clock + s₀.rto.toNat ≤ c ∧ Sys2Proof.core.run 4 s = .next t ∧
      (LoopEnded s₀ .timeout (List.replicate (i + 1) timedOutEvents).flatten t ∨
        c - s₀.t0 < s₀.maxw.toNat ∧ Unanswered s₀ (i + 1) .mWrite ws fs rs t ∧ t.clock = c) := by
  obtain ⟨u, read, hu, clock, -⟩ := h.run_timeout
  obtain ⟨n, o, hn⟩ : ∃ n o, u.oracle.nextTicks = (n, o) := ⟨_, _, rfl⟩
  refine ⟨u.clock + n, ?_⟩
  by_cases hm : u.maxw.toNat ≤ u.clock + n - u.t0
  · obtain ⟨t, check, ended⟩ := hu.step_met (hu.bnd.trans hb) hn hm
    exact ⟨t, by omega, (run_add 3 1 read).trans (run_succ 0 check), .inl ended⟩
  · have hlt : u.clock + n - u.t0 < u.maxw.toNat := Nat.lt_of_not_le hm
    obtain ⟨t, check, ht, clock', -⟩ := hu.step_not_met (hu.bnd.trans hb) hn hlt
    rw [hu.t0, hu.maxw] at hlt
    exact ⟨t, by omega, (run_add 3 1 read).trans (run_succ 0 check), .inr ⟨hlt, ht, clock'⟩⟩

/-- If `d + 1` timeouts meet the deadline, the loop ends within as many iterations. -/
theorem Unanswered.run_to_deadline (h : Unanswered s₀ i .mWrite (List.replicate (d + 1) Answer.done ++ ws)
      (List.replicate (d + 1) Answer.done ++ fs) (List.replicate (d + 1) ReadAnswer.timeout ++ rs) s)
    (hb : s₀.bnd = true) (hm : s₀.maxw.toNat ≤ s.clock + (d + 1) * s₀.rto.toNat - s₀.t0) :
    ∃ (j : Nat) (t : State), 1 ≤ j ∧ j ≤ d + 1 ∧ Sys2Proof.core.run (4 * j) s = .next t ∧
      LoopEnded s₀ .timeout (List.replicate (i + j) timedOutEvents).flatten t := by
  induction d generalizing i s with
  | zero =>
    obtain ⟨c, t, hc, run, ended | ⟨hlt, -, -⟩⟩ := h.run_bounded hb
    · exact ⟨1, t, le_rfl, le_rfl, run, ended⟩
    · omega
  | succ d ih =>
    obtain ⟨c, u, hc, run, ended | ⟨hlt, hu, rfl⟩⟩ := h.run_bounded hb
    · exact ⟨1, u, le_rfl, by omega, run, ended⟩
    · rw [Nat.succ_mul] at hm
      obtain ⟨j, t, -, hj, others, ended⟩ := ih hu (by omega)
      exact ⟨j + 1, t, by omega, by omega, by rw [Nat.mul_succ, Nat.add_comm, run_add 4 (4 * j) run, others],
        by rwa [Nat.add_right_comm, Nat.add_assoc] at ended⟩

end

/-- Settles O32: `max 1 (ceil (MAXW / IVL))` timeouts of the interval meet the deadline. -/
theorem boundedMagicTimesOut : Obligations.BoundedMagicTimesOut := by
  intro s n ws fs rest hp hin hb hv hrto ht0 hn hw hf hr
  obtain ⟨d, rfl⟩ : ∃ d, n = d + 1 := ⟨n - 1, by omega⟩
  have start : Unanswered s 0 .mWrite _ _ _ s :=
    ⟨hp, hin, rfl, rfl, rfl, rfl, rfl, (List.append_nil _).symm, hw, hf, hr⟩
  have reached : s.maxw.toNat ≤ (d + 1) * s.rto.toNat := by
    have ceil : s.maxw.toNat ≤ s.ivl.toNat • (s.maxw.toNat ⌈/⌉ s.ivl.toNat) := le_smul_ceilDiv hv
    rw [Nat.ceilDiv_eq_add_pred_div, smul_eq_mul, Nat.mul_comm] at ceil
    rw [hrto, hn]
    exact ceil.trans (Nat.mul_le_mul_right _ (le_max_right _ _))
  obtain ⟨j, t, h1, hj, run, ended⟩ := start.run_to_deadline hb (by omega)
  rw [Nat.zero_add] at ended
  exact ⟨j, t, h1, hj, run, ended.ph, ended.status, ended.responses, ended.history⟩

end Sys2Proof.Machine
end

section
/-! PROOF. Buffer and register access (`45_buffer_access.md`): the request of each operation, the nine registers, and
each operation at `IDLE`. -/

namespace Sys2Proof.Machine

/-! ### The requests -/

/-- DPUSH's code selects DPUSH of the field `a` (R92). -/
theorem decode_dpush {r : Request} (h : r.op = 0x11) : decode (.request r) = .ok (.dpush r.a) := by
  simp [decode, decodeRequest, h]

/-- OCPY's code selects OCPY (R92). -/
theorem decode_ocpy {r : Request} (h : r.op = 0x12) : decode (.request r) = .ok .ocpy := by
  simp [decode, decodeRequest, h]

/-- ORD's code selects ORD of the index `{b[0], a[7:0]}` (R92). -/
theorem decode_ord {r : Request} (h : r.op = 0x13) : decode (.request r) = .ok (.ord r.index9) := by
  simp [decode, decodeRequest, h]

/-- RDREG's code selects RDREG of the field `a` (R92). -/
theorem decode_rdreg {r : Request} (h : r.op = 0x14) : decode (.request r) = .ok (.rdreg r.a) := by
  simp [decode, decodeRequest, h]

/-- ORD's index as a number: bit 0 of `b` counts 256 (R93). -/
theorem toNat_index9 (r : Request) : r.index9.toNat = r.a.toNat + 256 * (r.b.toNat % 2) := by
  rw [Request.index9, BitVec.toNat_append, ← Nat.shiftLeft_add_eq_or_of_lt r.a.isLt, Nat.shiftLeft_eq,
    BitVec.extractLsb'_toNat, Nat.shiftRight_zero]
  omega

/-! ### The registers -/

/-- `DLEN`, 8 bits wide, loses nothing of a length within capacity (R31). -/
theorem zeroExtend_dlen {s : State} (h : Memory.wf s) : s.dlen.zeroExtend 16 = BitVec.ofNat 16 s.din.length :=
  BitVec.setWidth_ofNat_of_le_of_lt (by decide) (Nat.lt_succ_of_le h.1)

/-- Nor does `OLEN`, 9 bits wide (R32). -/
theorem zeroExtend_olen {s : State} (h : Memory.wf s) : s.olen.zeroExtend 16 = BitVec.ofNat 16 s.out.length :=
  BitVec.setWidth_ofNat_of_le_of_lt (by decide) (h.2.trans_lt (by decide))

/-- No register has a number above 8 (R22). -/
theorem regRead_of_gt {r : Byte} (h : 8 < r.toNat) (s : State) : regRead r s = none := by
  unfold regRead
  split
  case h_10 => rfl
  all_goals omega

/-! ### The operations at `IDLE` -/

/-- At `IDLE` a refusal is the response `(OperandError, 0)` and no more (R269). -/
theorem refuse_of_idle {s : State} (h : s.ph = .idle) : refuse s = answered .operandError 0 s :=
  respond_of_idle .operandError 0 s h

/-- DCLR at `IDLE` (R221). -/
theorem exec_dclr_of_idle {s : State} (hp : s.ph = .idle) :
    exec .dclr s = .next (answered .ok 0 { s with din := [] }) := by
  rw [exec, execDclr_of_idle hp]
  exact congrArg Host.Outcome.next (completeOk_of_idle (s := clearDin s) 0 hp)

/-- DPUSH at `IDLE` while `DIN` has room (R222). -/
theorem exec_dpush_of_lt {s : State} (hp : s.ph = .idle) (hl : s.din.length < cfg.dinCap) (b : Byte) :
    exec (.dpush b) s = .next (answered .ok 0 { s with din := s.din ++ [b] }) := by
  rw [exec, execDpush, whenIdle_of_idle hp, checked, if_pos (decide_eq_true hl)]
  exact congrArg Host.Outcome.next (completeOk_of_idle (s := appendDin b s) 0 hp)

/-- DPUSH at `IDLE` when `DIN` is full (R222). -/
theorem exec_dpush_of_full {s : State} (hp : s.ph = .idle) (hl : cfg.dinCap ≤ s.din.length) (b : Byte) :
    exec (.dpush b) s = .next (answered .operandError 0 s) := by
  rw [exec, execDpush, whenIdle_of_idle hp, checked,
    if_neg (ne_true_of_eq_false (decide_eq_false (Nat.not_lt.mpr hl))), refuse_of_idle hp]

/-- OCPY at `IDLE` (R223). -/
theorem exec_ocpy_of_idle {s : State} (hp : s.ph = .idle) :
    exec .ocpy s = .next (answered .ok 0 { s with out := s.din }) := by
  rw [exec, execOcpy, whenIdle_of_idle hp]
  exact congrArg Host.Outcome.next (completeOk_of_idle (s := writeOut s.din s) 0 hp)

/-- ORD at `IDLE` of an index that reaches a byte (R224). -/
theorem exec_ord_of_some {s : State} {i : BitVec 9} {b : Byte} (hp : s.ph = .idle)
    (hb : readByte .out i.toNat s = some b) : exec (.ord i) s = .next (answered .ok (b.setWidth 16) s) := by
  rw [exec, execOrd, whenIdle_of_idle hp, hb]
  exact congrArg Host.Outcome.next (completeOk_of_idle _ hp)

/-- ORD at `IDLE` of an index that reaches none (R224). -/
theorem exec_ord_of_none {s : State} {i : BitVec 9} (hp : s.ph = .idle) (hb : readByte .out i.toNat s = none) :
    exec (.ord i) s = .next (answered .operandError 0 s) := by
  rw [exec, execOrd, whenIdle_of_idle hp, hb, refuse_of_idle hp]

/-- RDREG at `IDLE` of a register there is (R228). -/
theorem exec_rdreg_of_some {s : State} {r : Byte} {v : Half} (hp : s.ph = .idle) (hv : regRead r s = some v) :
    exec (.rdreg r) s = .next (answered .ok v s) := by
  rw [exec, execRdreg, whenIdle_of_idle hp, hv]
  exact congrArg Host.Outcome.next (completeOk_of_idle v hp)

/-- RDREG at `IDLE` of a register there is not (R228). -/
theorem exec_rdreg_of_none {s : State} {r : Byte} (hp : s.ph = .idle) (hv : regRead r s = none) :
    exec (.rdreg r) s = .next (answered .operandError 0 s) := by
  rw [exec, execRdreg, whenIdle_of_idle hp, hv, refuse_of_idle hp]

/-! ### The statements -/

/-- Settles O11: the listed values are what the nine registers read, the lengths because they fit their registers, and
there is no tenth register. -/
theorem rdregReadsNineRegisters : Obligations.RdregReadsNineRegisters := by
  refine ⟨fun _ => decode_rdreg, fun s hp hwf => ⟨fun r v h => ?_, fun r h => ?_⟩⟩
  · refine exec_rdreg_of_some hp ?_
    rw [← zeroExtend_dlen hwf, ← zeroExtend_olen hwf] at h
    simp only [List.mem_cons, List.not_mem_nil, or_false, Prod.mk.injEq] at h
    rcases h with ⟨rfl, rfl⟩ | ⟨rfl, rfl⟩ | ⟨rfl, rfl⟩ | ⟨rfl, rfl⟩ | ⟨rfl, rfl⟩ | ⟨rfl, rfl⟩ | ⟨rfl, rfl⟩ |
      ⟨rfl, rfl⟩ | ⟨rfl, rfl⟩ <;> rfl
  · exact exec_rdreg_of_none hp (regRead_of_gt h s)

/-- Settles O7: at `IDLE` DCLR completes with 0 after emptying `DIN`. -/
theorem dclrEmptiesDin : Obligations.DclrEmptiesDin :=
  ⟨fun _ => decode_dclr, fun _ => exec_dclr_of_idle⟩

/-- Settles O8: `DIN` has room for the byte, or it is full. -/
theorem dpushAppendsOrRefusesWhenFull : Obligations.DpushAppendsOrRefusesWhenFull :=
  ⟨fun _ => decode_dpush, fun _ b hp => ⟨fun hl => exec_dpush_of_lt hp hl b, fun hl => exec_dpush_of_full hp hl b⟩⟩

/-- Settles O9: at `IDLE` OCPY completes with 0 after writing `DIN` to `OUT`. -/
theorem ocpyCopiesDinToOut : Obligations.OcpyCopiesDinToOut :=
  ⟨fun _ => decode_ocpy, fun _ => exec_ocpy_of_idle⟩

/-- Settles O10: the index reaches a byte of `OUT`, or it is at or past `OLEN` and reaches none. -/
theorem ordReadsOutOrRefuses : Obligations.OrdReadsOutOrRefuses :=
  ⟨fun r h => ⟨r.index9, decode_ord h, toNat_index9 r⟩,
    fun _ _ hp => ⟨fun _ hb => exec_ord_of_some hp hb, fun hl => exec_ord_of_none hp (readByte_of_le hl)⟩⟩

end Sys2Proof.Machine
end

section
/-! PROOF. The host's init byte and its ACK (R107, R244), and what the host does after the first failure (R240). -/

namespace Sys2Proof.Machine

/-! ### The init byte -/

/-- INITBYTE with every part of the exchange answered: 0x01 is written and flushed, and the answer `r` read. -/
def initExchanged (r : ReadAnswer) (ws fs : List Answer) (rest : List ReadAnswer) (s : State) : State :=
  { s with
    tx := s.tx ++ [0x01], handed := s.tx.length + 1, clock := s.clock + readTime r s,
    history := s.history ++
      [{ who := .host, deed := .write [0x01] .done }, { who := .host, deed := .flush .done },
        { who := .host, deed := .read r }],
    oracle := { s.oracle with writes := ws, flushes := fs, reads := rest },
    host := { s.host with lastRead := some r, lastAnswer := some .done } }

/-- The host's read with an admissible answer scripted: the answer is kept. -/
theorem hostReceive_of_cons {s : State} {r : ReadAnswer} {rest : List ReadAnswer} (hr : s.oracle.reads = r :: rest)
    (ha : ReadAnswer.Admissible r) :
    hostReceive s = { s with
      clock := s.clock + readTime r s, history := s.history ++ [{ who := .host, deed := .read r }],
      oracle := { s.oracle with reads := rest }, host := { s.host with lastRead := some r } } := by
  rw [hostReceive, streamRead_of_cons hr ha]
  rfl

/-- At `IDLE` the host reads once its byte is written and flushed (R244). -/
theorem exec_initbyte_of_transmitted {s : State} (hp : s.ph = .idle)
    (h : (hostTransmit [cfg.initByte] (forgetRead s)).host.lastAnswer = some .done) :
    exec .initbyte s = .next (hostReceive (hostTransmit [cfg.initByte] (forgetRead s))) := by
  rw [exec, execInitbyte, whenIdle_of_idle hp]
  exact congrArg Host.Outcome.next (if_pos h)

/-- The exchange at `IDLE`, with the write, the flush and an admissible read answered (R244). -/
theorem exec_initbyte_of_done {s : State} {ws fs : List Answer} {r : ReadAnswer} {rest : List ReadAnswer}
    (hp : s.ph = .idle) (hw : s.oracle.writes = .done :: ws) (hf : s.oracle.flushes = .done :: fs)
    (hr : s.oracle.reads = r :: rest) (ha : ReadAnswer.Admissible r) :
    exec .initbyte s = .next (initExchanged r ws fs rest s) := by
  have sent := hostTransmit_of_done (l := [cfg.initByte]) (s := forgetRead s) (by simp) hw hf
  rw [exec_initbyte_of_transmitted hp (by rw [sent]; rfl), sent, hostReceive_of_cons (by exact hr) ha]
  simp [initExchanged, forgetRead, noteAnswer, readTime]

/-- A host that has stopped has no action of its own left (R240). -/
theorem haltSession_inputs_all (s : State) : (haltSession s).inputs.all (fun i => !i.fromHost) = true := by
  simp [haltSession]

/-- Settles O38: the exchange is answered throughout, and the ACK test is on the answer it keeps. -/
theorem initbyteExchange : Obligations.InitbyteExchange := by
  intro s ws fs r rest hp hw hf hr ha
  refine ⟨initExchanged r ws fs rest s, rfl, exec_initbyte_of_done hp hw hf hr ha, ?_, fun h => ?_⟩
  · rintro rfl
    exact if_pos rfl
  · have stopped : expectAck (initExchanged r ws fs rest s) = haltSession (initExchanged r ws fs rest s) :=
      if_neg fun he => h (Option.some.inj he)
    rw [stopped]
    exact haltSession_inputs_all _

/-! ### The first failure -/

/-- The check of the awaited response at `IDLE`. -/
theorem step_of_expectOk {s : State} {rest : List Input} (hp : s.ph = .idle)
    (hin : s.inputs = .host .expectOk :: rest) : step s = .next (expectOk { s with inputs := rest }) :=
  step_of_host hin hp

/-- `OK` goes on (R240). -/
theorem expectOk_of_ok {s : State} {v : Half} (h : s.reply = some { status := .ok, val := v }) : expectOk s = s := by
  simp [expectOk, h]

/-- Any other status stops the host, which goes on only to report it (R240). -/
theorem expectOk_of_failure {s : State} {k : Status} {v : Half} (h : s.reply = some { status := k, val := v })
    (hk : k ≠ .ok) :
    expectOk s = { haltSession s with inputs := failureReport k ++ (haltSession s).inputs } := by
  simp [expectOk, h, hk]

/-- No response stops it too. -/
theorem expectOk_of_none {s : State} (h : s.reply = none) : expectOk s = haltSession s := by
  simp [expectOk, h]

/-- A byte answered as a value is the value's low byte. -/
theorem extractLsb'_setWidth_byte (b : Byte) : (b.setWidth 16).extractLsb' 0 8 = b := by
  rw [BitVec.extractLsb'_setWidth_of_le (by decide), BitVec.extractLsb'_eq_self]

/-- The byte the host takes from an `OK` response to RDREG (R228). -/
theorem replyByte_of_byte {s : State} {b : Byte} (h : s.reply = some { status := .ok, val := b.setWidth 16 }) :
    replyByte s = some b := by
  rw [replyByte, h]
  exact congrArg some (extractLsb'_setWidth_byte b)

/-- The report of a failure at `IDLE`. -/
theorem step_of_reportIndex {s : State} {k : Status} {rest : List Input} (hp : s.ph = .idle)
    (hin : s.inputs = .host (.reportIndex k) :: rest) :
    step s = .next (hostReport k (replyByte s) { s with inputs := rest }) :=
  step_of_host hin hp

/-- The two steps of the report: RDREG of r8, and the report of its value, which is `EIDX` (R22, R240). -/
theorem run_failureReport {s : State} {k : Status} {rest : List Input} (hp : s.ph = .idle)
    (hin : s.inputs = failureReport k ++ rest) :
    Sys2Proof.core.run 2 s =
      .next (hostReport k (some s.eidx) (answered .ok (s.eidx.setWidth 16) { s with inputs := rest })) := by
  have read : step s = .next (answered .ok (s.eidx.setWidth 16) { s with inputs := .host (.reportIndex k) :: rest }) :=
    (stepRunsTheDecodedInstruction s (.request (rdregRequest 8)) (.rdreg 8) _ (decode_rdreg rfl) hin fun _ => hp).trans
      (exec_rdreg_of_some (by exact hp) rfl)
  rw [run_succ 1 read, run_succ 0 (step_of_reportIndex (by exact hp) rfl), replyByte_of_byte rfl]
  rfl

/-- Settles O59: the check goes on, or stops the host, with two steps more for the report of a status. -/
theorem firstFailureEndsTheSession : Obligations.FirstFailureEndsTheSession := by
  intro s rest hp hin
  rw [step_of_expectOk hp hin]
  refine ⟨fun v h => ?_, fun k v h hk => ?_, fun h => ?_⟩
  · rw [expectOk_of_ok (by exact h)]
  · have stopped := step_of_expectOk hp hin
    rw [expectOk_of_failure (by exact h) hk] at stopped
    exact ⟨_, (run_succ 2 stopped).trans (run_failureReport (by exact hp) rfl),
      rfl, rfl, rfl, rfl, rfl, rfl, rfl, rfl⟩
  · rw [expectOk_of_none (by exact h)]
    rfl

end Sys2Proof.Machine
end

section
/-! PROOF. The scan (R246 to R250): which addresses are probed, how the result grows, and that no step changes a result
returned. -/

namespace Sys2Proof.Machine

/-! ### The probes -/

/-- The scan goes over the numbers 0 to 253 (R247, R249). -/
theorem scanAddresses_eq : scanAddresses = (List.range 254).map (BitVec.ofNat 8) := by
  simp [scanAddresses]

/-- As numbers they are themselves: each fits a byte. -/
theorem scanAddresses_toNat : scanAddresses.map BitVec.toNat = List.range 254 := by
  rw [scanAddresses_eq, List.map_map]
  refine (List.map_congr_left fun n hn => ?_).trans (List.map_id _)
  have : n < 254 := List.mem_range.mp hn
  simp only [Function.comp_apply, BitVec.toNat_ofNat, id_eq]
  omega

/-- The broadcast address 254 is not scanned (R249). -/
theorem broadcast_not_mem_scanAddresses : (0xFE : Byte) ∉ scanAddresses := by
  intro h
  have : (0xFE : Byte).toNat ∈ List.range 254 := scanAddresses_toNat ▸ List.mem_map_of_mem h
  exact absurd this (by simp)

/-- The second request of a pseudo-operation that the host issues: its op code, address and instruction. -/
def pseudoRequest : Input → Option (Byte × Byte × Byte)
  | .host (.pair _ r) => some (r.op, r.a, r.b)
  | _ => none

/-- A probe issues one, PENC of the address with instruction 0x01 (R247). -/
theorem probe_pseudoRequests (addr : Byte) : (probe addr).filterMap pseudoRequest = [(0x30, addr, 0x01)] := rfl

/-- The scan issues them in order, and no others. -/
theorem scanProgram_pseudoRequests (short long : Ticks) :
    (scanProgram short long).filterMap pseudoRequest =
      (List.range 254).map fun n => (0x30, BitVec.ofNat 8 n, 0x01) := by
  have around (t : Ticks) : (setTimeout t).filterMap pseudoRequest = [] := rfl
  have ends (a : HostOp) (h : pseudoRequest (.host a) = none) : [Input.host a].filterMap pseudoRequest = [] := by
    rw [List.filterMap_cons_none h, List.filterMap_nil]
  simp only [scanProgram, List.filterMap_append, around, ends .beginScan rfl, ends .endScan rfl,
    List.filterMap_flatMap, probe_pseudoRequests, List.nil_append, List.append_nil, scanAddresses_eq, List.flatMap_map]
  exact List.flatMap_pure_eq_map ..

/-! ### The result -/

/-- A reply of at least one byte adds the address to the scan under way (R247). -/
theorem noteReply_of_byte {s : State} {found l : List Byte} {b : Byte} (addr : Byte) (hf : s.host.scanning = some found)
    (hl : s.host.lastRead = some (.bytes (b :: l))) :
    noteReply addr s = { s with host := { s.host with scanning := some (found ++ [addr]) } } := by
  simp [noteReply, hf, hl]

/-- Without a scan, or without a byte read, nothing is added. -/
theorem noteReply_of_no_byte {s : State} (addr : Byte)
    (h : s.host.scanning = none ∨ ∀ b l, s.host.lastRead ≠ some (.bytes (b :: l))) : noteReply addr s = s := by
  unfold noteReply
  split
  case h_1 hs hr =>
    rcases h with h | h
    · simp [h] at hs
    · exact absurd hr (h _ _)
  all_goals rfl

/-- The end of a scan returns its result (R246, R250). -/
theorem endScan_of_scanning {s : State} {found : List Byte} (h : s.host.scanning = some found) :
    endScan s = { s with
      host := { s.host with scanning := none, discoveries := s.host.discoveries ++ [found] } } := by
  simp [endScan, h]

/-! ### A result returned does not change -/

section
variable {s t : State}

/-- Answering at once leaves the host. -/
theorem Answers.host_eq {c : Prop} (h : Answers c s t) : t.host = s.host := by rw [h.frame]

/-- Neither phases nor arrivals nor waits touch the host. -/
theorem PhaseFrame.host_eq (h : PhaseFrame s t) : t.host = s.host := by
  obtain ⟨-, -, -, -, -, -, -, -, -, -, host⟩ := h
  exact host

theorem hostTransmit_discoveries (l : List Byte) (s : State) :
    (hostTransmit l s).host.discoveries = s.host.discoveries := by
  obtain ⟨x, n, o, es, a, h, -⟩ := hostTransmit_cases l s
  rw [h]
  rfl

/-- No instruction changes the results returned. -/
theorem Executed.discoveries_eq {i : Instr} (h : Executed i s t) : t.host.discoveries = s.host.discoveries := by
  cases h with
  | answered _ h => rw [h.host_eq]
  | send | magic => rfl
  | transmitted l => exact hostTransmit_discoveries l s
  | exchangeFailed l | exchanged l => exact hostTransmit_discoveries l (forgetRead s)
  | written => rw [(runPhase_frame s).host_eq]
  | arrived l => rw [(peerSends_frame l s).host_eq]

theorem runRequest_discoveries {r : Request} (h : runRequest r s = .next t) :
    t.host.discoveries = s.host.discoveries := by
  unfold runRequest at h
  split at h
  · exact (exec_executed h).discoveries_eq
  · cases h; rfl

theorem runPair_discoveries {r1 r2 : Request} (h : runPair r1 r2 s = .next t) :
    t.host.discoveries = s.host.discoveries := by
  unfold runPair at h
  split at h
  · exact (exec_executed h).discoveries_eq
  · exact runRequest_discoveries (s := { s with inputs := .host (.request r2) :: s.inputs }) h

theorem runTransmit_discoveries {l : List Byte} (h : runTransmit l s = .next t) :
    t.host.discoveries = s.host.discoveries := by
  unfold runTransmit at h
  split at h
  · exact (exec_executed h).discoveries_eq
  · cases h; exact hostTransmit_discoveries l s

/-- The checks touch what the session holds, never the results returned. -/
theorem expectOk_discoveries (s : State) : (expectOk s).host.discoveries = s.host.discoveries := by
  rcases expectOk_cases s with ⟨h, -⟩ | ⟨r, -, -, h⟩ | ⟨-, h⟩ <;> rw [h] <;> rfl

theorem expectDone_discoveries (s : State) : (expectDone s).host.discoveries = s.host.discoveries := by
  unfold expectDone; split <;> rfl

theorem expectAck_discoveries (s : State) : (expectAck s).host.discoveries = s.host.discoveries := by
  unfold expectAck; split <;> rfl

theorem noteReply_discoveries (addr : Byte) (s : State) :
    (noteReply addr s).host.discoveries = s.host.discoveries := by
  unfold noteReply; split <;> rfl

/-- Only the end of a scan adds a result, after those returned before (R250). -/
theorem endScan_discoveries (s : State) : s.host.discoveries <+: (endScan s).host.discoveries := by
  unfold endScan
  split
  · exact List.prefix_append ..
  · exact List.prefix_rfl

/-- No action of the host changes a result returned. -/
theorem runHost_discoveries {a : HostOp} (h : runHost a s = .next t) : s.host.discoveries <+: t.host.discoveries := by
  have same (h : t.host.discoveries = s.host.discoveries) : s.host.discoveries <+: t.host.discoveries :=
    h ▸ List.prefix_rfl
  cases a with
  | request r => exact same (runRequest_discoveries h)
  | pair r1 r2 => exact same (runPair_discoveries h)
  | transmit l => exact same (runTransmit_discoveries h)
  | transmitPacket => cases h; exact same (hostTransmit_discoveries _ s)
  | expectOk => cases h; exact same (expectOk_discoveries s)
  | expectDone => cases h; exact same (expectDone_discoveries s)
  | expectAck => cases h; exact same (expectAck_discoveries s)
  | noteReply addr => cases h; exact same (noteReply_discoveries addr s)
  | endScan => cases h; exact endScan_discoveries s
  | rebootFound k =>
    simp only [runHost, rebootFound] at h
    split at h
    · exact same (runPair_discoveries h)
    · cases h; exact same rfl
  | fencChunk =>
    simp only [runHost, fencChunk] at h
    split at h
    · exact same (runRequest_discoveries h)
    · cases h; exact same rfl
  | receive | setTimeout _ | clearPacket | collect | beginScan | openSession _ | chunkSent | report _ | reportIndex _ =>
    cases h; exact same rfl

/-- No step changes a result returned (R250). -/
theorem step_discoveries (h : step s = .next t) : s.host.discoveries <+: t.host.discoveries := by
  have same {u : State} (hu : PhaseFrame u t) (hs : u.host = s.host) : s.host.discoveries <+: t.host.discoveries := by
    rw [hu.host_eq, hs]
  cases hi : s.inputs with
  | nil => rw [step_of_no_input hi] at h; cases h; exact same (runPhase_frame s) rfl
  | cons i rest =>
    cases i with
    | quiet => rw [step_of_quiet hi] at h; cases h; exact same (runPhase_frame _) rfl
    | reset => rw [step_of_reset hi] at h; cases h; exact List.prefix_rfl
    | wait n => rw [step_of_wait hi] at h; cases h; exact same (waitPhase_frame n _) rfl
    | peer l => rw [step_of_peer hi, runArrival_eq] at h; cases h; exact same (peerSends_frame l _) rfl
    | group n => rw [step_of_group hi] at h; cases h; exact List.prefix_rfl
    | host a =>
      by_cases hp : s.ph = .idle
      · rw [step_of_host hi hp] at h
        exact runHost_discoveries (s := { s with inputs := rest }) h
      · rw [step_of_host_busy hi hp] at h; cases h; exact same (runPhase_frame s) rfl

end

/-- Settles O58: the probes are those of the addresses, each reaction of the host is its own case, and no step goes
back on a result. -/
theorem scanProbesEachAddressOnce : Obligations.ScanProbesEachAddressOnce := by
  refine ⟨scanAddresses_toNat, broadcast_not_mem_scanAddresses, scanProgram_pseudoRequests,
    fun s rest hp => ⟨fun hin => ?_, fun addr found b l hin hf hl => ?_, fun addr hin h => ?_,
      fun found hin h => ?_⟩, fun s t => step_discoveries⟩ <;> rw [step_of_host hin hp, runHost]
  · rfl
  · rw [noteReply_of_byte addr (by exact hf) (by exact hl)]
  · rw [noteReply_of_no_byte addr (by exact h)]
  · rw [endScan_of_scanning (by exact h)]

end Sys2Proof.Machine
end

section
/-! PROOF. The transfer's chunks (R236, R238), the inputs it is made of, and the Transfer Session. -/

namespace Sys2Proof.Machine

/-! ### The chunks -/

/-- The whole chunks hold the image, with room for less than one more (R236). -/
theorem totalChunks_bounds (image : List Byte) :
    image.length ≤ 64 * totalChunks image ∧ 64 * totalChunks image < image.length + 64 := by
  simp only [totalChunks, cfg_payloadLen]
  omega

/-- An image has a chunk. -/
theorem totalChunks_pos {image : List Byte} (h : image ≠ []) : 0 < totalChunks image := by
  have := List.length_pos_iff.mpr h
  have := totalChunks_bounds image
  omega

/-- A chunk is padded to 64 bytes (R238). -/
theorem chunk_length (image : List Byte) (j : Nat) : (chunk image j).length = 64 := by
  simp [chunk]

/-- The image with the padding of its last chunk. -/
def paddedImage (image : List Byte) : List Byte :=
  image ++ List.replicate (64 * totalChunks image - image.length) 0xFF

/-- A chunk is 64 bytes of the padded image (R238). -/
theorem chunk_eq_block (image : List Byte) {j : Nat} (h : j < totalChunks image) :
    chunk image j = ((paddedImage image).drop (64 * j)).take 64 := by
  obtain ⟨fits, close⟩ := totalChunks_bounds image
  have inside : 64 * j - image.length = 0 := by omega
  have padding : 64 - ((image.drop (64 * j)).take 64).length =
      min (64 - (image.drop (64 * j)).length) (64 * totalChunks image - image.length) := by
    simp only [List.length_take, List.length_drop]
    omega
  simp only [chunk, cfg_payloadLen, cfg_fillByte, paddedImage, List.drop_append, List.take_append, inside,
    List.drop_zero, List.take_replicate, padding]

/-- The first `n` blocks of `k` are the first `k * n` elements. -/
theorem flatMap_range_blocks {α : Type} (l : List α) (k n : Nat) :
    (List.range n).flatMap (fun j => (l.drop (k * j)).take k) = l.take (k * n) := by
  induction n with
  | zero => simp
  | succ n ih => simp [List.range_succ, ih, Nat.mul_succ, List.take_add]

/-- Together the chunks are the padded image (R238). -/
theorem flatMap_chunk (image : List Byte) :
    (List.range (totalChunks image)).flatMap (chunk image) = paddedImage image := by
  have whole : (paddedImage image).length = 64 * totalChunks image := by
    rw [paddedImage, List.length_append, List.length_replicate, Nat.add_sub_of_le (totalChunks_bounds image).1]
  calc (List.range (totalChunks image)).flatMap (chunk image)
      = (List.range (totalChunks image)).flatMap fun j => ((paddedImage image).drop (64 * j)).take 64 :=
        List.flatMap_congr fun j hj => chunk_eq_block image (List.mem_range.mp hj)
    _ = (paddedImage image).take (64 * totalChunks image) := flatMap_range_blocks ..
    _ = paddedImage image := List.take_of_length_le whole.le

/-! ### The transfer's inputs -/

/-- The pushes of some bytes. -/
def pushes (c : List Byte) : List Input := c.map fun b => .host (.request { op := 0x11, a := b })

/-- The load of a chunk (R109). -/
theorem dload_eq (c : List Byte) : dload c = .host (.request { op := 0x10 }) :: pushes c :=
  congrArg (Input.host (.request { op := 0x10 }) :: ·) (List.flatMap_pure_eq_map _ c)

/-- A chunk's inputs (R238, R240). -/
theorem sendChunk_eq (c : List Byte) :
    sendChunk c = .host (.request { op := 0x10 }) :: pushes c ++
      [.host .fencChunk, .host .expectOk, .host (.request { op := 0x40, a := 5 }), .host .expectOk,
        .host .chunkSent] := by
  simp [sendChunk, dload_eq, issue, encode, inputOf]

/-- The inputs of a transfer of at least one byte. -/
theorem transferProgram_of_ne_nil (rto : Ticks) {image : List Byte} (h : image ≠ []) :
    transferProgram rto image =
      [.host (.setTimeout rto), .host .expectDone, .host (.openSession (totalChunks image))] ++
        (List.range (totalChunks image)).flatMap (fun j => sendChunk (chunk image j)) ++ [.host (.report .ok)] := by
  rw [transferProgram, if_neg h]
  rfl

/-! ### The session -/

/-- The session opens at chunk 1 (R236). -/
theorem step_of_openSession {s : State} {n : Nat} {rest : List Input} (hp : s.ph = .idle)
    (hin : s.inputs = .host (.openSession n) :: rest) :
    step s = .next { s with
      inputs := rest, host := { s.host with session := some { total := n, nextIndex := 1, sent := 0 } } } :=
  step_of_host hin hp

/-- Its FENC has its index, reserved byte 0, and the last flag on the final chunk (R238). -/
theorem step_of_fencChunk {s : State} {c : Session} {rest : List Input} (hp : s.ph = .idle)
    (hc : s.host.session = some c) (hin : s.inputs = .host .fencChunk :: rest) :
    step s = exec (.fenc c.nextIndex 0 (decide (c.sent + 1 = c.total))) { s with inputs := rest } := by
  have decoded : decode (.request { op := 0x20, a := c.nextIndex, b := 0, c := flagByte (c.sent + 1 == c.total) }) =
      .ok (.fenc c.nextIndex 0 (decide (c.sent + 1 = c.total))) :=
    (decode_fenc rfl).trans (congrArg (Except.ok <| Instr.fenc _ _ ·) (flag_of_flagByte rfl))
  rw [step_of_host hin hp]
  simp only [runHost, fencChunk, hc, runRequest, decoded]

/-- The session after a chunk was sent (R236). -/
def Session.advance (c : Session) : Option Session :=
  if c.sent + 1 < c.total then some { total := c.total, nextIndex := c.nextIndex + 1, sent := c.sent + 1 } else none

/-- A chunk sent steps the session, or destroys it (R236). -/
theorem step_of_chunkSent {s : State} {c : Session} {rest : List Input} (hp : s.ph = .idle)
    (hc : s.host.session = some c) (hin : s.inputs = .host .chunkSent :: rest) :
    step s = .next { s with inputs := rest, host := { s.host with session := c.advance } } := by
  rw [step_of_host hin hp]
  simp only [runHost, chunkSent, hc]
  rfl

/-- Settles O57: the chunks are the blocks of the padded image, and the session's three actions are its opening, its
FENC and its step. -/
theorem transferChunksTheImage : Obligations.TransferChunksTheImage := by
  refine ⟨fun rto image h => ?_, fun s rest hp =>
    ⟨fun n => step_of_openSession hp, fun c hc => step_of_fencChunk hp hc, fun c hc => step_of_chunkSent hp hc⟩⟩
  obtain ⟨fits, close⟩ := totalChunks_bounds image
  refine ⟨fits, close, fun j _ => chunk_length image j, flatMap_chunk image, ?_⟩
  rw [transferProgram_of_ne_nil rto h]
  simp only [sendChunk_eq, pushes]

end Sys2Proof.Machine
end

section
/-! PROOF. The transfer as one run (R238 to R241): a chunk is loaded, framed, sent and acknowledged, and the session
steps. -/

namespace Sys2Proof.Machine

/-! ### One step of the host -/

section
variable {s t : State} {is : List Input}

/-- A request taken at `IDLE` ends where its instruction does. -/
theorem step_of_request {r : Request} {i : Instr} (hp : s.ph = .idle) (hin : s.inputs = .host (.request r) :: is)
    (hd : decode (.request r) = .ok i) (he : exec i { s with inputs := is } = .next t) : step s = .next t :=
  (stepRunsTheDecodedInstruction s (.request r) i is hd hin fun _ => hp).trans he

/-- The check of an `OK` response goes on (R240). -/
theorem step_of_expectOk_ok {v : Half} (hp : s.ph = .idle) (hin : s.inputs = .host .expectOk :: is)
    (h : s.reply = some { status := .ok, val := v }) : step s = .next { s with inputs := is } := by
  rw [step_of_expectOk hp hin, expectOk_of_ok (by exact h)]

/-- While the host waits, CORE makes its step (R76), and then the others. -/
theorem run_held {a : HostOp} {p : Phase} (n : Nat) (hin : s.inputs = .host a :: is) (hp : s.ph = p)
    (hb : p ≠ .idle) : Sys2Proof.core.run (n + 1) s = Sys2Proof.core.run n (runPhase s) :=
  run_succ n (step_of_host_busy hin (hp ▸ hb))

end

/-! ### The load of a chunk -/

/-- `DIN` loaded with `d` so far, every request answered `OK`, and the inputs `is` to come. -/
def loading (d : List Byte) (is : List Input) (s : State) : State :=
  { s with
    inputs := is, din := d, status := .ok
    responses := s.responses ++ List.replicate (d.length + 1) { status := .ok, val := 0 }
    reply := some { status := .ok, val := 0 } }

section
variable {s : State} {is : List Input}

/-- DCLR begins the load (R109). -/
theorem step_dclr (hp : s.ph = .idle) (hin : s.inputs = .host (.request { op := 0x10 }) :: is) :
    step s = .next (loading [] is s) :=
  step_of_request hp hin (decode_dclr rfl) (exec_dclr_of_idle (by exact hp))

/-- DPUSH adds a byte to it while `DIN` has room (R222). -/
theorem step_dpush {d : List Byte} (b : Byte) (hp : s.ph = .idle) (hl : d.length < 255) :
    step (loading d (.host (.request { op := 0x11, a := b }) :: is) s) = .next (loading (d ++ [b]) is s) := by
  have responses :
      (loading d is s).responses ++ [{ status := .ok, val := 0 }] = (loading (d ++ [b]) is s).responses := by
    simp [loading, List.replicate_succ']
  refine step_of_request hp rfl (decode_dpush rfl) ((exec_dpush_of_lt (s := loading d is s) hp hl b).trans ?_)
  rw [answered, responses]
  rfl

/-- The pushes of the bytes `c`. -/
theorem run_pushes (c : List Byte) {d : List Byte} (hp : s.ph = .idle) (hl : d.length + c.length ≤ 255) :
    Sys2Proof.core.run c.length (loading d (pushes c ++ is) s) = .next (loading (d ++ c) is s) := by
  induction c generalizing d with
  | nil => rw [List.append_nil]; rfl
  | cons b c ih =>
    rw [List.length_cons] at hl
    have pushed := ih (d := d ++ [b]) (by simp only [List.length_append, List.length_singleton]; omega)
    rw [List.append_assoc, List.singleton_append] at pushed
    exact (run_succ _ (step_dpush b hp (by omega))).trans pushed

/-- A load is one step more than it has bytes (R109). -/
theorem run_dload {c : List Byte} (hp : s.ph = .idle) (hl : c.length ≤ 255) (hin : s.inputs = dload c ++ is) :
    Sys2Proof.core.run (c.length + 1) s = .next (loading c is s) := by
  rw [dload_eq] at hin
  rw [run_succ _ (step_dclr hp hin)]
  exact run_pushes c hp (by simpa using hl)

/-! ### Its transmission -/

variable {a : HostOp} {ws fs : List Answer} {rs : List ReadAnswer}

/-- An attempt answered with `x` while the host waits: the three phases of SEND. -/
theorem run_attempt_held {x : Byte} (hp : s.ph = .sWrite) (hn : s.writing = none) (hl : s.out.length = 70)
    (hin : s.inputs = .host a :: is) (hw : s.oracle.writes = .done :: ws) (hf : s.oracle.flushes = .done :: fs)
    (hr : s.oracle.reads = .bytes [x] :: rs) :
    Sys2Proof.core.run 3 s = .next (sClassify (.bytes [x]) (attemptAnswered x ws fs rs s)) := by
  have events : s.history ++ attemptEvents s.out x =
      s.history ++ [{ who := .core, deed := .write s.out .done }] ++ [{ who := .core, deed := .flush .done }] ++
        [{ who := .core, deed := .read (.bytes [x]) }] := by
    simp [attemptEvents]
  rw [run_held 2 hin hp nofun, runPhase_sWrite hp, sWrite_of_done hl hw, countAttempt_of_none hn, hn,
    run_held (p := .sFlush) 1 (by exact hin) rfl nofun, runPhase_sFlush rfl, sFlush_of_done (by exact hf),
    run_held (p := .sRead) 0 (by exact hin) rfl nofun, runPhase_sRead rfl,
    sRead_of_cons (by exact hr) (admissible_single x), attemptAnswered, events]
  rfl

/-- SEND accepted and acknowledged at the first attempt. -/
def acknowledged (maxr b : Byte) (is : List Input) (ws fs : List Answer) (rs : List ReadAnswer) (s : State) : State :=
  endedOn 0x06 .ok (attemptAnswered 0x06 ws fs rs (sendAccepted maxr b { s with inputs := is }))

/-- It is four steps, in which the host's next action waits. -/
theorem run_send_acknowledged {maxr b : Byte} (hp : s.ph = .idle) (hl : s.out.length = 70) (hb : s.out.head? = some b)
    (hin : s.inputs = .host (.request { op := 0x40, a := maxr }) :: .host a :: is)
    (hw : s.oracle.writes = .done :: ws) (hf : s.oracle.flushes = .done :: fs)
    (hr : s.oracle.reads = .bytes [0x06] :: rs) :
    Sys2Proof.core.run 4 s = .next (acknowledged maxr b (.host a :: is) ws fs rs s) := by
  have accepted : step s = .next (sendAccepted maxr b { s with inputs := .host a :: is }) :=
    step_of_request hp hin (decode_send rfl)
      (exec_send_of_length (s := { s with inputs := .host a :: is }) hp hl hb maxr)
  have attempt := run_attempt_held (s := sendAccepted maxr b { s with inputs := .host a :: is }) rfl rfl hl rfl hw hf hr
  exact (run_succ 3 accepted).trans (attempt.trans (congrArg Host.Outcome.next (sClassify_ack _)))

/-- The next chunk of the session is its last (R238). -/
def Session.isLast (c : Session) : Bool := decide (c.sent + 1 = c.total)

/-- `DIN` framed, and the inputs `is` to come. -/
def framed (idx : Byte) (last : Bool) (is : List Input) (s : State) : State :=
  answered .ok (frameCrc idx 0 s.din) { s with
    inputs := is, out := frameBytes idx 0 s.din last, acc := frameCrc idx 0 s.din, cnt := 64 }

/-- The session's FENC frames a payload of 64 bytes (R238, R141). -/
theorem step_of_fencChunk_of_length {c : Session} (hp : s.ph = .idle) (hc : s.host.session = some c)
    (hl : s.din.length = 64) (hin : s.inputs = .host .fencChunk :: is) :
    step s = .next (framed c.nextIndex c.isLast is s) :=
  (step_of_fencChunk hp hc hin).trans (exec_fenc_of_length (s := { s with inputs := is }) hp hl _ _ _)

/-- A chunk is loaded and framed in 67 steps. -/
theorem run_frameChunk {c : Session} {p : List Byte} (hp : s.ph = .idle) (hc : s.host.session = some c)
    (hl : p.length = 64) (hin : s.inputs = dload p ++ .host .fencChunk :: .host .expectOk :: is) :
    Sys2Proof.core.run 67 s =
      .next (framed c.nextIndex c.isLast is (loading p [] s)) := by
  have load := run_dload hp (by omega) hin
  have frame := step_of_fencChunk_of_length (s := loading p _ s) (is := .host .expectOk :: is) hp hc hl rfl
  have check := step_of_expectOk_ok (s := framed c.nextIndex c.isLast _ (loading p [] s))
    (is := is) hp rfl rfl
  rw [hl] at load
  exact (run_add 65 2 load).trans ((run_succ 1 frame).trans (run_succ 0 check))

/-- A frame is sent and acknowledged, and the session stepped, in 6 steps. -/
theorem run_sendFrame {c : Session} {b : Byte} (hp : s.ph = .idle) (hc : s.host.session = some c)
    (hl : s.out.length = 70) (hb : s.out.head? = some b)
    (hin : s.inputs = .host (.request { op := 0x40, a := 5 }) :: .host .expectOk :: .host .chunkSent :: is)
    (hw : s.oracle.writes = .done :: ws) (hf : s.oracle.flushes = .done :: fs)
    (hr : s.oracle.reads = .bytes [0x06] :: rs) :
    Sys2Proof.core.run 6 s =
      .next { acknowledged 5 b is ws fs rs s with host := { s.host with session := c.advance } } := by
  have send := run_send_acknowledged hp hl hb hin hw hf hr
  have check := step_of_expectOk_ok (s := acknowledged 5 b _ ws fs rs s) (is := .host .chunkSent :: is) rfl rfl rfl
  have sent := step_of_chunkSent (s := acknowledged 5 b _ ws fs rs s) (rest := is) rfl hc rfl
  exact (run_add 4 2 send).trans ((run_succ 1 check).trans (run_succ 0 sent))

/-- What sending the chunk `p` in the session `c` leaves: its frame sent and handed over, the session stepped, and
these inputs and answers to come. -/
structure ChunkSent (s : State) (c : Session) (p : List Byte) (is : List Input) (ws fs : List Answer)
    (rs : List ReadAnswer) (t : State) : Prop where
  ph : t.ph = .idle
  inputs : t.inputs = is
  tx : t.tx = s.tx ++ frameBytes c.nextIndex 0 p c.isLast
  handed : t.handed = t.tx.length
  session : t.host.session = c.advance
  rto : t.rto = s.rto
  writes : t.oracle.writes = ws
  flushes : t.oracle.flushes = fs
  reads : t.oracle.reads = rs

/-- A chunk acknowledged at once takes 73 steps. -/
theorem run_sendChunk {c : Session} {p : List Byte} (hp : s.ph = .idle) (hc : s.host.session = some c)
    (hl : p.length = 64) (hin : s.inputs = sendChunk p ++ is) (hw : s.oracle.writes = .done :: ws)
    (hf : s.oracle.flushes = .done :: fs) (hr : s.oracle.reads = .bytes [0x06] :: rs) :
    ∃ t : State, Sys2Proof.core.run 73 s = .next t ∧ ChunkSent s c p is ws fs rs t := by
  rw [sendChunk, List.append_assoc, List.append_assoc, List.append_assoc] at hin
  have frame := run_frameChunk hp hc hl hin
  have send := run_sendFrame (s := framed c.nextIndex c.isLast _ (loading p [] s)) (is := is)
    hp hc (frameBytes_length hl _ _ _) rfl rfl hw hf hr
  exact ⟨_, (run_add 67 6 frame).trans send, rfl, rfl, rfl, rfl, rfl, rfl, rfl, rfl, rfl⟩

end

/-! ### The start -/

/-- The host has set the timeout `rto` and keeps the answer `Done`, and the inputs `is` are to come. -/
def timeoutSet (rto : Ticks) (ss : List Answer) (is : List Input) (s : State) : State :=
  noteAnswer (some .done) (addEvent .host (.setTimeout rto .done)
    { s with inputs := is, rto := rto, oracle := { s.oracle with sets := ss } })

/-- The host's timeout setting answered `Done` (R251). -/
theorem step_of_setTimeout_done {s : State} {rto : Ticks} {ss : List Answer} {is : List Input} (hp : s.ph = .idle)
    (hin : s.inputs = .host (.setTimeout rto) :: is) (hs : s.oracle.sets = .done :: ss) :
    step s = .next (timeoutSet rto ss is s) := by
  rw [step_of_host hin hp, runHost, hostSetTimeout, streamSetTimeout_of_cons (by exact hs)]
  rfl

/-- The check of an answer `Done` goes on (R251). -/
theorem step_of_expectDone_done {s : State} {is : List Input} (hp : s.ph = .idle)
    (hin : s.inputs = .host .expectDone :: is) (h : s.host.lastAnswer = some .done) :
    step s = .next { s with inputs := is } := by
  rw [step_of_host hin hp, runHost, expectDone, if_neg (by simp [h])]

/-! ### All chunks -/

/-- The frame of a chunk is the frame that the statement writes out (R238, R239). -/
theorem transferredFrame_eq (image : List Byte) (j : Nat) :
    transferredFrame image j =
      frameBytes (BitVec.ofNat 8 (j + 1)) 0 (chunk image j) (decide (j + 1 = totalChunks image)) := by
  simp only [transferredFrame, frameBytes, stopMarker, decide_eq_true_eq]
  rfl

/-- The session when `j` chunks were sent: the chunk `j + 1` is next, if there is one (R236, R239). -/
def sessionAfter (image : List Byte) (j : Nat) : Option Session :=
  if j < totalChunks image then some { total := totalChunks image, nextIndex := BitVec.ofNat 8 (j + 1), sent := j }
  else none

/-- A chunk sent steps it. -/
theorem advance_eq_sessionAfter (image : List Byte) (j : Nat) :
    ({ total := totalChunks image, nextIndex := BitVec.ofNat 8 (j + 1), sent := j } : Session).advance =
      sessionAfter image (j + 1) := by
  have index : BitVec.ofNat 8 (j + 1) + 1 = BitVec.ofNat 8 (j + 1 + 1) := (BitVec.ofNat_add ..).symm
  simp only [Session.advance, sessionAfter, index]

/-- The transfer's inputs when `j` chunks were sent. -/
def inputsAfter (image : List Byte) (j : Nat) : List Input :=
  ((List.range (totalChunks image)).drop j).flatMap (fun i => sendChunk (chunk image i)) ++ [.host (.report .ok)]

/-- A chunk's inputs come first, as long as there is one. -/
theorem inputsAfter_of_lt {image : List Byte} {j : Nat} (h : j < totalChunks image) :
    inputsAfter image j = sendChunk (chunk image j) ++ inputsAfter image (j + 1) := by
  rw [inputsAfter, List.drop_eq_getElem_cons (by simpa using h), List.getElem_range, List.flatMap_cons,
    List.append_assoc, inputsAfter]

/-- After the last chunk the host reports success (R237). -/
theorem inputsAfter_totalChunks (image : List Byte) :
    inputsAfter image (totalChunks image) = [.host (.report .ok)] := by
  rw [inputsAfter, List.drop_eq_nil_of_le (by simp), List.flatMap_nil, List.nil_append]

/-- The transfer of `image` begun at `s₀` has sent `j` chunks, with these answers to come. -/
structure Transferring (s₀ : State) (rto : Ticks) (image : List Byte) (j : Nat) (ws fs : List Answer)
    (rs : List ReadAnswer) (s : State) : Prop where
  ph : s.ph = .idle
  inputs : s.inputs = inputsAfter image j
  tx : s.tx = s₀.tx ++ (List.range j).flatMap (transferredFrame image)
  handed : 0 < j → s.handed = s.tx.length
  session : s.host.session = sessionAfter image j
  rto : s.rto = rto
  writes : s.oracle.writes = ws
  flushes : s.oracle.flushes = fs
  reads : s.oracle.reads = rs

section
variable {s₀ s : State} {rto : Ticks} {image : List Byte} {j : Nat} {ws fs : List Answer} {rs : List ReadAnswer}

/-- The next chunk (R238). -/
theorem Transferring.run_chunk (h : Transferring s₀ rto image j (.done :: ws) (.done :: fs) (.bytes [0x06] :: rs) s)
    (hj : j < totalChunks image) :
    ∃ t : State, Sys2Proof.core.run 73 s = .next t ∧ Transferring s₀ rto image (j + 1) ws fs rs t := by
  obtain ⟨t, run, sent⟩ := run_sendChunk h.ph (h.session.trans (if_pos hj)) (chunk_length image j)
    (h.inputs.trans (inputsAfter_of_lt hj)) h.writes h.flushes h.reads
  refine ⟨t, run, sent.ph, sent.inputs, ?_, fun _ => sent.handed,
    sent.session.trans (advance_eq_sessionAfter image j), sent.rto.trans h.rto, sent.writes, sent.flushes, sent.reads⟩
  rw [sent.tx, h.tx, List.append_assoc, List.range_succ, List.flatMap_append, List.flatMap_singleton,
    transferredFrame_eq]
  rfl

/-- `m` chunks more. -/
theorem Transferring.run_chunks {m : Nat} (h : Transferring s₀ rto image j (List.replicate m .done ++ ws)
      (List.replicate m .done ++ fs) (List.replicate m (.bytes [0x06]) ++ rs) s) (hm : j + m ≤ totalChunks image) :
    ∃ t : State, Sys2Proof.core.run (73 * m) s = .next t ∧ Transferring s₀ rto image (j + m) ws fs rs t := by
  induction m generalizing j s with
  | zero => exact ⟨s, run_zero s, h⟩
  | succ m ih =>
    obtain ⟨u, first, hu⟩ := h.run_chunk (by omega)
    obtain ⟨t, others, ht⟩ := ih hu (by omega)
    exact ⟨t, by rw [Nat.mul_succ, Nat.add_comm, run_add 73 (73 * m) first, others],
      by rwa [Nat.add_right_comm, Nat.add_assoc] at ht⟩

/-- The timeout set, checked, and the session opened: three steps (R236, R251). -/
theorem run_transferStart {ss : List Answer} (hp : s.ph = .idle) (hi : image ≠ [])
    (hin : s.inputs = transferProgram rto image) (hs : s.oracle.sets = .done :: ss) (hw : s.oracle.writes = ws)
    (hf : s.oracle.flushes = fs) (hr : s.oracle.reads = rs) :
    ∃ t : State, Sys2Proof.core.run 3 s = .next t ∧ Transferring s rto image 0 ws fs rs t := by
  have setting := step_of_setTimeout_done hp (hin.trans (transferProgram_of_ne_nil rto hi)) hs
  have check := step_of_expectDone_done (s := timeoutSet rto ss _ s)
    (is := .host (.openSession (totalChunks image)) :: inputsAfter image 0) hp rfl rfl
  exact ⟨_, (run_succ 2 setting).trans ((run_succ 1 check).trans (run_succ 0 (step_of_openSession hp rfl))),
    hp, rfl, (List.append_nil _).symm, fun h => absurd h (Nat.lt_irrefl 0),
    (if_pos (totalChunks_pos hi)).symm, rfl, hw, hf, hr⟩

/-- The report of success is the last step (R237). -/
theorem Transferring.run_report (h : Transferring s₀ rto image (totalChunks image) ws fs rs s) :
    Sys2Proof.core.run 1 s = .next (hostReport .ok none { s with inputs := [] }) :=
  run_succ 0 (step_of_host (h.inputs.trans (inputsAfter_totalChunks image)) h.ph)

end

/-- Settles O60: the start, the chunks one by one, and the report. -/
theorem transferSendsTheImage : Obligations.TransferSendsTheImage := by
  rintro s rto image _ ws fs ss rest hp hi rfl hin hs hw hf hr
  obtain ⟨u, start, hu⟩ := run_transferStart hp hi hin hs hw hf hr
  obtain ⟨t, chunks, ht⟩ := hu.run_chunks (by omega)
  rw [Nat.zero_add] at ht
  have steps : 73 * totalChunks image + 4 = 3 + (73 * totalChunks image + 1) := by omega
  rw [steps]
  exact ⟨_, (run_add 3 _ start).trans ((run_add _ 1 chunks).trans ht.run_report), ht.ph, rfl, ht.tx,
    ht.handed (totalChunks_pos hi), ht.session.trans (if_neg (Nat.lt_irrefl _)), rfl, ht.rto, ht.reads⟩

end Sys2Proof.Machine
end

section
/-! PROOF. The end of an operation: which status and value each delivers (R264, R266), at once or by the step that brings
SEND or MAGIC back to `IDLE`. -/

namespace Sys2Proof.Machine

/-! ### Operations answered at once -/

/-- One response is delivered, with the status now held: `OK`, or `OperandError` with value 0 (R264, R269). -/
def AnsweredAtOnce (s : State) (o : Host.Outcome State Fault Refusal) : Prop :=
  ∃ t v, o = .next t ∧ t.responses = s.responses ++ [{ status := t.status, val := v }] ∧
    (t.status = .ok ∨ (t.status = .operandError ∧ v = 0))

theorem answeredAtOnce_ok {s u : State} {o : Host.Outcome State Fault Refusal} (v : Half)
    (ho : o = .next (answered .ok v u)) (hu : u.responses = s.responses) : AnsweredAtOnce s o :=
  ⟨_, v, ho, congrArg (· ++ _) hu, .inl rfl⟩

theorem answeredAtOnce_refused {s : State} {o : Host.Outcome State Fault Refusal}
    (ho : o = .next (answered .operandError 0 s)) : AnsweredAtOnce s o :=
  ⟨_, 0, ho, rfl, .inr ⟨rfl, rfl⟩⟩

section
variable {s : State} (hp : s.ph = .idle)
include hp

theorem exec_crc16_answeredAtOnce : AnsweredAtOnce s (exec .crc16 s) := by
  rcases Nat.lt_or_ge s.din.length 64 with hl | hl
  · exact answeredAtOnce_refused (exec_crc16_of_lt hp hl)
  · exact answeredAtOnce_ok _ (exec_crc16_of_le hp hl) rfl

theorem exec_fenc_answeredAtOnce (idx rsv : Byte) (last : Bool) : AnsweredAtOnce s (exec (.fenc idx rsv last) s) := by
  by_cases hl : s.din.length = 64
  · exact answeredAtOnce_ok _ (exec_fenc_of_length hp hl idx rsv last) rfl
  · exact answeredAtOnce_refused (exec_fenc_of_ne hp hl idx rsv last)

theorem exec_penc_answeredAtOnce (addr ins : Byte) : AnsweredAtOnce s (exec (.penc addr ins) s) := by
  rcases Nat.lt_or_ge 253 s.din.length with hl | hl
  · exact answeredAtOnce_refused (exec_penc_of_gt hp hl addr ins)
  · exact answeredAtOnce_ok 0 (exec_penc_of_le hp hl addr ins) rfl

theorem exec_dpush_answeredAtOnce (b : Byte) : AnsweredAtOnce s (exec (.dpush b) s) := by
  rcases Nat.lt_or_ge s.din.length cfg.dinCap with hl | hl
  · exact answeredAtOnce_ok 0 (exec_dpush_of_lt hp hl b) rfl
  · exact answeredAtOnce_refused (exec_dpush_of_full hp hl b)

theorem exec_ord_answeredAtOnce (i : BitVec 9) : AnsweredAtOnce s (exec (.ord i) s) := by
  cases hb : readByte .out i.toNat s with
  | some b => exact answeredAtOnce_ok _ (exec_ord_of_some hp hb) rfl
  | none => exact answeredAtOnce_refused (exec_ord_of_none hp hb)

theorem exec_rdreg_answeredAtOnce (r : Byte) : AnsweredAtOnce s (exec (.rdreg r) s) := by
  cases hv : regRead r s with
  | some v => exact answeredAtOnce_ok v (exec_rdreg_of_some hp hv) rfl
  | none => exact answeredAtOnce_refused (exec_rdreg_of_none hp hv)

end

/-! ### SEND and MAGIC -/

/-- The statuses the operation running in phase `p` can end with (R264). -/
def endKinds (p : Phase) : List Status :=
  if p.sending then [.ok, .timeout, .unexpectedResponse, .retryExhausted, .framingError, .streamError]
  else [.ok, .timeout, .streamError]

/-- The value it ends with: SEND's is `ATT` (R171), MAGIC's is 0. -/
def endValue (p : Phase) (t : State) : Half := if p.sending then attVal t else 0

/-- The operation that ran in phase `p` of `s` has ended in `t`, with its one response. -/
def EndsOperation (p : Phase) (s t : State) : Prop :=
  t.responses = s.responses ++ [{ status := t.status, val := endValue p t }] ∧ t.status ∈ endKinds p

/-- Responding ends the operation, if nothing was delivered before. -/
theorem endsOperation_respond {p : Phase} {s u : State} {k : Status} {v : Half} (hu : u.responses = s.responses)
    (hv : v = endValue p u) (hk : k ∈ endKinds p) : EndsOperation p s (respond k v u) := by
  subst hv
  exact ⟨congrArg (· ++ _) hu, hk⟩

theorem sRead_goes_on_or_ends (s : State) : (sRead s).ph ≠ .idle ∨ EndsOperation .sRead s (sRead s) := by
  obtain ⟨r, o, h⟩ := sRead_cases s
  rw [h]
  rcases sClassify_cases r (addEvent .core (.read r) { s with clock := s.clock + readTime r s, oracle := o })
    with ⟨k, n, b, h, hk⟩ | ⟨-, -, h⟩ <;> rw [h]
  · exact .inr (endsOperation_respond rfl rfl hk)
  · exact .inl nofun

theorem mRead_goes_on_or_ends (s : State) : (mRead s).ph ≠ .idle ∨ EndsOperation .mRead s (mRead s) := by
  obtain ⟨r, o, h⟩ := mRead_cases s
  rw [h]
  rcases mClassify_cases r (addEvent .core (.read r) { s with clock := s.clock + readTime r s, oracle := o })
    with ⟨-, h⟩ | ⟨-, h⟩ | ⟨-, h⟩ | ⟨l, n, b, -, h⟩ <;> rw [h]
  · exact .inr (endsOperation_respond rfl rfl (by decide))
  · exact .inr (endsOperation_respond rfl rfl (by decide))
  · exact .inl nofun
  · exact .inl nofun

/-- A phase goes on to another one, or ends its operation (R183, R211). -/
theorem runPhase_goes_on_or_ends {s : State} (hp : s.ph ≠ .idle) :
    (runPhase s).ph ≠ .idle ∨ EndsOperation s.ph s (runPhase s) := by
  cases h : s.ph with
  | idle => exact absurd h hp
  | sRead => rw [runPhase_sRead h]; exact sRead_goes_on_or_ends s
  | mRead => rw [runPhase_mRead h]; exact mRead_goes_on_or_ends s
  | sWrite =>
    rw [runPhase_sWrite h]
    rcases sWrite_cases s with ⟨o, he⟩ | ⟨n, o, he⟩ <;> rw [he]
    · exact .inl nofun
    · exact .inr (endsOperation_respond rfl rfl (by decide))
  | sFlush =>
    rw [runPhase_sFlush h]
    rcases sFlush_cases s with ⟨o, he⟩ | ⟨n, o, he⟩ <;> rw [he]
    · exact .inl nofun
    · exact .inr (endsOperation_respond rfl rfl (by decide))
  | mSetup =>
    rw [runPhase_mSetup h]
    rcases mSetup_cases s with ⟨n, o, he⟩ | ⟨o, he⟩ <;> rw [he]
    · exact .inl nofun
    · exact .inr (endsOperation_respond rfl rfl (by decide))
  | mWrite =>
    rw [runPhase_mWrite h]
    rcases mWrite_cases s with ⟨o, he⟩ | ⟨n, o, he⟩ <;> rw [he]
    · exact .inl nofun
    · exact .inr (endsOperation_respond rfl rfl (by decide))
  | mFlush =>
    rw [runPhase_mFlush h]
    rcases mFlush_cases s with ⟨o, he⟩ | ⟨n, o, he⟩ <;> rw [he]
    · exact .inl nofun
    · exact .inr (endsOperation_respond rfl rfl (by decide))
  | mCheck =>
    rw [runPhase_mCheck h]
    rcases mCheck_cases s with ⟨n, o, -, he⟩ | ⟨n, o, he⟩ <;> rw [he]
    · exact .inr (endsOperation_respond rfl rfl (by decide))
    · exact .inl nofun

/-- And so does a wait. -/
theorem waitPhase_goes_on_or_ends {s : State} (n : Nat) (hp : s.ph ≠ .idle) :
    (waitPhase n s).ph ≠ .idle ∨ EndsOperation s.ph s (waitPhase n s) := by
  rcases waitPhase_cases n s with h | ⟨-, h⟩ | ⟨-, h⟩ | ⟨-, h⟩ <;> rw [h]
  · exact .inl hp
  · exact runPhase_goes_on_or_ends hp
  · exact .inl hp
  · exact .inl hp

/-- A step that brings a running operation back to `IDLE` without reset ends it. -/
theorem endsOperation_of_step {s t : State} (h : step s = .next t) (hp : s.ph ≠ .idle)
    (hr : s.inputs.head? ≠ some .reset) (ht : t.ph = .idle) : EndsOperation s.ph s t := by
  obtain ⟨rest, o, he | he | ⟨n, he⟩⟩ := step_busy_cases hp hr <;> rw [he] at h <;> cases h
  · exact absurd ht hp
  · exact (runPhase_goes_on_or_ends (s := { s with inputs := rest, oracle := o }) hp).resolve_left (absurd ht)
  · exact (waitPhase_goes_on_or_ends (s := { s with inputs := rest, oracle := o }) n hp).resolve_left (absurd ht)

/-- Settles O49: four operations complete, six complete or are refused, and SEND and MAGIC end with their response. -/
theorem statusKindsPerOperation : Obligations.StatusKindsPerOperation := by
  refine ⟨fun s b hp => ?_, fun s b idx rsv addr ins i9 last hp => ?_, fun s t hp hr h ht => ?_⟩
  · simp only [List.forall_mem_cons]
    exact ⟨⟨_, 0, exec_crcclr_of_idle hp, rfl, rfl⟩, ⟨_, 0, exec_crcpush_of_idle hp b, rfl, rfl⟩,
      ⟨_, 0, exec_dclr_of_idle hp, rfl, rfl⟩, ⟨_, 0, exec_ocpy_of_idle hp, rfl, rfl⟩, nofun⟩
  · simp only [List.forall_mem_cons]
    exact ⟨exec_crc16_answeredAtOnce hp, exec_fenc_answeredAtOnce hp idx rsv last,
      exec_penc_answeredAtOnce hp addr ins, exec_dpush_answeredAtOnce hp b, exec_ord_answeredAtOnce hp i9,
      exec_rdreg_answeredAtOnce hp b, nofun⟩
  · obtain ⟨response, kind⟩ := endsOperation_of_step h hp hr ht
    refine ⟨_, response, fun hs => ?_, fun hs => ?_⟩
    · simp only [endKinds, hs, if_true] at kind
      exact ⟨if_pos hs, kind⟩
    · simp only [endKinds, hs, Bool.false_eq_true, if_false] at kind
      exact ⟨if_neg (ne_true_of_eq_false hs), kind⟩

end Sys2Proof.Machine
end

section
/-! PROOF. No step stops (R266, R272): while an operation runs a step is one of its phases, and at `IDLE` every
instruction a port word decodes to is well-formed, and so has a next state. -/

namespace Sys2Proof.Machine

/-! ### What the decoder gives is well-formed -/

theorem decodeRequest_wellFormed {r : Request} {i : Instr} (h : decodeRequest r = .ok i) : i.wellFormed = true := by
  unfold decodeRequest at h
  split at h <;> cases h <;> rfl

theorem decodePair_wellFormed {r1 r2 : Request} {i : Instr} (h : decodePair r1 r2 = .ok i) :
    i.wellFormed = true := by
  unfold decodePair at h
  split at h
  · split at h
    · cases h; rfl
    · split at h <;> cases h
      rfl
  · cases h

/-- The row of a packet that is encoded: PINGPKT, REBOOTPKT, or a CMDPKT that is neither (R103, R160). -/
theorem packetRow_wellFormed {q : List Byte} (hq : q.length ≤ cfg.paramMax) (addr ins : Byte) :
    (packetRow addr ins q).wellFormed = true := by
  unfold packetRow
  split
  · rfl
  · split
    · rfl
    · rename_i hping hreboot
      rw [Instr.wellFormed, Bool.and_or_distrib_left, Bool.eq_false_of_not_eq_true hping,
        Bool.eq_false_of_not_eq_true hreboot, decide_eq_true hq]
      rfl

theorem readPacket_wellFormed {l : List Byte} {i : Instr} (h : readPacket l = .ok i) : i.wellFormed = true := by
  unfold readPacket at h
  split at h
  · rename_i addr _ ins rest
    split at h <;> cases h
    rename_i he
    refine packetRow_wellFormed (Nat.not_lt.mp fun hq => ?_) addr ins
    rw [encodePacket_of_gt hq] at he
    cases he
  · cases h

theorem readFrame_wellFormed {l : List Byte} {i : Instr} (h : readFrame l = some i) : i.wellFormed = true := by
  unfold readFrame at h
  split at h
  · simp only at h
    split at h <;> cases h
    rename_i he
    obtain ⟨f, hf, -⟩ := Option.map_eq_some_iff.mp he
    exact beq_iff_eq.mpr (encodeFrame_layout hf).1
  · cases h

theorem decodeOutbound_wellFormed {l : List Byte} {i : Instr} (h : decodeOutbound l = .ok i) :
    i.wellFormed = true := by
  unfold decodeOutbound at h
  iterate 4
    split at h
    · cases h; rfl
  split at h
  · cases h; exact readFrame_wellFormed ‹_›
  · exact readPacket_wellFormed h

/-! ### At `IDLE` -/

theorem AnsweredAtOnce.has_next {s : State} {o : Host.Outcome State Fault Refusal} (h : AnsweredAtOnce s o) :
    ∃ t, o = .next t := by
  obtain ⟨t, v, ht, -⟩ := h
  exact ⟨t, ht⟩

/-- A checked operation is done or refused; both are next states (R269). -/
theorem checked_has_next (ok : Bool) (s : State) (f : State → State) : ∃ t, checked ok s f = .next t := by
  cases ok
  · exact ⟨refuse s, rfl⟩
  · exact ⟨f s, rfl⟩

section
variable {s : State} (hp : s.ph = .idle)
include hp

theorem sendPacket_has_next {q : List Byte} (hq : q.length ≤ 253) (addr ins : Byte) :
    ∃ t, sendPacket (encodePacket addr ins q) s = .next t := by
  rw [encodePacket_of_le hq]
  exact ⟨_, sendPacket_of_idle _ hp⟩

/-- Every well-formed instruction has a next state at `IDLE`: nothing holds the host, and a wire row has its bytes. -/
theorem exec_has_next {i : Instr} (hi : i.wellFormed = true) : ∃ t, exec i s = .next t := by
  cases i with
  | crcclr => exact ⟨_, exec_crcclr_of_idle hp⟩
  | crcpush b => exact ⟨_, exec_crcpush_of_idle hp b⟩
  | dclr => exact ⟨_, exec_dclr_of_idle hp⟩
  | ocpy => exact ⟨_, exec_ocpy_of_idle hp⟩
  | crc16 => exact (exec_crc16_answeredAtOnce hp).has_next
  | dpush b => exact (exec_dpush_answeredAtOnce hp b).has_next
  | ord i => exact (exec_ord_answeredAtOnce hp i).has_next
  | rdreg r => exact (exec_rdreg_answeredAtOnce hp r).has_next
  | fenc idx rsv last => exact (exec_fenc_answeredAtOnce hp idx rsv last).has_next
  | penc addr ins => exact (exec_penc_answeredAtOnce hp addr ins).has_next
  | send maxr =>
    rw [exec, execSend, whenIdle_of_idle hp]
    exact checked_has_next _ s _
  | magic ivl maxWait =>
    rw [exec, execMagic, whenIdle_of_idle hp]
    exact ⟨_, rfl⟩
  | ping addr | reboot addr => exact ⟨_, dclrThenPenc_answered addr _ hp⟩
  | frame idx rsv p more =>
    have hf := encodeFrame_of_length (beq_iff_eq.mp hi) idx rsv (!more)
    exact ⟨_, (execFrame_of_encoded hf s).trans (transferOut_of_idle _ _ _ hp)⟩
  | cmdpkt addr ins q =>
    have hq : q.length ≤ 253 := of_decide_eq_true (Bool.and_eq_true_iff.mp hi).1
    exact sendPacket_has_next hp hq addr ins
  | pingpkt addr | rebootpkt addr => exact sendPacket_has_next (q := []) hp (Nat.zero_le _) addr _
  | ack | nak => exact ⟨_, rfl⟩
  | stopLast | stopMore | magicseq => exact ⟨_, transferOut_of_idle _ _ _ hp⟩
  | initbyte =>
    rw [exec, execInitbyte, whenIdle_of_idle hp]
    exact ⟨_, rfl⟩

theorem runRequest_has_next (r : Request) : ∃ t, runRequest r s = .next t := by
  unfold runRequest
  split
  · exact exec_has_next hp (decodeRequest_wellFormed ‹_›)
  · exact ⟨_, rfl⟩

theorem runPair_has_next (r1 r2 : Request) : ∃ t, runPair r1 r2 s = .next t := by
  unfold runPair
  split
  · exact exec_has_next hp (decodePair_wellFormed ‹_›)
  · exact runRequest_has_next (s := { s with inputs := .host (.request r2) :: s.inputs }) hp r1

theorem runTransmit_has_next (l : List Byte) : ∃ t, runTransmit l s = .next t := by
  unfold runTransmit
  split
  · exact exec_has_next hp (decodeOutbound_wellFormed ‹_›)
  · exact ⟨_, rfl⟩

theorem runHost_has_next (a : HostOp) : ∃ t, runHost a s = .next t := by
  rcases runHost_cases a s with ⟨r, he⟩ | ⟨r1, r2, he⟩ | ⟨l, he⟩ | ⟨l, he⟩ | he | ⟨τ, he⟩ | ⟨u, he, -⟩ <;> rw [he]
  · exact runRequest_has_next hp r
  · exact runPair_has_next hp r1 r2
  · exact runTransmit_has_next hp l
  all_goals exact ⟨_, rfl⟩

end

/-! ### Every step -/

/-- Settles O47: every input but an action of the host is taken by a function to states; the host's action is left while
an operation runs, and has a next state at `IDLE`. -/
theorem everyStateHasANextStep : Obligations.EveryStateHasANextStep := by
  intro s
  unfold Runs
  cases hi : s.inputs with
  | nil => exact ⟨_, step_of_no_input hi⟩
  | cons i rest =>
    cases i with
    | quiet => exact ⟨_, step_of_quiet hi⟩
    | reset => exact ⟨_, step_of_reset hi⟩
    | wait n => exact ⟨_, step_of_wait hi⟩
    | peer l => exact ⟨_, (step_of_peer hi).trans (runArrival_eq l _)⟩
    | group n => exact ⟨_, step_of_group hi⟩
    | host a =>
      by_cases hp : s.ph = .idle
      · rw [step_of_host hi hp]
        exact runHost_has_next (s := { s with inputs := rest }) hp a
      · exact ⟨_, step_of_host_busy hi hp⟩

end Sys2Proof.Machine
end
